-- ==== Sys2Proof/Word.lean ====
section
/-!
DEFINITION. The machine's words: u8, u32 and u64 values (spec/00_scope.md R12), the four-channel pixel and its two
named constants (spec/10_state.md R20). Addition and subtraction of `Byte` are the wrapping `+₈` and `−₈` of
spec/00_scope.md R13.
-/

namespace Sys2Proof

/-- u8 (R12); one channel of a pixel, one byte of a stream or of a pixel memory. -/
abbrev Byte := BitVec 8

/-- u32 (R12); one host-visible register. -/
abbrev Word := BitVec 32

/-- u64 (R12, R11); a position or an event counter. -/
abbrev Count := BitVec 64

/-- A pixel: the ordered 4-tuple (red, green, blue, alpha) of 10_state.md R20. -/
structure Pixel where
  r : Byte
  g : Byte
  b : Byte
  a : Byte
  deriving DecidableEq, Repr

/-- PX_ZERO (10_state.md R20). -/
def Pixel.zero : Pixel := ⟨0, 0, 0, 0⟩

/-- PX_SEED (10_state.md R20). -/
def Pixel.seed : Pixel := ⟨0, 0, 0, 255⟩

end Sys2Proof
end

