-- ==== Sys2Proof/Syntax.lean ====
section
/-!
DEFINITION. The instruction set: the tagged opcode stream of spec/00_scope.md R2, one constructor for each row of
spec/opcode_table.json, with the operands of the assembly forms of spec/30_encoding.md R102.
-/

namespace Sys2Proof

/-- One item of the stream. Deltas are signed, a run carries its length: the bias of a field belongs to the encoding. -/
inductive Instr where
  /-- RGBA r, g, b, a (30_encoding.md R86) -/
  | rgba (r g b a : Byte)
  /-- RGB r, g, b (R85) -/
  | rgb (r g b : Byte)
  /-- INDEX i (R87) -/
  | index (i : BitVec 6)
  /-- DIFF dr, dg, db, each in −2..1 (R88) -/
  | diff (dr dg db : Int)
  /-- LUMA dg, dr − dg, db − dg, in −32..31 and −8..7 (R89) -/
  | luma (dg drDg dbDg : Int)
  /-- RUN L, L in 1..62 (R90) -/
  | run (len : Nat)
  /-- END, the end marker (R91) -/
  | endMark
  /-- HEADER w, h, ch, cs (R92) -/
  | header (w h : Word) (ch cs : Byte)
  deriving DecidableEq, Repr

end Sys2Proof
end

