-- ==== Sys2Proof/WellFormed.lean ====
section
/-!
DEFINITION. The operand ranges of spec/30_encoding.md R102 (the assembler rejects any operand outside its range),
one check for each operand that a type does not already bound.
-/

namespace Sys2Proof

/-- A signed operand lies in lo..hi. -/
def inRange (lo hi d : Int) : Bool := decide (lo ≤ d ∧ d ≤ hi)

/-- The operand ranges of R102: DIFF deltas −2..1 (R88), LUMA −32..31 and −8..7 (R89), RUN 1..62 (R90). R102 names no
range for HEADER and leaves open whether the legal values of R92 (ch 3 or 4, cs 0 or 1) are one: here any u8 is a
well-formed ch and cs. DESIGN CHOICE (log 16). -/
def Instr.wf : Instr → Bool
  | .rgba _ _ _ _ => true
  | .rgb _ _ _ => true
  | .index _ => true
  | .diff dr dg db => inRange (-2) 1 dr && inRange (-2) 1 dg && inRange (-2) 1 db
  | .luma dg drDg dbDg => inRange (-32) 31 dg && inRange (-8) 7 drDg && inRange (-8) 7 dbDg
  | .run len => decide (1 ≤ len ∧ len ≤ 62)
  | .endMark => true
  | .header _ _ _ _ => true

end Sys2Proof
end

