-- ==== Sys2Proof/Decode.lean ====
section
/-!
DEFINITION. The encodings of spec/30_encoding.md: the decoder of a stream's bytes, total and rejecting by name, and
the encoder, each written from the field tables R85 to R96. What an item does is in Machine/.
-/

namespace Sys2Proof

/-- Why bytes are no item of the stream. -/
inductive DecodeError where
  /-- no byte is left -/
  | empty
  /-- fewer bytes are left than the item needs (R94, 41_decoder.md R151) -/
  | truncated
  /-- the first four bytes are not the magic (41_decoder.md R151) -/
  | badMagic
  deriving DecidableEq, Repr

/-- MARKER (R91). -/
def marker : List Byte := [0x00, 0x00, 0x00, 0x00, 0x00, 0x00, 0x00, 0x01]

/-- The four magic bytes, ASCII `qoif` (R92; PRESUMED by the spec itself, 93 G2: log 10). -/
def magic : List Byte := [0x71, 0x6F, 0x69, 0x66]

/-- The length of a header (R92). -/
def headerLen : Nat := 14

/-- `oplen(t)` (R94): the length of an opcode, from its tag alone. -/
def oplen (t : Byte) : Nat :=
  if t = 0xFF then 5
  else if t = 0xFE then 4
  else if t.extractLsb' 6 2 = 0b10#2 then 2
  else 1

/-- A u32 from four bytes, most significant first (20_memory.md R70). -/
def word32BE (b0 b1 b2 b3 : Byte) : Word := b0 ++ b1 ++ b2 ++ b3

/-- A u32 as four bytes, most significant first (20_memory.md R70). -/
def bytesBE (v : Word) : List Byte :=
  [v.extractLsb' 24 8, v.extractLsb' 16 8, v.extractLsb' 8 8, v.extractLsb' 0 8]

/-- A field of n bits holding a signed operand with a bias (R88, R89). -/
def biased {n : Nat} (bias : Int) (field : BitVec n) : Int := (field.toNat : Int) - bias

/-- The item a tag and the bytes after it stand for: the priority of R93 and the fields of R95. -/
def assemble (t : Byte) (rest : List Byte) : Instr :=
  let p (j : Nat) : Byte := rest.getD j 0
  if t = 0xFF then .rgba (p 0) (p 1) (p 2) (p 3)
  else if t = 0xFE then .rgb (p 0) (p 1) (p 2)
  else if t.extractLsb' 6 2 = 0b00#2 then .index (t.extractLsb' 0 6)
  else if t.extractLsb' 6 2 = 0b01#2 then
    .diff (biased 2 (t.extractLsb' 4 2)) (biased 2 (t.extractLsb' 2 2)) (biased 2 (t.extractLsb' 0 2))
  else if t.extractLsb' 6 2 = 0b10#2 then
    .luma (biased 32 (t.extractLsb' 0 6)) (biased 8 ((p 0).extractLsb' 4 4)) (biased 8 ((p 0).extractLsb' 0 4))
  else .run ((t.extractLsb' 0 6).toNat + 1)

/-- Reads one opcode and leaves the bytes after it (R93 to R95; the length test of 41_decoder.md R153). -/
def decodeOp : List Byte → Except DecodeError (Instr × List Byte)
  | [] => .error .empty
  | t :: rest =>
    if rest.length + 1 < oplen t then .error .truncated
    else .ok (assemble t rest, rest.drop (oplen t - 1))

/-- The bytes begin with MARKER (40_format_and_cache.md R129); false where fewer than 8 are left. -/
def isMarker (bs : List Byte) : Bool := bs.take 8 == marker

/-- Reads one item at a tag position: the end marker is tested before the tag (R100, 41_decoder.md R153). -/
def decodeBody (bs : List Byte) : Except DecodeError (Instr × List Byte) :=
  if isMarker bs then .ok (.endMark, bs.drop 8) else decodeOp bs

/-- Reads the header at stream byte 0 (R92), the magic tested first (41_decoder.md R151). -/
def decodeHeader (bs : List Byte) : Except DecodeError (Instr × List Byte) :=
  if bs.take 4 = magic then
    match bs.drop 4 with
    | w0 :: w1 :: w2 :: w3 :: h0 :: h1 :: h2 :: h3 :: ch :: cs :: rest =>
      .ok (.header (word32BE w0 w1 w2 w3) (word32BE h0 h1 h2 h3) ch cs, rest)
    | _ => .error .truncated
  else .error .badMagic

/-- `hdr(w, h, ch, cs)` (40_format_and_cache.md R126). -/
def hdr (w h : Word) (ch cs : Byte) : List Byte := magic ++ bytesBE w ++ bytesBE h ++ [ch, cs]

/-- The bytes of an item (R85 to R92, R96). -/
def encode : Instr → List Byte
  | .rgba r g b a => [0xFF, r, g, b, a]
  | .rgb r g b => [0xFE, r, g, b]
  | .index i => [i.setWidth 8]
  | .diff dr dg db =>
    [0x40#8 ||| BitVec.ofInt 8 (dr + 2) <<< 4 ||| BitVec.ofInt 8 (dg + 2) <<< 2 ||| BitVec.ofInt 8 (db + 2)]
  | .luma dg drDg dbDg =>
    [0x80#8 ||| BitVec.ofInt 8 (dg + 32), BitVec.ofInt 8 (drDg + 8) <<< 4 ||| BitVec.ofInt 8 (dbDg + 8)]
  | .run len => [0xC0#8 ||| BitVec.ofNat 8 (len - 1)]
  | .endMark => marker
  | .header w h ch cs => hdr w h ch cs

/-- The length in bytes of an item (R85 to R92): by how much it advances the stream position. -/
def Instr.size : Instr → Nat
  | .rgba _ _ _ _ => 5
  | .rgb _ _ _ => 4
  | .index _ => 1
  | .diff _ _ _ => 1
  | .luma _ _ _ => 2
  | .run _ => 1
  | .endMark => 8
  | .header _ _ _ _ => 14

/-- The assembler of R102: the bytes of an item whose operands are in range, and a rejection of any other. -/
def assembleLine (i : Instr) : Option (List Byte) := if i.wf = true then some (encode i) else none

/-- The pseudo-instruction `RUNS n` (R103). -/
def runs (n : Nat) : List Instr :=
  List.replicate (n / 62) (.run 62) ++ (if n % 62 = 0 then [] else [.run (n % 62)])

/-- The longest item, in bytes. -/
def longest : Nat := 14

/-- The first `longest` bytes of an item numbered as spec/opcode_table.json numbers it: the first byte is bits 7..0;
bits at or above `nbits` are 0. -/
def tableBytes (nbits w : Nat) : List Byte :=
  (List.range longest).map fun j => BitVec.ofNat 8 ((w % 2 ^ nbits) >>> (8 * j))

/-- A table row stands at stream byte 0, and is a header, when its own bits hold the four magic bytes; every other row
stands at a tag position (R84: the header has no tag and is recognised by position). -/
def isHeaderRow (nbits w : Nat) : Bool := decide (32 ≤ nbits) && ((tableBytes nbits w).take 4 == magic)

/-- The item this decoder reads from a row's bits. -/
def decodeTableWord (nbits w : Nat) : Option Instr :=
  let bs := tableBytes nbits w
  match (if isHeaderRow nbits w then decodeHeader bs else decodeBody bs) with
  | .ok (i, _) => some i
  | .error _ => none

end Sys2Proof
end

