-- ==== Sys2Proof/Config.lean ====
section
/-!
DEFINITION. What an implementation of the block fixes (the parameters of spec/00_scope.md R9 and spec/20_memory.md
R72), their legal ranges, the acts that reach the block from outside, and the free values of the model: a byte no rule
fixes, the choice among agents, what the host does next, and a count its 32-bit register cannot show.
-/

namespace Sys2Proof

/-- HOST_BUS_BYTE_ORDER (20_memory.md R72): which byte of a wide host access goes to the lowest address. -/
inductive ByteOrder where
  /-- the least significant byte goes to the lowest address -/
  | little
  /-- the most significant byte goes to the lowest address -/
  | big
  deriving DecidableEq, Repr

/-- The named parameters of 00_scope.md R9 and 20_memory.md R72. No step writes them (log 5). -/
structure Config.Params where
  /-- PIX_MEM_BYTES, the byte size of PIX_E and of PIX_D -/
  pixMemBytes : Nat
  /-- OUT_DEPTH, the depth in bytes of ENC's output FIFO -/
  outDepth : Nat
  /-- IN_DEPTH, the depth in bytes of DEC's input FIFO -/
  inDepth : Nat
  /-- ENC_BASE, the host address of ENC's register block -/
  encBase : Nat
  /-- DEC_BASE, the host address of DEC's register block -/
  decBase : Nat
  /-- PIXE_BASE, the host address of PIX_E -/
  pixeBase : Nat
  /-- PIXD_BASE, the host address of PIX_D -/
  pixdBase : Nat
  /-- HOST_BUS_BYTE_ORDER -/
  busOrder : ByteOrder
  deriving DecidableEq, Repr

/-- The size in bytes of a register block (20_memory.md R61). -/
def Config.regBlockBytes : Nat := 256

/-- Two address ranges, each a base and a size, have no address in common. -/
abbrev Config.disjoint (a m b n : Nat) : Prop := a + m ≤ b ∨ b + n ≤ a

/-- What 00_scope.md R9 asks of the parameters. -/
abbrev Config.Params.wf (p : Config.Params) : Prop :=
  14 ≤ p.pixMemBytes ∧ p.pixMemBytes ≤ 2 ^ 48 ∧ 14 ≤ p.outDepth ∧ 14 ≤ p.inDepth ∧
  p.encBase % 256 = 0 ∧ p.decBase % 256 = 0 ∧
  Config.disjoint p.encBase 256 p.decBase 256 ∧
  Config.disjoint p.encBase 256 p.pixeBase p.pixMemBytes ∧
  Config.disjoint p.encBase 256 p.pixdBase p.pixMemBytes ∧
  Config.disjoint p.decBase 256 p.pixeBase p.pixMemBytes ∧
  Config.disjoint p.decBase 256 p.pixdBase p.pixMemBytes ∧
  Config.disjoint p.pixeBase p.pixMemBytes p.pixdBase p.pixMemBytes

/-- The parameters of State.reset. DESIGN CHOICE (log 5): the spec leaves every one of them to the platform; the
statements are about every value of them. -/
def Config.Params.default : Config.Params where
  pixMemBytes := 2 ^ 48
  outDepth := 4096
  inDepth := 4096
  encBase := 0x0
  decBase := 0x100
  pixeBase := 2 ^ 48
  pixdBase := 2 ^ 49
  busOrder := .little

/-! ### Inputs -/

/-- The width of a host access. -/
inductive Machine.Width where
  | byte
  | half
  | word
  | dword
  deriving DecidableEq, Repr, Inhabited

/-- One act of the host or the platform, an input of the block (43_control.md R250; 70_reset_and_hazards.md R340). -/
inductive Machine.HostAct where
  /-- a bus read at a host address -/
  | read (addr : Nat) (width : Machine.Width)
  /-- a bus write at a host address; a narrower access uses the low bits of `value` -/
  | write (addr : Nat) (width : Machine.Width) (value : BitVec 64)
  /-- the platform's reset input -/
  | reset
  deriving DecidableEq, Repr, Inhabited

/-! ### Free values -/

/-- The n-th byte drawn for a read no rule gives a value (20_memory.md R73, 70_reset_and_hazards.md R341,
93_implementation_defined.md U5, U6). A free value: log 2. -/
opaque Config.freeByte : Nat → Byte

/-- The n-th choice among the agents that have an enabled step (43_control.md R251). A free value: log 3. -/
opaque Config.freeTurn : Nat → Nat

/-- The n-th act of a host whose acts no list fixes (43_control.md R251: it may act at any time; R268). A free value:
log 6. -/
opaque Config.freeAct : Nat → Machine.HostAct

/-- What the 32-bit ENC_OUT_LEVEL and DEC_IN_FREE show of a count of 2^32 or more: 00_scope.md R9 sets the FIFO depths no
upper bound, and 10_state.md R53 and R60 state no value there. DESIGN CHOICE, a free value: log 15. -/
opaque Config.wideCount : Nat → Word

end Sys2Proof
end

