-- ==== Sys2Proof/Machine/State.lean ====
section
/-!
DEFINITION. The state of the block: every piece of state spec/10_state.md and spec/20_memory.md give ENC, DEC and the
pixel memories (its rule beside each field), the host's pending accesses and replies, and the schedule. Fault and
Refusal: every reason a step can stop. State.reset: spec/70_reset_and_hazards.md R341.
-/

namespace Sys2Proof.Machine

/-- ENC.STATE and DEC.STATE (10_state.md R22, R31). -/
inductive Session where
  | idle
  | busy
  | done
  | error
  deriving DecidableEq, Repr

/-- The error names of 60_exceptions.md R300; codes 8..255 are never written, so they have no name. -/
inductive ErrCode where
  | none
  | invalidChannelCount
  | emptyImage
  | badMagic
  | truncatedStream
  | missingEndMarker
  | pixelCountMismatch
  | bufferTooSmall
  deriving DecidableEq, Repr

/-- ENC.phase (10_state.md R24). -/
inductive EncPhase where
  | hdr
  | pix
  | fin
  deriving DecidableEq, Repr

/-- DEC.phase (10_state.md R33). -/
inductive DecPhase where
  | hdr
  | body
  deriving DecidableEq, Repr

/-- The agents that take steps (43_control.md R250). -/
inductive Agent where
  | host
  | enc
  | dec
  deriving DecidableEq, Repr

/-- The 64 slots of a color_cache_lookup unit (40_format_and_cache.md R121). -/
abbrev Cache := Vector Pixel 64

/-- A pixel memory's written bytes, addresses strictly rising; a byte not listed reads as a draw (log 2). -/
abbrev Memory := List Host.Cell

/-- The encoder engine: its internal state (10_state.md R22 to R30) and its host-written registers (R47 to R49). -/
structure Enc where
  /-- ENC.STATE (R22) -/
  state : Session
  /-- ENC.ERR (R23) -/
  err : ErrCode
  /-- ENC.phase (R24) -/
  phase : EncPhase
  /-- ENC.prev (R25) -/
  prev : Pixel
  /-- ENC.cache (R26) -/
  cache : Cache
  /-- ENC.run (R27) -/
  run : BitVec 6
  /-- ENC.k (R28) -/
  k : Count
  /-- ENC.OUTCNT (R29) -/
  outCnt : Count
  /-- ENC.OUTQ (R30), oldest byte first -/
  outQ : List Byte
  /-- ENC_WIDTH (R47) -/
  width : Word
  /-- ENC_HEIGHT (R48) -/
  height : Word
  /-- ENC_FORMAT.CHANNELS (R49) -/
  channels : Byte
  /-- ENC_FORMAT.COLORSPACE (R49) -/
  colorspace : BitVec 1
  deriving DecidableEq, Repr

/-- The decoder engine (10_state.md R31 to R41). -/
structure Dec where
  /-- DEC.STATE (R31) -/
  state : Session
  /-- DEC.ERR (R32) -/
  err : ErrCode
  /-- DEC.phase (R33) -/
  phase : DecPhase
  /-- DEC.cur (R34) -/
  cur : Pixel
  /-- DEC.cache (R35) -/
  cache : Cache
  /-- DEC.pos (R36) -/
  pos : Count
  /-- DEC.k (R37) -/
  k : Count
  /-- DEC.W (R38) -/
  w : Word
  /-- DEC.H (R38) -/
  h : Word
  /-- DEC.CH (R38) -/
  ch : Byte
  /-- DEC.CS (R38) -/
  cs : Byte
  /-- DEC.in (R39): every byte pushed since START; DEC.avail is its length -/
  input : List Byte
  /-- DEC.IN_LAST (R40) -/
  inLast : Bool
  /-- DEC.IN_OVF (R41) -/
  inOvf : Bool
  deriving DecidableEq, Repr

/-- The machine. -/
structure State where
  /-- the parameters (00_scope.md R9); no step writes them (log 5) -/
  params : Config.Params
  /-- the encoder engine -/
  enc : Enc
  /-- the decoder engine -/
  dec : Dec
  /-- PIX_E (20_memory.md R61) -/
  pixE : Memory
  /-- PIX_D (20_memory.md R61) -/
  pixD : Memory
  /-- the acts the host will make, oldest first (log 6) -/
  hostQ : List HostAct
  /-- what the host's reads returned, zero-extended, oldest first (log 6) -/
  replies : List (BitVec 64)
  /-- whose turn it is, nearest first; beyond it the turn is a free value (log 3) -/
  sched : List Agent
  /-- how many free values have been drawn (log 2, log 3) -/
  draws : Nat
  deriving DecidableEq, Repr

/-- Why the machine stops with a fault. -/
inductive Fault where
  /-- Raised by an engine step whose pixel lies at or above PIX_MEM_BYTES (20_memory.md R62, 93 U16): unreachable from
  reset. Safe: the machine stops. -/
  | engineOutOfRange
  /-- Raised by a host access to an address outside the four regions (20_memory.md R61). Safe: the machine stops. -/
  | unmappedAddress
  deriving DecidableEq, Repr

/-- Why a step has no meaning. -/
inductive Refusal where
  /-- Raised by exec's arm of an instruction that has no meaning yet; no arm does. Safe. -/
  | notModelled (mnemonic : String)
  /-- Raised by a register access that is not 32-bit and 4-byte aligned (20_memory.md R67, 93 U13). Safe. -/
  | registerAccess
  deriving DecidableEq, Repr

/-- What a step or a meaning answers. -/
abbrev Result := Host.Outcome State Fault Refusal

/-- Every cache slot PX_ZERO (40_format_and_cache.md R122). -/
def Cache.init : Cache := Vector.replicate 64 Pixel.zero

/-- ENC after reset (70_reset_and_hazards.md R341). phase, prev, cache and run are unspecified there; the model gives
them the values START sets. DESIGN CHOICE (log 1). -/
def Enc.reset : Enc where
  state := .idle
  err := .none
  phase := .hdr
  prev := Pixel.seed
  cache := Cache.init
  run := 0
  k := 0
  outCnt := 0
  outQ := []
  width := 0
  height := 0
  channels := 0
  colorspace := 0

/-- DEC after reset (70_reset_and_hazards.md R341). phase, cur and cache are unspecified there; the model gives them
the values START sets. DESIGN CHOICE (log 1). -/
def Dec.reset : Dec where
  state := .idle
  err := .none
  phase := .hdr
  cur := Pixel.seed
  cache := Cache.init
  pos := 0
  k := 0
  w := 0
  h := 0
  ch := 0
  cs := 0
  input := []
  inLast := false
  inOvf := false

/-- The machine after reset on a platform with the given parameters. -/
def State.resetOf (p : Config.Params) : State where
  params := p
  enc := Enc.reset
  dec := Dec.reset
  pixE := []
  pixD := []
  hostQ := []
  replies := []
  sched := []
  draws := 0

/-- The machine right after reset (70_reset_and_hazards.md R340, R341), on the platform of log 5. -/
def State.reset : State := State.resetOf Config.Params.default

end Sys2Proof.Machine
end

