-- ==== Sys2Proof/Machine/Ops.lean ====
section
/-!
DEFINITION. The named operations the meanings are built from: the pixel memories (spec/20_memory.md R62, R69), the
color_cache_lookup unit (spec/40_format_and_cache.md R120 to R124), ENC's output stream (R64, R65), putPixel
(spec/41_decoder.md R150), and the entry into the ERROR state (spec/60_exceptions.md R301), one operation for each
engine. There is no return from an error (R303): the next START or ABORT (Machine/Control.lean) leaves the state.
-/

namespace Sys2Proof.Machine

/-! ### Outcomes -/

/-- Go on with `f` where `r` is a next state; a fault or a refusal ends the step. -/
def andThen (r : Result) (f : State → Result) : Result :=
  match r with
  | .next s => f s
  | .fault e => .fault e
  | .refused e => .refused e

/-- The next state of an outcome, if it is one. -/
def stateOf? (r : Result) : Option State :=
  match r with
  | .next s => some s
  | .fault _ => none
  | .refused _ => none

/-! ### Pixel memories -/

/-- The byte written at an address, if any. -/
def Memory.lookup : Memory → Nat → Option Byte
  | [], _ => none
  | (a, v) :: m, x => if x = a then some v else Memory.lookup m x

/-- Write one byte, keeping the addresses in rising order. -/
def Memory.write : Memory → Nat → Byte → Memory
  | [], x, v => [(x, v)]
  | (a, u) :: m, x, v =>
    if x < a then (x, v) :: (a, u) :: m
    else if x = a then (x, v) :: m
    else (a, u) :: Memory.write m x v

/-- `MemWrite` (20_memory.md R62): the bytes of a sequence at rising addresses. -/
def Memory.writeBytes : Memory → Nat → List Byte → Memory
  | m, _, [] => m
  | m, a, v :: vs => Memory.writeBytes (Memory.write m a v) (a + 1) vs

/-- The canonical form: addresses strictly rising. -/
abbrev Memory.wf (m : Memory) : Prop := m.Pairwise fun x y => x.1 < y.1

/-- The byte at an address; one that nothing has written is the d-th free byte (R341, 93 U5: log 2). -/
def Memory.byteAt (m : Memory) (d a : Nat) : Byte := (Memory.lookup m a).getD (Config.freeByte d)

/-- `MemRead` (20_memory.md R62): n bytes at rising addresses; the byte j places on draws the (d + j)-th free byte if
nothing has written it. -/
def Memory.bytesAt (m : Memory) (d a n : Nat) : List Byte :=
  (List.range n).map fun j => Memory.byteAt m (d + j) (a + j)

/-! ### Pixels and the color cache -/

/-- `word(p)` (00_scope.md R16). -/
def pixelWord (p : Pixel) : Word := p.r ++ p.g ++ p.b ++ p.a

/-- `hash(p)` (40_format_and_cache.md R120). -/
def pixelHash (p : Pixel) : BitVec 6 :=
  BitVec.ofNat 6 (p.r.toNat * 3 + p.g.toNat * 5 + p.b.toNat * 7 + p.a.toNat * 11)

/-- `read(i)` (R123). -/
def Cache.read (c : Cache) (i : BitVec 6) : Pixel := c.get ⟨i.toNat, i.isLt⟩

/-- The hit of `probe(p)` (R123): the slot p hashes to holds p. -/
def Cache.hit (c : Cache) (p : Pixel) : Bool := Cache.read c (pixelHash p) == p

/-- `insert(p)` (R124). -/
def Cache.insert (c : Cache) (p : Pixel) : Cache := c.set (pixelHash p).toNat p (pixelHash p).isLt

/-- The bytes of a pixel in an image of `ch` channels (10_state.md R21, 20_memory.md R69; 41_decoder.md R150). -/
def pixelBytes (ch : Byte) (p : Pixel) : List Byte :=
  if ch = 4 then [p.r, p.g, p.b, p.a] else [p.r, p.g, p.b]

/-- How many bytes a pixel takes in an image of `ch` channels (R69). -/
def pixelSize (ch : Byte) : Nat := if ch = 4 then 4 else 3

/-- The pixel of an image of `ch` channels whose bytes are given (10_state.md R21: alpha is 255 with 3 channels). -/
def pixelOfBytes (ch : Byte) (bs : List Byte) : Pixel :=
  ⟨bs.getD 0 0, bs.getD 1 0, bs.getD 2 0, if ch = 4 then bs.getD 3 0 else 255⟩

/-! ### Sizes -/

/-- N = width × height, exact (00_scope.md R18, 10_state.md R38). -/
def pixelCount (w h : Word) : Nat := w.toNat * h.toNat

/-- DEC.N (10_state.md R38). -/
def Dec.n (d : Dec) : Nat := pixelCount d.w d.h

/-- N of ENC's session (00_scope.md R18). -/
def Enc.n (e : Enc) : Nat := pixelCount e.width e.height

/-- DEC.avail (10_state.md R39). -/
def Dec.avail (d : Dec) : Nat := d.input.length

/-- The bytes of DEC's input FIFO, `in[pos .. avail)` (10_state.md R39). -/
def Dec.fifo (d : Dec) : List Byte := d.input.drop d.pos.toNat

/-- The first of the three size checks an image fails, in the order of 60_exceptions.md R304 and R305. -/
def imageError? (pixMemBytes : Nat) (w h : Word) (ch : Byte) : Option ErrCode :=
  if ch ≠ 3 ∧ ch ≠ 4 then some .invalidChannelCount
  else if pixelCount w h = 0 then some .emptyImage
  else if pixMemBytes < pixelCount w h * ch.toNat then some .bufferTooSmall
  else none

/-! ### The error entry (60_exceptions.md R301) -/

/-- `raise Error(c)` in ENC. -/
def State.raiseEnc (s : State) (c : ErrCode) : State :=
  { s with enc := { s.enc with state := .error, err := c } }

/-- `raise Error(c)` in DEC. -/
def State.raiseDec (s : State) (c : ErrCode) : State :=
  { s with dec := { s.dec with state := .error, err := c } }

/-! ### ENC's output stream -/

/-- `emit` (00_scope.md R15, 20_memory.md R65): append to OUTQ and count. -/
def State.emit (s : State) (bs : List Byte) : State :=
  { s with enc :=
    { s.enc with
      outQ := s.enc.outQ ++ bs
      outCnt := s.enc.outCnt + BitVec.ofNat 64 bs.length } }

/-! ### DEC's operations -/

/-- `DEC.pos <- DEC.pos + n`. -/
def State.advance (s : State) (n : Nat) : State :=
  { s with dec := { s.dec with pos := s.dec.pos + BitVec.ofNat 64 n } }

/-- `DEC.cur <- p`. -/
def State.setCur (s : State) (p : Pixel) : State := { s with dec := { s.dec with cur := p } }

/-- Where putPixel writes (41_decoder.md R150). -/
def Dec.pixelAddr (d : Dec) : Nat := d.k.toNat * pixelSize d.ch

/-- The three writes of putPixel: PIX_D, the cache, the scan position. -/
def State.storePixel (s : State) (p : Pixel) : State :=
  { s with
    pixD := Memory.writeBytes s.pixD s.dec.pixelAddr (pixelBytes s.dec.ch p)
    dec := { s.dec with cache := Cache.insert s.dec.cache p, k := s.dec.k + 1 } }

/-- `putPixel(p)` (41_decoder.md R150). A write at or above PIX_MEM_BYTES is a fault of the model (93 U16). -/
def putPixel (p : Pixel) (s : State) : Result :=
  if s.dec.pixelAddr + pixelSize s.dec.ch ≤ s.params.pixMemBytes then .next (s.storePixel p)
  else .fault .engineOutOfRange

/-- `repeat n times: putPixel(DEC.cur)` (41_decoder.md R159). -/
def putRun : Nat → State → Result
  | 0, s => .next s
  | n + 1, s => andThen (putPixel s.dec.cur s) (putRun n)

/-- What RGBA, RGB, INDEX, DIFF and LUMA do once their pixel is resolved (41_decoder.md R154 to R158):
`DEC.cur <- p; putPixel(DEC.cur); DEC.pos <- DEC.pos + n`. -/
def resolve (p : Pixel) (n : Nat) (s : State) : Result :=
  andThen (putPixel p (s.setCur p)) fun t => .next (t.advance n)

end Sys2Proof.Machine
end

