-- ==== Sys2Proof/Machine/Framing.lean ====
section
/-!
DEFINITION. The meanings of the two framing items for DEC: HEADER (spec/41_decoder.md R151) and END (R160).
-/

namespace Sys2Proof.Machine

/-- `DEC.W, DEC.H, DEC.CH, DEC.CS <- …`: written before the value checks (R151). -/
def State.setHeader (s : State) (w h : Word) (ch cs : Byte) : State :=
  { s with dec := { s.dec with w := w, h := h, ch := ch, cs := cs } }

/-- `DEC.pos <- 14; DEC.phase <- BODY` (R151). -/
def State.beginBody (s : State) : State :=
  { s with dec := { s.dec with pos := 14, phase := .body } }

/-- `DEC.pos <- DEC.pos + 8; DEC.STATE <- DONE` (R160). -/
def State.finishDec (s : State) : State :=
  { s with dec := { s.dec with pos := s.dec.pos + 8, state := .done } }

/-- HEADER (R151), once its magic and its 14 bytes are present. -/
def execHeader (w h : Word) (ch cs : Byte) (s : State) : Result :=
  match imageError? s.params.pixMemBytes w h ch with
  | some c => .next ((s.setHeader w h ch cs).raiseDec c)
  | none => .next (s.setHeader w h ch cs).beginBody

/-- END (R160). -/
def execEndMark (s : State) : Result :=
  if s.dec.k.toNat = s.dec.n then .next s.finishDec else .next (s.raiseDec .pixelCountMismatch)

end Sys2Proof.Machine
end

