-- ==== Sys2Proof/Machine/Operands.lean ====
section
/-!
DEFINITION. How an item's operands and the predictor give a pixel (spec/41_decoder.md R154 to R158), and how two pixels
give the operands (spec/42_encoder.md R201 to R208): the wrapped deltas of spec/00_scope.md R13 and their range tests R14.
-/

namespace Sys2Proof.Machine

/-- `s8(v)` (00_scope.md R12): the two's-complement reading. -/
def s8 (v : Byte) : Int := if v.toNat < 128 then v.toNat else (v.toNat : Int) - 256

/-- `c +₈ d` for a signed delta d (00_scope.md R13). -/
def addDelta (c : Byte) (d : Int) : Byte := c + BitVec.ofInt 8 d

/-- The pixel of RGBA (41_decoder.md R154). -/
def pixelRgba (r g b a : Byte) : Pixel := ⟨r, g, b, a⟩

/-- The pixel of RGB: alpha is carried over (R155). -/
def pixelRgb (cur : Pixel) (r g b : Byte) : Pixel := ⟨r, g, b, cur.a⟩

/-- The pixel of DIFF: the three deltas added, alpha unchanged (R157). -/
def pixelDiff (cur : Pixel) (dr dg db : Int) : Pixel :=
  ⟨addDelta cur.r dr, addDelta cur.g dg, addDelta cur.b db, cur.a⟩

/-- The pixel of LUMA: `dr = dr_dg + dg`, `db = db_dg + dg` (R158). -/
def pixelLuma (cur : Pixel) (dg drDg dbDg : Int) : Pixel :=
  pixelDiff cur (drDg + dg) dg (dbDg + dg)

/-- The wrapped deltas of p against prev, each read by `s8` (42_encoder.md R201, 00_scope.md R14). -/
def deltaR (p prev : Pixel) : Int := s8 (p.r - prev.r)

/-- As `deltaR`, green. -/
def deltaG (p prev : Pixel) : Int := s8 (p.g - prev.g)

/-- As `deltaR`, blue. -/
def deltaB (p prev : Pixel) : Int := s8 (p.b - prev.b)

/-- The DIFF item of p against prev (42_encoder.md R205). -/
def diffOf (p prev : Pixel) : Instr := .diff (deltaR p prev) (deltaG p prev) (deltaB p prev)

/-- The LUMA item of p against prev (R206). -/
def lumaOf (p prev : Pixel) : Instr :=
  .luma (deltaG p prev) (deltaR p prev - deltaG p prev) (deltaB p prev - deltaG p prev)

/-- The condition of DIFF (R205). -/
def fitsDiff (p prev : Pixel) : Bool := decide (p.a = prev.a) && (diffOf p prev).wf

/-- The condition of LUMA (R206). -/
def fitsLuma (p prev : Pixel) : Bool := decide (p.a = prev.a) && (lumaOf p prev).wf

end Sys2Proof.Machine
end

