-- ==== Sys2Proof/Machine/Pixels.lean ====
section
/-!
DEFINITION. The meanings of the six opcodes for DEC (spec/41_decoder.md R154 to R159).
-/

namespace Sys2Proof.Machine

/-- RGBA (R154). -/
def execRgba (r g b a : Byte) (s : State) : Result := resolve (pixelRgba r g b a) 5 s

/-- RGB (R155). -/
def execRgb (r g b : Byte) (s : State) : Result := resolve (pixelRgb s.dec.cur r g b) 4 s

/-- INDEX (R156): the slot is read before the insert of the same step. -/
def execIndex (i : BitVec 6) (s : State) : Result := resolve (Cache.read s.dec.cache i) 1 s

/-- DIFF (R157). -/
def execDiff (dr dg db : Int) (s : State) : Result := resolve (pixelDiff s.dec.cur dr dg db) 1 s

/-- LUMA (R158). -/
def execLuma (dg drDg dbDg : Int) (s : State) : Result := resolve (pixelLuma s.dec.cur dg drDg dbDg) 2 s

/-- RUN (R159): one atomic step; a run past N writes no pixel. -/
def execRun (len : Nat) (s : State) : Result :=
  if s.dec.n < s.dec.k.toNat + len then .next (s.raiseDec .pixelCountMismatch)
  else andThen (putRun len s) fun t => .next (t.advance 1)

end Sys2Proof.Machine
end

