-- ==== Sys2Proof/Machine/Dispatch.lean ====
section
/-!
DEFINITION. The dispatch of spec/30_encoding.md R93 and spec/41_decoder.md R153: one arm per item of the stream.
-/

namespace Sys2Proof.Machine

def exec (i : Instr) (s : State) : Host.Outcome State Fault Refusal :=
  match i with
  | .rgba r g b a => Sys2Proof.Machine.execRgba r g b a s
  | .rgb r g b => Sys2Proof.Machine.execRgb r g b s
  | .index j => Sys2Proof.Machine.execIndex j s
  | .diff dr dg db => Sys2Proof.Machine.execDiff dr dg db s
  | .luma dg drDg dbDg => Sys2Proof.Machine.execLuma dg drDg dbDg s
  | .run len => Sys2Proof.Machine.execRun len s
  | .endMark => Sys2Proof.Machine.execEndMark s
  | .header w h ch cs => Sys2Proof.Machine.execHeader w h ch cs s

end Sys2Proof.Machine
end

