-- ==== Sys2Proof/Machine/Encoder.lean ====
section
/-!
DEFINITION. The encoder engine (spec/42_encoder.md R200 to R210): its three steps, the room rule (spec/20_memory.md
R65) and the greedy selection. The bytes of an item are those of the one encoder of Sys2Proof/Decode.lean (R96).
-/

namespace Sys2Proof.Machine

/-- The room a step needs (20_memory.md R65). -/
def encRoom : EncPhase → Nat
  | .hdr => 14
  | .pix => 6
  | .fin => 9

/-- ENC has an enabled step (43_control.md R250, 20_memory.md R65). -/
def encEnabled (p : Config.Params) (e : Enc) : Bool :=
  decide (e.state = .busy ∧ encRoom e.phase ≤ p.outDepth - e.outQ.length)

/-- The first of INDEX, DIFF, LUMA, RGB, RGBA whose condition holds (42_encoder.md R204 to R208). -/
def selectItem (c : Cache) (p prev : Pixel) : Instr :=
  if Cache.hit c p then .index (pixelHash p)
  else if fitsDiff p prev then diffOf p prev
  else if fitsLuma p prev then lumaOf p prev
  else if p.a = prev.a then .rgb p.r p.g p.b
  else .rgba p.r p.g p.b p.a

/-- `ENC.run <- n`. -/
def State.setRun (s : State) (n : BitVec 6) : State := { s with enc := { s.enc with run := n } }

/-- RUN accumulation (R202): a run that reaches 62 is emitted at once. -/
def encRunStep (s : State) : State :=
  if s.enc.run + 1 = 62 then (s.emit (encode (.run 62))).setRun 0 else s.setRun (s.enc.run + 1)

/-- RUN flush (R203, R210). -/
def encFlush (s : State) : State :=
  if 0 < s.enc.run.toNat then (s.emit (encode (.run s.enc.run.toNat))).setRun 0 else s

/-- Update after an opcode (R209). -/
def State.encUpdate (s : State) (p : Pixel) : State :=
  { s with enc := { s.enc with cache := Cache.insert s.enc.cache p, prev := p } }

/-- A pixel that differs from the predictor: flush, select, emit, update (R203 to R209). -/
def encCodeStep (p : Pixel) (s : State) : State :=
  ((encFlush s).emit (encode (selectItem s.enc.cache p s.enc.prev))).encUpdate p

/-- `ENC.k <- ENC.k + 1; if ENC.k = N: ENC.phase <- FIN` (R201). -/
def State.encNext (s : State) : State :=
  { s with enc :=
    { s.enc with
      k := s.enc.k + 1
      phase := if (s.enc.k + 1).toNat = s.enc.n then .fin else s.enc.phase } }

/-- The pixel step once its pixel is read (R201). -/
def encPixel (p : Pixel) (s : State) : State :=
  (if p = s.enc.prev then encRunStep s else encCodeStep p s).encNext

/-- Where the pixel step reads (R201, 20_memory.md R69). -/
def Enc.pixelAddr (e : Enc) : Nat := e.k.toNat * e.channels.toNat

/-- The pixel the pixel step reads (R201); bytes that nothing has written are draws (log 2). -/
def State.readPixel (s : State) : Pixel :=
  pixelOfBytes s.enc.channels
    (Memory.bytesAt s.pixE s.draws s.enc.pixelAddr (pixelSize s.enc.channels))

/-- The draws the read of a pixel uses up. -/
def State.drawPixel (s : State) : State := { s with draws := s.draws + pixelSize s.enc.channels }

/-- HEADER step (R200). -/
def encHeaderStep (s : State) : Result :=
  let t := s.emit (encode (.header s.enc.width s.enc.height s.enc.channels (s.enc.colorspace.setWidth 8)))
  .next { t with enc := { t.enc with phase := .pix } }

/-- PIXEL step (R201). A read at or above PIX_MEM_BYTES is a fault of the model (93 U16). -/
def encPixelStep (s : State) : Result :=
  if s.enc.pixelAddr + pixelSize s.enc.channels ≤ s.params.pixMemBytes then
    .next (encPixel s.readPixel s.drawPixel)
  else .fault .engineOutOfRange

/-- FINAL step (R210). -/
def encFinalStep (s : State) : Result :=
  let t := (encFlush s).emit (encode .endMark)
  .next { t with enc := { t.enc with state := .done } }

/-- ENC's turn (43_control.md R250): one step if one is enabled, nothing while it holds. -/
def encTurn (s : State) : Result :=
  if encEnabled s.params s.enc then
    match s.enc.phase with
    | .hdr => encHeaderStep s
    | .pix => encPixelStep s
    | .fin => encFinalStep s
  else .next s

end Sys2Proof.Machine
end

