-- ==== Sys2Proof/Machine/Fetch.lean ====
section
/-!
DEFINITION. How DEC takes its next step: the need rule (spec/20_memory.md R66; spec/41_decoder.md R152, R153), the
order of the tests of R151 and R153, and where a table row's bits are placed to be DEC's next item.
-/

namespace Sys2Proof.Machine

/-- What DEC's next step does with the bytes present. -/
inductive DecAct where
  /-- raise an error of 60_exceptions.md R300 -/
  | fail (c : ErrCode)
  /-- run an item -/
  | run (i : Instr)
  deriving DecidableEq, Repr

/-- The bytes DEC's next step needs (R152, R153). -/
def decNeed (d : Dec) : Nat :=
  match d.phase with
  | .hdr => headerLen
  | .body =>
    if d.k.toNat = d.n then 8
    else
      match d.fifo with
      | [] => 1
      | t :: _ => if t = 0x00 then 8 else oplen t

/-- DEC has an enabled step (43_control.md R250, 20_memory.md R66). -/
def decEnabled (d : Dec) : Bool :=
  decide (d.state = .busy ∧ (decNeed d ≤ d.avail - d.pos.toNat ∨ d.inLast = true))

/-- The header step's first two checks (R151): the magic, then the length. -/
def headerAct (d : Dec) : DecAct :=
  match decodeHeader d.input with
  | .ok (i, _) => .run i
  | .error .badMagic => .fail .badMagic
  | .error .truncated => .fail .truncatedStream
  | .error .empty => .fail .badMagic

/-- The body step's tests in the order of R153. -/
def bodyAct (d : Dec) : DecAct :=
  if isMarker d.fifo then .run .endMark
  else if d.k.toNat = d.n then
    if d.fifo.length < 8 then .fail .missingEndMarker else .fail .pixelCountMismatch
  else
    match decodeOp d.fifo with
    | .ok (i, _) => .run i
    | .error .empty => .fail .missingEndMarker
    | .error .truncated => .fail .truncatedStream
    | .error .badMagic => .fail .truncatedStream

/-- What DEC's next step does (R151, R153). -/
def decAct (d : Dec) : DecAct :=
  match d.phase with
  | .hdr => headerAct d
  | .body => bodyAct d

/-- DEC BUSY at stream byte 0 with the given bytes pushed. -/
def Dec.atHeader (d : Dec) (bs : List Byte) : Dec :=
  { d with
    state := .busy
    phase := .hdr
    pos := 0
    input := bs }

/-- The header of the session in which a row of the body is placed: 64 × 1 pixels of 4 channels. -/
def placeHeader : List Byte := hdr 64 1 4 0

/-- DEC BUSY at stream byte 14 of a session of 64 × 1 pixels, no pixel out, with the given bytes pushed after the
header. -/
def Dec.atBody (d : Dec) (bs : List Byte) : Dec :=
  { d with
    state := .busy
    phase := .body
    pos := 14
    k := 0
    w := 64
    h := 1
    ch := 4
    cs := 0
    input := placeHeader ++ bs }

/-- The state in which a table row's bits are DEC's next item and DEC has the next turn. -/
def placeWord (s : State) (nbits w : Nat) : State :=
  { s with
    dec := if isHeaderRow nbits w then s.dec.atHeader (tableBytes nbits w) else s.dec.atBody (tableBytes nbits w)
    sched := .dec :: s.sched }

end Sys2Proof.Machine
end

