-- ==== Sys2Proof/Machine/Flags.lean ====
section
/-!
DEFINITION. The status bits (spec/10_state.md R43) and the values the read-only registers show (R46 to R60).
-/

namespace Sys2Proof.Machine

/-- The 2-bit code of STATE (10_state.md R22, R31). -/
def Session.code : Session → BitVec 2
  | .idle => 0
  | .busy => 1
  | .done => 2
  | .error => 3

/-- The error codes of 60_exceptions.md R300. -/
def ErrCode.code : ErrCode → Byte
  | .none => 0
  | .invalidChannelCount => 1
  | .emptyImage => 2
  | .badMagic => 3
  | .truncatedStream => 4
  | .missingEndMarker => 5
  | .pixelCountMismatch => 6
  | .bufferTooSmall => 7

/-- ENC_STATUS (10_state.md R46): STATE in 1:0, ERR in 15:8. -/
def encStatus (e : Enc) : Word := 0#16 ++ e.err.code ++ 0#6 ++ e.state.code

/-- HDR_VALID (R33, R55): phase BODY and STATE ≠ IDLE. -/
def hdrValid (d : Dec) : Bool := decide (d.phase = .body ∧ d.state ≠ .idle)

/-- DEC_STATUS (R55): STATE in 1:0, ERR in 15:8, IN_OVF 16, IN_LAST 17, HDR_VALID 18. -/
def decStatus (d : Dec) : Word :=
  0#13 ++ BitVec.ofBool (hdrValid d) ++ BitVec.ofBool d.inLast ++ BitVec.ofBool d.inOvf ++
    d.err.code ++ 0#6 ++ d.state.code

/-- ENC_FORMAT (R49): CHANNELS in 7:0, COLORSPACE in 8. -/
def encFormat (e : Enc) : Word := 0#23 ++ e.colorspace ++ e.channels

/-- DEC_FORMAT (R56): CH in 7:0, CS in 15:8. -/
def decFormat (d : Dec) : Word := 0#16 ++ d.cs ++ d.ch

/-- Bits 31:0 of a counter (R50, R51, R57, R58). -/
def loHalf (c : Count) : Word := c.extractLsb' 0 32

/-- Bits 63:32 of a counter. -/
def hiHalf (c : Count) : Word := c.extractLsb' 32 32

/-- ENC_OUT_DATA (R52): VALID in bit 8 and the oldest byte in 7:0, or 0 when OUTQ is empty. -/
def outData (e : Enc) : Word :=
  match e.outQ with
  | [] => 0
  | v :: _ => 0#23 ++ 1#1 ++ v

/-- A count as a 32-bit register shows it. The spec states no value for a count of 2^32 or more, which a FIFO depth that
00_scope.md R9 allows can reach: there it is a free value of the model. DESIGN CHOICE (log 15). -/
def countWord (n : Nat) : Word := if n < 2 ^ 32 then BitVec.ofNat 32 n else Config.wideCount n

/-- ENC_OUT_LEVEL (R53; 43_control.md R258). With 2^32 or more bytes in OUTQ it reads a free value, the model's choice
(log 15). -/
def outLevel (e : Enc) : Word := countWord e.outQ.length

/-- How many bytes DEC's input FIFO holds (R39). -/
def occupancy (d : Dec) : Nat := d.avail - d.pos.toNat

/-- DEC_IN_FREE (R60; 43_control.md R263). With 2^32 or more bytes free it reads a free value, the model's choice
(log 15). -/
def inFree (p : Config.Params) (d : Dec) : Word :=
  if d.state = .busy ∧ d.inLast = false then countWord (p.inDepth - occupancy d) else 0

end Sys2Proof.Machine
end

