-- ==== Sys2Proof/Machine/Control.lean ====
section
/-!
DEFINITION. The commands (spec/43_control.md R252 to R256, R262, R263) and the two register blocks (spec/10_state.md
sections 5 and 6, spec/20_memory.md R67, R68).
-/

namespace Sys2Proof.Machine

/-! ### ENC commands -/

/-- What ENC START initialises (43_control.md R253). -/
def Enc.init (e : Enc) : Enc :=
  { e with
    err := .none
    outQ := []
    outCnt := 0
    k := 0
    run := 0
    prev := Pixel.seed
    cache := Cache.init
    phase := .hdr }

/-- ENC START (R252, R253): ignored while BUSY; otherwise initialise, then check. -/
def encStart (s : State) : State :=
  if s.enc.state = .busy then s
  else
    match imageError? s.params.pixMemBytes s.enc.width s.enc.height s.enc.channels with
    | some c => { s with enc := s.enc.init }.raiseEnc c
    | none => { s with enc := { s.enc.init with state := .busy } }

/-- ENC ABORT (R255). -/
def encAbort (s : State) : State :=
  { s with enc := { s.enc with state := .idle, err := .none, outQ := [] } }

/-- A write of ENC_CTRL (10_state.md R45, 43_control.md R256). -/
def encCommand (v : Word) (s : State) : State :=
  if v.getLsbD 1 then encAbort s else if v.getLsbD 0 then encStart s else s

/-! ### DEC commands -/

/-- What DEC START initialises (43_control.md R254). -/
def Dec.init (d : Dec) : Dec :=
  { d with
    err := .none
    input := []
    pos := 0
    k := 0
    w := 0
    h := 0
    ch := 0
    cs := 0
    cur := Pixel.seed
    cache := Cache.init
    inLast := false
    inOvf := false
    phase := .hdr
    state := .busy }

/-- DEC START (R252, R254): ignored while BUSY. -/
def decStart (s : State) : State :=
  if s.dec.state = .busy then s else { s with dec := s.dec.init }

/-- DEC ABORT (R255). -/
def decAbort (s : State) : State :=
  { s with dec := { s.dec with state := .idle, err := .none, input := [], pos := 0, inLast := false } }

/-- IN_LAST (R262): ignored unless BUSY. -/
def decInLast (s : State) : State :=
  if s.dec.state = .busy then { s with dec := { s.dec with inLast := true } } else s

/-- A write of DEC_CTRL (10_state.md R54, 43_control.md R256). -/
def decCommand (v : Word) (s : State) : State :=
  if v.getLsbD 1 then decAbort s
  else
    let t := if v.getLsbD 0 then decStart s else s
    if v.getLsbD 2 then decInLast t else t

/-- A write of DEC_IN_DATA takes the byte (R263). -/
def decAccepts (p : Config.Params) (d : Dec) : Bool :=
  decide (d.state = .busy ∧ d.inLast = false ∧ occupancy d < p.inDepth)

/-- A write of DEC_IN_DATA (R263): push the byte, or discard it and set IN_OVF. -/
def decPush (v : Byte) (s : State) : State :=
  if decAccepts s.params s.dec then { s with dec := { s.dec with input := s.dec.input ++ [v] } }
  else { s with dec := { s.dec with inOvf := true } }

/-! ### ENC's register block -/

/-- The registers of 10_state.md section 5. -/
inductive EncReg where
  | ctrl
  | status
  | width
  | height
  | format
  | pixposLo
  | pixposHi
  | outcntLo
  | outcntHi
  | outData
  | outLevel
  | reserved
  deriving DecidableEq, Repr

/-- The register at an offset (10_state.md section 5). -/
def encRegAt : Nat → EncReg
  | 0x00 => .ctrl
  | 0x04 => .status
  | 0x08 => .width
  | 0x0C => .height
  | 0x10 => .format
  | 0x14 => .pixposLo
  | 0x18 => .pixposHi
  | 0x1C => .outcntLo
  | 0x20 => .outcntHi
  | 0x24 => .outData
  | 0x28 => .outLevel
  | _ => .reserved

/-- The value a read returns (10_state.md R45 to R53). -/
def encRegValue (e : Enc) : EncReg → Word
  | .ctrl => 0
  | .status => encStatus e
  | .width => e.width
  | .height => e.height
  | .format => encFormat e
  | .pixposLo => loHalf e.k
  | .pixposHi => hiHalf e.k
  | .outcntLo => loHalf e.outCnt
  | .outcntHi => hiHalf e.outCnt
  | .outData => outData e
  | .outLevel => outLevel e
  | .reserved => 0

/-- What a read changes (20_memory.md R68): ENC_OUT_DATA pops the oldest byte (10_state.md R52), nothing else. -/
def encAfterRead (r : EncReg) (e : Enc) : Enc :=
  match r with
  | .outData => { e with outQ := e.outQ.tail }
  | .ctrl | .status | .width | .height | .format | .pixposLo | .pixposHi | .outcntLo | .outcntHi | .outLevel
  | .reserved => e

/-- A configuration write (R47 to R49): ignored while BUSY. -/
def encConfigure (f : Enc → Enc) (s : State) : State :=
  if s.enc.state = .busy then s else { s with enc := f s.enc }

/-- A register write (R45 to R53). -/
def encRegWrite (r : EncReg) (v : Word) (s : State) : State :=
  match r with
  | .ctrl => encCommand v s
  | .width => encConfigure (fun e => { e with width := v }) s
  | .height => encConfigure (fun e => { e with height := v }) s
  | .format =>
    encConfigure (fun e => { e with channels := v.extractLsb' 0 8, colorspace := v.extractLsb' 8 1 }) s
  | .status | .pixposLo | .pixposHi | .outcntLo | .outcntHi | .outData | .outLevel | .reserved => s

/-! ### DEC's register block -/

/-- The registers of 10_state.md section 6. -/
inductive DecReg where
  | ctrl
  | status
  | width
  | height
  | format
  | pixcntLo
  | pixcntHi
  | incntLo
  | incntHi
  | inData
  | inFree
  | reserved
  deriving DecidableEq, Repr

/-- The register at an offset (10_state.md section 6). -/
def decRegAt : Nat → DecReg
  | 0x00 => .ctrl
  | 0x04 => .status
  | 0x08 => .width
  | 0x0C => .height
  | 0x10 => .format
  | 0x14 => .pixcntLo
  | 0x18 => .pixcntHi
  | 0x1C => .incntLo
  | 0x20 => .incntHi
  | 0x24 => .inData
  | 0x28 => .inFree
  | _ => .reserved

/-- The value a read returns (10_state.md R54 to R60); no read of this block has a side effect (20_memory.md R68). -/
def decRegValue (p : Config.Params) (d : Dec) : DecReg → Word
  | .ctrl => 0
  | .status => decStatus d
  | .width => d.w
  | .height => d.h
  | .format => decFormat d
  | .pixcntLo => loHalf d.k
  | .pixcntHi => hiHalf d.k
  | .incntLo => loHalf d.pos
  | .incntHi => hiHalf d.pos
  | .inData => 0
  | .inFree => inFree p d
  | .reserved => 0

/-- A register write (R54 to R60). -/
def decRegWrite (r : DecReg) (v : Word) (s : State) : State :=
  match r with
  | .ctrl => decCommand v s
  | .inData => decPush (v.extractLsb' 0 8) s
  | .status | .width | .height | .format | .pixcntLo | .pixcntHi | .incntLo | .incntHi | .inFree | .reserved => s

end Sys2Proof.Machine
end

