-- ==== Sys2Proof/Machine/HostAccess.lean ====
section
/-!
DEFINITION. The HOST agent: the address map (spec/20_memory.md R61, R74), one bus access (R67, R72, R73, R75), and the
platform's reset input (spec/70_reset_and_hazards.md R340).
-/

namespace Sys2Proof.Machine

/-- The four addressable spaces (20_memory.md R61), each with an offset in it. -/
inductive Region where
  | regE (off : Nat)
  | regD (off : Nat)
  | pixE (addr : Nat)
  | pixD (addr : Nat)
  deriving DecidableEq, Repr

/-- An address lies in the range of a base and a size. -/
abbrev within (base size a : Nat) : Prop := base ≤ a ∧ a < base + size

/-- The region a host address lies in, if any (R61, R74). -/
def regionOf (p : Config.Params) (a : Nat) : Option Region :=
  if within p.encBase Config.regBlockBytes a then some (.regE (a - p.encBase))
  else if within p.decBase Config.regBlockBytes a then some (.regD (a - p.decBase))
  else if within p.pixeBase p.pixMemBytes a then some (.pixE (a - p.pixeBase))
  else if within p.pixdBase p.pixMemBytes a then some (.pixD (a - p.pixdBase))
  else none

/-- The number of bytes of an access. -/
def Width.bytes : Width → Nat
  | .byte => 1
  | .half => 2
  | .word => 4
  | .dword => 8

/-- A register access the hardware supports: 32-bit, at a multiple of 4 (R67). -/
def registerAccess (w : Width) (off : Nat) : Bool := decide (w = .word ∧ off % 4 = 0)

/-- The first n bytes of a bus value in address order (R72, the parameter HOST_BUS_BYTE_ORDER: log 7). -/
def busBytes (o : ByteOrder) (n : Nat) (v : BitVec 64) : List Byte :=
  let lsbFirst := (List.range n).map fun j => v.extractLsb' (8 * j) 8
  match o with
  | .little => lsbFirst
  | .big => lsbFirst.reverse

/-- A little-endian sequence of bytes as a bus value. -/
def valueOf : List Byte → BitVec 64
  | [] => 0
  | b :: bs => b.setWidth 64 ||| valueOf bs <<< 8

/-- The bus value of bytes in address order (R72: log 7). -/
def busValue (o : ByteOrder) (bs : List Byte) : BitVec 64 :=
  match o with
  | .little => valueOf bs
  | .big => valueOf bs.reverse

/-- A byte of PIX_D as the host reads it: below DEC.k·CH the final pixel byte, at or above it a draw (20_memory.md
R73: log 4). -/
def State.pixDByte (s : State) (d a : Nat) : Byte :=
  if a < s.dec.k.toNat * s.dec.ch.toNat then Memory.byteAt s.pixD d a else Config.freeByte d

/-- n bytes of PIX_D as the host reads them. -/
def State.pixDBytes (s : State) (a n : Nat) : List Byte :=
  (List.range n).map fun j => s.pixDByte (s.draws + j) (a + j)

/-- Hand a value to the host. -/
def State.reply (s : State) (v : BitVec 64) : State := { s with replies := s.replies ++ [v] }

/-- Use up n draws. -/
def State.spend (s : State) (n : Nat) : State := { s with draws := s.draws + n }

/-- A host read (R250, R61, R67, R68, R72, R73). -/
def hostRead (a : Nat) (w : Width) (s : State) : Result :=
  match regionOf s.params a with
  | some (.regE off) =>
    if registerAccess w off then
      .next { s.reply ((encRegValue s.enc (encRegAt off)).setWidth 64) with
        enc := encAfterRead (encRegAt off) s.enc }
    else .refused .registerAccess
  | some (.regD off) =>
    if registerAccess w off then .next (s.reply ((decRegValue s.params s.dec (decRegAt off)).setWidth 64))
    else .refused .registerAccess
  | some (.pixE x) =>
    if x + w.bytes ≤ s.params.pixMemBytes then
      .next ((s.reply (busValue s.params.busOrder (Memory.bytesAt s.pixE s.draws x w.bytes))).spend w.bytes)
    else .fault .unmappedAddress
  | some (.pixD x) =>
    if x + w.bytes ≤ s.params.pixMemBytes then
      .next ((s.reply (busValue s.params.busOrder (s.pixDBytes x w.bytes))).spend w.bytes)
    else .fault .unmappedAddress
  | none => .fault .unmappedAddress

/-- A host write (R250, R61, R67, R68, R72). -/
def hostWrite (a : Nat) (w : Width) (v : BitVec 64) (s : State) : Result :=
  match regionOf s.params a with
  | some (.regE off) =>
    if registerAccess w off then .next (encRegWrite (encRegAt off) (v.setWidth 32) s)
    else .refused .registerAccess
  | some (.regD off) =>
    if registerAccess w off then .next (decRegWrite (decRegAt off) (v.setWidth 32) s)
    else .refused .registerAccess
  | some (.pixE x) =>
    if x + w.bytes ≤ s.params.pixMemBytes then
      .next { s with pixE := Memory.writeBytes s.pixE x (busBytes s.params.busOrder w.bytes v) }
    else .fault .unmappedAddress
  | some (.pixD x) =>
    if x + w.bytes ≤ s.params.pixMemBytes then
      .next { s with pixD := Memory.writeBytes s.pixD x (busBytes s.params.busOrder w.bytes v) }
    else .fault .unmappedAddress
  | none => .fault .unmappedAddress

/-- The reset input (70_reset_and_hazards.md R340): every piece of the block's state to its reset value; the host's
own queue, its replies and the schedule are no state of the block. -/
def hardReset (s : State) : State :=
  { s with enc := Enc.reset, dec := Dec.reset, pixE := [], pixD := [] }

/-- One act of the host or the platform. -/
def hostAct (a : HostAct) (s : State) : Result :=
  match a with
  | .read addr w => hostRead addr w s
  | .write addr w v => hostWrite addr w v s
  | .reset => .next (hardReset s)

/-- What the host does next: the oldest act waiting, and a free act where none waits (43_control.md R251: HOST always
has steps; log 6). -/
def State.nextAct (s : State) : HostAct :=
  match s.hostQ with
  | [] => Config.freeAct s.draws
  | a :: _ => a

/-- The state with that act taken from the list, or drawn. -/
def State.takeAct (s : State) : State :=
  { s with
    hostQ := s.hostQ.tail
    draws := s.draws + (if s.hostQ.isEmpty then 1 else 0) }

/-- HOST's turn. -/
def hostTurn (s : State) : Result := hostAct s.nextAct s.takeAct

end Sys2Proof.Machine
end

