-- ==== Sys2Proof/Machine/Schedule.lean ====
section
/-!
DEFINITION. Which agent moves next (spec/43_control.md R251: any agent that has an enabled step may take it). The
choices already made stand in State.sched; beyond them a choice among two or more enabled agents is a free value (log 3).
-/

namespace Sys2Proof.Machine

/-- An agent has an enabled step (R250); HOST always has one (R251). -/
def State.enabled (s : State) : Agent → Bool
  | .host => true
  | .enc => encEnabled s.params s.enc
  | .dec => decEnabled s.dec

/-- The agents that may move. -/
def State.enabledAgents (s : State) : List Agent := [Agent.host, .enc, .dec].filter s.enabled

/-- The turn is a free value: none is fixed and at least two agents may move. -/
def State.choiceFree (s : State) : Bool := s.sched.isEmpty && decide (1 < s.enabledAgents.length)

/-- The agent whose turn it is. HOST is always among the agents that may move, so the default is never taken. -/
def State.turn (s : State) : Agent :=
  match s.sched with
  | a :: _ => a
  | [] => s.enabledAgents.getD (Config.freeTurn s.draws % s.enabledAgents.length) .host

/-- The state with the turn taken from the schedule, or drawn. -/
def State.beginTurn (s : State) : State :=
  { s with
    sched := s.sched.tail
    draws := s.draws + (if s.choiceFree then 1 else 0) }

end Sys2Proof.Machine
end

