-- ==== Sys2Proof/Machine/Step.lean ====
section
/-!
DEFINITION. One step of the machine: one atomic step of one agent (spec/43_control.md R250, R251; spec/20_memory.md
R76). An agent whose turn it is and that holds takes no step, and nothing but the schedule changes.
-/

namespace Sys2Proof.Machine

/-- DEC's turn (41_decoder.md R151, R153): run the item at DEC.pos, or raise the error its bytes imply; nothing while
DEC holds. -/
def decTurn (s : State) : Result :=
  if decEnabled s.dec then
    match decAct s.dec with
    | .fail c => .next (s.raiseDec c)
    | .run i => exec i s
  else .next s

/-- One agent's turn. -/
def agentTurn (a : Agent) (s : State) : Result :=
  match a with
  | .host => hostTurn s
  | .enc => encTurn s
  | .dec => decTurn s

/-- One step. -/
def step (s : State) : Host.Outcome State Fault Refusal :=
  agentTurn s.turn s.beginTurn

/-- `s` with a table row's bits placed as DEC's next item and DEC next to move (log 8). -/
def State.withFetchWord (s : State) (nbits w : Nat) : State := placeWord s nbits w

end Sys2Proof.Machine
end

