-- ==== Sys2Proof/Machine/Session.lean ====
section
/-!
DEFINITION. Whole sessions, as the spec's functions of them: `decode(S)` (spec/41_decoder.md R161), `encode(P, …)`
(spec/42_encoder.md R211). They iterate the engines' own turns; nothing here adds a behaviour to the machine.
-/

namespace Sys2Proof.Machine

/-! ### decode(S) -/

/-- `n` turns of DEC, stopping at a fault or a refusal. -/
def decTurns : Nat → State → Result
  | 0, s => .next s
  | n + 1, s => andThen (decTurn s) (decTurns n)

/-- DEC after START, with every byte of S pushed and IN_LAST set (R161). -/
def decSession (bs : List Byte) (s : State) : State :=
  { s with dec := { s.dec.init with input := bs, inLast := true } }

/-- `decode(S)` (R161): at most avail + 1 steps (43_control.md R269). -/
def decodeStream (bs : List Byte) (s : State) : Result := decTurns (bs.length + 1) (decSession bs s)

/-! ### encode(P, W, H, CH, CS) -/

/-- What a host that keeps reading has in hand: every byte it has popped from ENC.OUTQ, oldest first. -/
abbrev Drained := List Byte × State

/-- The host pops ENC.OUTQ until it is empty (10_state.md R52). -/
def drain (x : Drained) : Drained :=
  (x.1 ++ x.2.enc.outQ, { x.2 with enc := { x.2.enc with outQ := [] } })

/-- One turn of ENC, after which the host drains OUTQ. -/
def encDrainTurn (x : Drained) : Option Drained :=
  match encTurn x.2 with
  | .next t => some (drain (x.1, t))
  | .fault _ => none
  | .refused _ => none

/-- `n` such turns. -/
def encTurns : Nat → Drained → Option Drained
  | 0, x => some x
  | n + 1, x => (encDrainTurn x).bind (encTurns n)

/-- `encode` (42_encoder.md R211): START on the configuration in the registers, then N + 2 turns; the stream and the
final state. -/
def encodeImage (s : State) : Option Drained := encTurns (s.enc.n + 2) ([], encStart s)

end Sys2Proof.Machine
end

