-- ==== Sys2Proof/Safety.lean ====
section
/-!
DEFINITION. What a state of a safe run satisfies: the parameters are legal, the pixel memories are canonical and in
range, the FIFOs keep their depths, and a BUSY engine's session is one its checks admitted (spec/00_scope.md R9, R11;
spec/10_state.md R27, R28, R30, R36, R37, R39; spec/60_exceptions.md R305).
-/

namespace Sys2Proof.Machine

/-- Every written byte lies below PIX_MEM_BYTES (20_memory.md R61). -/
def Memory.below (m : Memory) (n : Nat) : Prop := ∀ c ∈ m, c.1 < n

/-- Every slot holds PX_ZERO or a pixel that hashes to it (40_format_and_cache.md R122, R124). -/
def Cache.placed (c : Cache) : Prop :=
  ∀ i : BitVec 6, Cache.read c i = Pixel.zero ∨ pixelHash (Cache.read c i) = i

/-- An image the checks of 60_exceptions.md R304 admit. -/
def imageOk (pixMemBytes : Nat) (w h : Word) (ch : Byte) : Prop :=
  (ch = 3 ∨ ch = 4) ∧ 0 < pixelCount w h ∧ pixelCount w h * ch.toNat ≤ pixMemBytes

/-- The byte a pending run will take (42_encoder.md R203, R210). -/
def Enc.pending (e : Enc) : Nat := if e.run = 0 then 0 else 1

/-- What holds of ENC while its session runs. -/
structure Enc.InSession (p : Config.Params) (e : Enc) : Prop where
  image : imageOk p.pixMemBytes e.width e.height e.channels
  /-- R27: a run that reaches 62 is flushed in the same step -/
  run_le : e.run.toNat ≤ 61
  cache : Cache.placed e.cache
  /-- R215: with three channels the predictor's alpha is 255 -/
  alpha : e.channels = 3 → e.prev.a = 255
  atHdr : e.phase = .hdr → e.k = 0 ∧ e.outCnt = 0 ∧ e.run = 0
  atPix : e.phase = .pix → e.k.toNat < e.n
  atFin : e.phase = .fin → e.k.toNat = e.n
  /-- R212, before the marker: at most 14 + 5·k bytes, the pending run's byte counted -/
  emitted : e.phase ≠ .hdr → e.outCnt.toNat + e.pending ≤ 14 + 5 * e.k.toNat

/-- What holds of ENC in a safe run. -/
structure Enc.Ok (p : Config.Params) (e : Enc) : Prop where
  /-- R30 -/
  outQ_le : e.outQ.length ≤ p.outDepth
  /-- R22, R23: an error code stands exactly in ERROR -/
  err_iff : e.state = .error ↔ e.err ≠ .none
  session : e.state = .busy → e.InSession p

/-- What holds of DEC once its header is read, while its session runs. -/
structure Dec.InBody (p : Config.Params) (d : Dec) : Prop where
  image : imageOk p.pixMemBytes d.w d.h d.ch
  /-- R37 -/
  k_le : d.k.toNat ≤ d.n
  /-- R36: every opcode is at most 5 bytes and resolves at least one pixel -/
  pos_ge : 14 ≤ d.pos.toNat
  pos_le : d.pos.toNat ≤ 14 + 5 * d.k.toNat
  cache : Cache.placed d.cache

/-- What holds of DEC in a safe run. -/
structure Dec.Ok (p : Config.Params) (d : Dec) : Prop where
  /-- R36, R39 -/
  pos_le : d.pos.toNat ≤ d.avail
  /-- R39 -/
  fifo_le : occupancy d ≤ p.inDepth
  /-- R31, R32 -/
  err_iff : d.state = .error ↔ d.err ≠ .none
  /-- R40: IN_LAST is set in a session and cleared when it is left -/
  last : d.inLast = true → d.state ≠ .idle
  atHdr : d.state = .busy → d.phase = .hdr → d.pos = 0 ∧ d.k = 0 ∧ Cache.placed d.cache
  atBody : d.state = .busy → d.phase = .body → d.InBody p

/-- The invariant of the machine. -/
structure State.Inv (s : State) : Prop where
  params : s.params.wf
  pixE_wf : Memory.wf s.pixE
  pixD_wf : Memory.wf s.pixD
  pixE_below : Memory.below s.pixE s.params.pixMemBytes
  pixD_below : Memory.below s.pixD s.params.pixMemBytes
  enc : s.enc.Ok s.params
  dec : s.dec.Ok s.params

/-- An outcome no engine access out of range ended (20_memory.md R62). -/
def inRangeOutcome (r : Result) : Prop := r ≠ .fault .engineOutOfRange

end Sys2Proof.Machine
end

