-- ==== Sys2Proof/Certificates/Slice0/Obligations.lean ====
section
/-!
DEFINITION. The statements for the provers, in the order of spec/: encoding, the decoder's rules, the encoder's rules,
control and registers, errors and reset, and the rules of the whole machine.
-/

open Sys2Proof Sys2Proof.Machine

namespace Sys2Proof.Claims

/-- DEC runs, and its header is read. -/
abbrev inBody (d : Dec) : Prop := d.state = .busy ∧ d.phase = .body

/-- The pixel at DEC.k lies inside PIX_D (20_memory.md R62, R69). -/
abbrev pixelFits (s : State) : Prop :=
  s.dec.k.toNat * pixelSize s.dec.ch + pixelSize s.dec.ch ≤ s.params.pixMemBytes

/-- The state an opcode of n bytes that resolves the pixel p leaves: p is the predictor, is written at DEC.k and
inserted, k counts one more pixel, pos n more bytes, and nothing else changes (41_decoder.md R150, R154 to R158). -/
def afterPixel (s : State) (p : Pixel) (n : Nat) : State :=
  { s with
    pixD := Memory.writeBytes s.pixD (s.dec.k.toNat * pixelSize s.dec.ch)
      (if s.dec.ch = 4 then [p.r, p.g, p.b, p.a] else [p.r, p.g, p.b])
    dec :=
      { s.dec with
        cur := p
        cache := Cache.insert s.dec.cache p
        k := s.dec.k + 1
        pos := s.dec.pos + BitVec.ofNat 64 n } }

/-- `raise Error(c)` in DEC (60_exceptions.md R301). -/
def decError (s : State) (c : ErrCode) : State := { s with dec := { s.dec with state := .error, err := c } }

/-- An outcome with its next state changed. -/
def mapNext (f : State → State) (r : Result) : Result :=
  match r with
  | .next t => .next (f t)
  | .fault e => .fault e
  | .refused e => .refused e

/-- Everything of DEC that no opcode writes (10_state.md R42). -/
abbrev sameDecRegs (d e : Dec) : Prop :=
  e.state = d.state ∧ e.err = d.err ∧ e.phase = d.phase ∧ e.w = d.w ∧ e.h = d.h ∧ e.ch = d.ch ∧ e.cs = d.cs ∧
  e.input = d.input ∧ e.inLast = d.inLast ∧ e.inOvf = d.inOvf

/-- Everything of the machine but DEC and PIX_D. -/
abbrev sameElsewhere (s t : State) : Prop :=
  t.params = s.params ∧ t.enc = s.enc ∧ t.pixE = s.pixE ∧ t.hostQ = s.hostQ ∧ t.replies = s.replies ∧
  t.sched = s.sched ∧ t.draws = s.draws

/-- A 32-bit read at a host address answers v and leaves t, but for the reply (10_state.md sections 5 and 6). -/
abbrev readsReg (s : State) (addr : Nat) (v : Nat) (t : State) : Prop :=
  hostRead addr .word s = .next { t with replies := s.replies ++ [BitVec.ofNat 64 v] }

/-- A 32-bit write at a host address leaves t. -/
abbrev writesReg (s : State) (addr : Nat) (v : BitVec 64) (t : State) : Prop := hostWrite addr .word v s = .next t

/-- The code of STATE (10_state.md R22, R31). -/
def stateCode : Session → Nat
  | .idle => 0
  | .busy => 1
  | .done => 2
  | .error => 3

/-- The error codes of the table of 60_exceptions.md R300. -/
def errorCode : ErrCode → Nat
  | .none => 0
  | .invalidChannelCount => 1
  | .emptyImage => 2
  | .badMagic => 3
  | .truncatedStream => 4
  | .missingEndMarker => 5
  | .pixelCountMismatch => 6
  | .bufferTooSmall => 7

/-- What a 32-bit count register shows: the count, and from 2^32 on, where the spec states no value, the model's free
value (log 15). -/
def countShown (n : Nat) : Nat := if n < 2 ^ 32 then n else (Config.wideCount n).toNat

/-- The byte of a bus value that goes to the j-th address of an access, in either bus order (log 7). -/
def busByte (o : ByteOrder) (w : Width) (v : BitVec 64) (j : Nat) : Byte :=
  match o with
  | .little => v.extractLsb' (8 * j) 8
  | .big => v.extractLsb' (8 * (w.bytes - 1 - j)) 8

/-- A host address in none of the four regions (20_memory.md R61). -/
abbrev unmapped (p : Config.Params) (a : Nat) : Prop :=
  (a < p.encBase ∨ p.encBase + 256 ≤ a) ∧ (a < p.decBase ∨ p.decBase + 256 ≤ a) ∧
  (a < p.pixeBase ∨ p.pixeBase + p.pixMemBytes ≤ a) ∧ (a < p.pixdBase ∨ p.pixdBase + p.pixMemBytes ≤ a)

/-- A host access that runs past the end of the pixel memory it starts in (log 7). -/
abbrev pastEnd (p : Config.Params) (a : Nat) (w : Width) : Prop :=
  ∃ x, x < p.pixMemBytes ∧ p.pixMemBytes < x + w.bytes ∧ (a = p.pixeBase + x ∨ a = p.pixdBase + x)

/-- A host access of a register block that R67 does not support. -/
abbrev unsupported (p : Config.Params) (a : Nat) (w : Width) : Prop :=
  ∃ off, off < 256 ∧ (w ≠ .word ∨ off % 4 ≠ 0) ∧ (a = p.encBase + off ∨ a = p.decBase + off)

/-- The act is an access at an address, of a width. -/
abbrev accesses (act : HostAct) (a : Nat) (w : Width) : Prop :=
  act = .read a w ∨ ∃ v, act = .write a w v

/-- The conditions under which an image is encoded (42_encoder.md R211, 43_control.md R253). -/
abbrev encodable (s : State) : Prop :=
  s.enc.state ≠ .busy ∧ s.params.pixMemBytes ≤ 2 ^ 48 ∧ 14 ≤ s.params.outDepth ∧
  imageOk s.params.pixMemBytes s.enc.width s.enc.height s.enc.channels

end Sys2Proof.Claims

open Sys2Proof.Claims

/-! ### Encoding -/

/-- Words written out from the encodings of 30_encoding.md R85 to R92, at least one per format, decode to the items
they stand for. -/
def Obligations.SpecWordsDecode : Prop :=
  decodeTableWord 40 0x40302010FF = some (.rgba 0x10 0x20 0x30 0x40) ∧
  decodeTableWord 32 0x1E140AFE = some (.rgb 0x0A 0x14 0x1E) ∧
  decodeTableWord 8 0x09 = some (.index 9) ∧
  decodeTableWord 8 0x5B = some (.diff (-1) 0 1) ∧
  decodeTableWord 16 0x7AA5 = some (.luma 5 (-1) 2) ∧
  decodeTableWord 8 0xC2 = some (.run 3) ∧
  decodeTableWord 8 0xFD = some (.run 62) ∧
  decodeTableWord 64 0x0100000000000000 = some .endMark ∧
  decodeTableWord 112 0x0004010000000200000066696F71 = some (.header 2 1 4 0)

/-- 30_encoding.md section 3: decoding the bytes of a well-formed item, whatever follows them, gives the item back and
leaves what follows; an INDEX 0 whose bytes and what follows read as the end marker is the one exception (R100). That
any ch and cs are well-formed operands of HEADER is the model's choice (log 16). -/
def Obligations.DecodeOfEncode : Prop :=
  ∀ (i : Instr) (rest : List Byte), i.wf = true →
    (∀ w h ch cs, i = .header w h ch cs → decodeHeader (encode i ++ rest) = .ok (i, rest)) ∧
    ((∀ w h ch cs, i ≠ .header w h ch cs) → (i = .endMark ∨ isMarker (encode i ++ rest) = false) →
      decodeBody (encode i ++ rest) = .ok (i, rest))

/-- The other direction: every item the decoder reads is well-formed, and its encoding is exactly the bytes read. For a
header the first clause rests on the model's choice that any ch and cs are well-formed (log 16); no rule of the spec
names a range for them. -/
def Obligations.EncodeOfDecode : Prop :=
  ∀ (bs : List Byte) (i : Instr) (rest : List Byte),
    (decodeBody bs = .ok (i, rest) → i.wf = true ∧ encode i ++ rest = bs) ∧
    (decodeHeader bs = .ok (i, rest) → i.wf = true ∧ encode i ++ rest = bs)

/-- 30_encoding.md R93: the decode of a tag byte is total, by the tag ranges, and the end-marker test comes first. -/
def Obligations.TagRanges : Prop :=
  ∀ (t : Byte) (rest : List Byte),
    (isMarker (t :: rest) = true → decodeBody (t :: rest) = .ok (.endMark, (t :: rest).drop 8)) ∧
    (isMarker (t :: rest) = false → oplen t ≤ (t :: rest).length →
      ∃ i, decodeBody (t :: rest) = .ok (i, (t :: rest).drop (oplen t)) ∧
        (t.toNat ≤ 0x3F → ∃ j, i = .index j) ∧
        (0x40 ≤ t.toNat → t.toNat ≤ 0x7F → ∃ dr dg db, i = .diff dr dg db) ∧
        (0x80 ≤ t.toNat → t.toNat ≤ 0xBF → ∃ dg x y, i = .luma dg x y) ∧
        (0xC0 ≤ t.toNat → t.toNat ≤ 0xFD → ∃ l, i = .run l) ∧
        (t.toNat = 0xFE → ∃ r g b, i = .rgb r g b) ∧
        (t.toNat = 0xFF → ∃ r g b a, i = .rgba r g b a))

/-- 30_encoding.md R94: the length of an opcode is a function of its tag alone, and a decoded opcode has it. -/
def Obligations.OpcodeLengthFromTag : Prop :=
  (∀ t : Byte, oplen t =
    if t = 0xFF then 5 else if t = 0xFE then 4 else if t.toNat / 64 = 2 then 2 else 1) ∧
  (∀ (t : Byte) (tl : List Byte) (i : Instr) (rest : List Byte), decodeOp (t :: tl) = .ok (i, rest) →
    (encode i).length = oplen t ∧ i.size = oplen t ∧ rest = (t :: tl).drop (oplen t)) ∧
  (∀ (t : Byte) (tl : List Byte), (t :: tl).length < oplen t → decodeOp (t :: tl) = .error .truncated)

/-- 30_encoding.md R95: operand assembly on the decoder side, each delta as the u8 the rule gives. -/
def Obligations.OperandAssembly : Prop :=
  ∀ (t x r g b a : Byte) (rest : List Byte),
    (t.extractLsb' 6 2 = 0 → isMarker (t :: rest) = false →
      decodeBody (t :: rest) = .ok (.index (t.extractLsb' 0 6), rest)) ∧
    (t.extractLsb' 6 2 = 1 → ∃ dr dg db, decodeBody (t :: rest) = .ok (.diff dr dg db, rest) ∧
      BitVec.ofInt 8 dr = (t.extractLsb' 4 2).setWidth 8 - 2 ∧
      BitVec.ofInt 8 dg = (t.extractLsb' 2 2).setWidth 8 - 2 ∧
      BitVec.ofInt 8 db = (t.extractLsb' 0 2).setWidth 8 - 2) ∧
    (t.extractLsb' 6 2 = 2 → ∃ dg u v, decodeBody (t :: x :: rest) = .ok (.luma dg u v, rest) ∧
      BitVec.ofInt 8 dg = (t.extractLsb' 0 6).setWidth 8 - 32 ∧
      BitVec.ofInt 8 (u + dg) = ((x.extractLsb' 4 4).setWidth 8 - 8) + ((t.extractLsb' 0 6).setWidth 8 - 32) ∧
      BitVec.ofInt 8 (v + dg) = ((x.extractLsb' 0 4).setWidth 8 - 8) + ((t.extractLsb' 0 6).setWidth 8 - 32)) ∧
    (t.extractLsb' 6 2 = 3 → t ≠ 0xFE → t ≠ 0xFF →
      decodeBody (t :: rest) = .ok (.run ((t.extractLsb' 0 6).toNat + 1), rest)) ∧
    decodeBody (0xFE :: r :: g :: b :: rest) = .ok (.rgb r g b, rest) ∧
    decodeBody (0xFF :: r :: g :: b :: a :: rest) = .ok (.rgba r g b a, rest)

/-- 30_encoding.md R96: operand assembly on the encoder side: where its range test holds, each field fits its width. -/
def Obligations.EncoderFields : Prop :=
  (∀ p prev : Pixel, fitsDiff p prev = true → ∃ t : Byte, encode (diffOf p prev) = [t] ∧
    (t.toNat : Int) = 0x40 + 16 * (s8 (p.r - prev.r) + 2) + 4 * (s8 (p.g - prev.g) + 2) + (s8 (p.b - prev.b) + 2)) ∧
  (∀ p prev : Pixel, fitsLuma p prev = true → ∃ t x : Byte, encode (lumaOf p prev) = [t, x] ∧
    (t.toNat : Int) = 0x80 + (s8 (p.g - prev.g) + 32) ∧
    (x.toNat : Int) = 16 * (s8 (p.r - prev.r) - s8 (p.g - prev.g) + 8) + (s8 (p.b - prev.b) - s8 (p.g - prev.g) + 8)) ∧
  (∀ len, 1 ≤ len → len ≤ 62 → ∃ t : Byte, encode (.run len) = [t] ∧ t.toNat = 0xC0 + (len - 1)) ∧
  (∀ p : Pixel, ∃ t : Byte, encode (.index (pixelHash p)) = [t] ∧ t.toNat = (pixelHash p).toNat)

/-- 30_encoding.md R103: `RUNS n` is ⌊n/62⌋ copies of RUN 62 and then RUN (n mod 62), its runs are well-formed, and
together they are n pixels. -/
def Obligations.RunsExpansion : Prop :=
  ∀ n, 1 ≤ n →
    runs n = List.replicate (n / 62) (.run 62) ++ (if n % 62 ≠ 0 then [.run (n % 62)] else []) ∧
    ∃ lens : List Nat, runs n = lens.map Instr.run ∧ lens.sum = n ∧ ∀ i ∈ runs n, i.wf = true

/-! ### The color cache -/

/-- 40_format_and_cache.md R120: the hash, its two values, and that it is the low 6 bits of the sum. -/
def Obligations.HashRule : Prop :=
  (∀ p : Pixel, (pixelHash p).toNat = (p.r.toNat * 3 + p.g.toNat * 5 + p.b.toNat * 7 + p.a.toNat * 11) % 64) ∧
  (∀ p : Pixel, p.r.toNat * 3 + p.g.toNat * 5 + p.b.toNat * 7 + p.a.toNat * 11 ≤ 6630 ∧
    pixelHash p =
      (BitVec.ofNat 13 (p.r.toNat * 3 + p.g.toNat * 5 + p.b.toNat * 7 + p.a.toNat * 11)).extractLsb' 0 6) ∧
  pixelHash Pixel.zero = 0 ∧ pixelHash Pixel.seed = 53

/-- 40_format_and_cache.md section 2: init, read after insert, the probe's hit, and that inserting a hit changes
nothing. -/
def Obligations.CacheOperations : Prop :=
  ∀ (c : Cache) (p : Pixel) (i : BitVec 6),
    Cache.read Cache.init i = Pixel.zero ∧
    Cache.read (Cache.insert c p) (pixelHash p) = p ∧
    (i ≠ pixelHash p → Cache.read (Cache.insert c p) i = Cache.read c i) ∧
    (Cache.hit c p = true ↔ Cache.read c (pixelHash p) = p) ∧
    (Cache.hit c p = true → Cache.insert c p = c)

/-! ### The decoder -/

/-- 41_decoder.md R151, R152: the header step holds below 14 bytes unless IN_LAST = 1; then it makes its five checks in
order, writing W, H, CH and CS before the last three, and otherwise enters the body at stream byte 14. -/
def Obligations.HeaderStepRule : Prop :=
  ∀ s : State, s.dec.state = .busy → s.dec.phase = .hdr → s.dec.pos = 0 →
    let bs := s.dec.input
    let by4 (j : Nat) : Nat := (bs.getD j 0).toNat * 2 ^ 24 + (bs.getD (j + 1) 0).toNat * 2 ^ 16 +
      (bs.getD (j + 2) 0).toNat * 2 ^ 8 + (bs.getD (j + 3) 0).toNat
    let w : Word := BitVec.ofNat 32 (by4 4)
    let h : Word := BitVec.ofNat 32 (by4 8)
    let ch := bs.getD 12 0
    let cs := bs.getD 13 0
    let t : State := { s with dec := { s.dec with w := w, h := h, ch := ch, cs := cs } }
    decTurn s =
      if bs.length < 14 ∧ s.dec.inLast = false then .next s
      else if bs.length < 4 ∨ bs.take 4 ≠ [0x71, 0x6F, 0x69, 0x66] then .next (decError s .badMagic)
      else if bs.length < 14 then .next (decError s .truncatedStream)
      else if ch ≠ 3 ∧ ch ≠ 4 then .next (decError t .invalidChannelCount)
      else if w.toNat * h.toNat = 0 then .next (decError t .emptyImage)
      else if s.params.pixMemBytes < w.toNat * h.toNat * ch.toNat then .next (decError t .bufferTooSmall)
      else .next { t with dec := { t.dec with pos := 14, phase := .body } }

/-- HEADER completes (41_decoder.md R151): an admitted image enters the body; any other raises the first error of
60_exceptions.md R304. Both are the item's own effect. -/
def Obligations.HeaderItem : Prop :=
  ∀ (s : State) (w h : Word) (ch cs : Byte),
    let t : State := { s with dec := { s.dec with w := w, h := h, ch := ch, cs := cs } }
    (imageOk s.params.pixMemBytes w h ch →
      exec (.header w h ch cs) s = .next { t with dec := { t.dec with pos := 14, phase := .body } }) ∧
    (ch ≠ 3 ∧ ch ≠ 4 → exec (.header w h ch cs) s = .next (decError t .invalidChannelCount)) ∧
    (ch = 3 ∨ ch = 4 → w.toNat * h.toNat = 0 → exec (.header w h ch cs) s = .next (decError t .emptyImage)) ∧
    (ch = 3 ∨ ch = 4 → s.params.pixMemBytes < w.toNat * h.toNat * ch.toNat →
      exec (.header w h ch cs) s = .next (decError t .bufferTooSmall))

/-- 41_decoder.md R153: need, the hold, and the order of the body step's tests. -/
def Obligations.BodyStepOrder : Prop :=
  ∀ s : State, inBody s.dec →
    let n := s.dec.avail - s.dec.pos.toNat
    let full := s.dec.k.toNat = s.dec.w.toNat * s.dec.h.toNat
    let need := if full then 8
      else match s.dec.fifo with
        | [] => 1
        | t :: _ => if t = 0x00 then 8 else oplen t
    decTurn s =
      if n < need ∧ s.dec.inLast = false then .next s
      else if isMarker s.dec.fifo then exec .endMark s
      else if full then
        if n < 8 then .next (decError s .missingEndMarker) else .next (decError s .pixelCountMismatch)
      else match s.dec.fifo with
        | [] => .next (decError s .missingEndMarker)
        | t :: tl =>
          if n < oplen t then .next (decError s .truncatedStream) else exec (assemble t tl) s

/-- 41_decoder.md R154: RGBA, from its bytes and by its pseudocode; fewer than 5 bytes are a truncated stream. -/
def Obligations.RgbaRule : Prop :=
  (∀ (s : State) (r g b a : Byte), pixelFits s →
    exec (.rgba r g b a) s = .next (afterPixel s ⟨r, g, b, a⟩ 5)) ∧
  (∀ (r g b a : Byte) (rest : List Byte),
    decodeBody (0xFF :: r :: g :: b :: a :: rest) = .ok (.rgba r g b a, rest)) ∧
  (∀ (s : State) (rest : List Byte), inBody s.dec → s.dec.inLast = true → s.dec.k.toNat ≠ s.dec.n →
    s.dec.fifo = 0xFF :: rest → rest.length < 4 → decTurn s = .next (decError s .truncatedStream))

/-- 41_decoder.md R155: RGB, alpha carried over from the predictor; fewer than 4 bytes are a truncated stream. -/
def Obligations.RgbRule : Prop :=
  (∀ (s : State) (r g b : Byte), pixelFits s →
    exec (.rgb r g b) s = .next (afterPixel s ⟨r, g, b, s.dec.cur.a⟩ 4)) ∧
  (∀ (r g b : Byte) (rest : List Byte), decodeBody (0xFE :: r :: g :: b :: rest) = .ok (.rgb r g b, rest)) ∧
  (∀ (s : State) (rest : List Byte), inBody s.dec → s.dec.inLast = true → s.dec.k.toNat ≠ s.dec.n →
    s.dec.fifo = 0xFE :: rest → rest.length < 3 → decTurn s = .next (decError s .truncatedStream))

/-- 41_decoder.md R156: INDEX reads its slot verbatim, before the insert of the same step; the bytes of MARKER are no
INDEX. -/
def Obligations.IndexRule : Prop :=
  (∀ (s : State) (i : BitVec 6), pixelFits s →
    exec (.index i) s = .next (afterPixel s (Cache.read s.dec.cache i) 1)) ∧
  (∀ (i : BitVec 6) (rest : List Byte), isMarker (i.setWidth 8 :: rest) = false →
    decodeBody (i.setWidth 8 :: rest) = .ok (.index i, rest)) ∧
  (∀ rest : List Byte, decodeBody (0 :: 0 :: 0 :: 0 :: 0 :: 0 :: 0 :: 1 :: rest) = .ok (.endMark, rest))

/-- 41_decoder.md R157: DIFF, from its tag's fields, in wrapping u8 arithmetic. -/
def Obligations.DiffRule : Prop :=
  (∀ (s : State) (t : Byte) (rest : List Byte), t.extractLsb' 6 2 = 1 →
    ∃ dr dg db, decodeBody (t :: rest) = .ok (.diff dr dg db, rest) ∧
      (pixelFits s → exec (.diff dr dg db) s = .next (afterPixel s
        ⟨s.dec.cur.r + ((t.extractLsb' 4 2).setWidth 8 - 2), s.dec.cur.g + ((t.extractLsb' 2 2).setWidth 8 - 2),
          s.dec.cur.b + ((t.extractLsb' 0 2).setWidth 8 - 2), s.dec.cur.a⟩ 1))) ∧
  (∀ (s : State) (dr dg db : Int), pixelFits s → exec (.diff dr dg db) s = .next (afterPixel s
    ⟨s.dec.cur.r + BitVec.ofInt 8 dr, s.dec.cur.g + BitVec.ofInt 8 dg, s.dec.cur.b + BitVec.ofInt 8 db,
      s.dec.cur.a⟩ 1))

/-- 41_decoder.md R158: LUMA, from its two bytes' fields, in wrapping u8 arithmetic; the tag alone is a truncated
stream. -/
def Obligations.LumaRule : Prop :=
  (∀ (s : State) (t x : Byte) (rest : List Byte), t.extractLsb' 6 2 = 2 →
    let g : Byte := (t.extractLsb' 0 6).setWidth 8 - 32
    let r : Byte := ((x.extractLsb' 4 4).setWidth 8 - 8) + g
    let b : Byte := ((x.extractLsb' 0 4).setWidth 8 - 8) + g
    ∃ dg u v, decodeBody (t :: x :: rest) = .ok (.luma dg u v, rest) ∧
      (pixelFits s → exec (.luma dg u v) s = .next (afterPixel s
        ⟨s.dec.cur.r + r, s.dec.cur.g + g, s.dec.cur.b + b, s.dec.cur.a⟩ 2))) ∧
  (∀ (s : State) (dg u v : Int), pixelFits s → exec (.luma dg u v) s = .next (afterPixel s
    ⟨s.dec.cur.r + BitVec.ofInt 8 (u + dg), s.dec.cur.g + BitVec.ofInt 8 dg, s.dec.cur.b + BitVec.ofInt 8 (v + dg),
      s.dec.cur.a⟩ 2)) ∧
  (∀ (s : State) (t : Byte), inBody s.dec → s.dec.inLast = true → s.dec.k.toNat ≠ s.dec.n →
    t.extractLsb' 6 2 = 2 → s.dec.fifo = [t] → decTurn s = .next (decError s .truncatedStream))

/-- 41_decoder.md R159: RUN writes its L pixels, all the predictor, in one step; a run past N writes none and raises
PIXEL_COUNT_MISMATCH. -/
def Obligations.RunRule : Prop :=
  (∀ (s : State) (len : Nat), s.dec.n < s.dec.k.toNat + len →
    exec (.run len) s = .next (decError s .pixelCountMismatch)) ∧
  (∀ (s : State) (len : Nat), 1 ≤ len → s.dec.k.toNat + len ≤ s.dec.n →
    (s.dec.k.toNat + len) * pixelSize s.dec.ch ≤ s.params.pixMemBytes →
    exec (.run len) s = .next { s with
      pixD := Memory.writeBytes s.pixD (s.dec.k.toNat * pixelSize s.dec.ch)
        (List.replicate len (pixelBytes s.dec.ch s.dec.cur)).flatten
      dec :=
        { s.dec with
          cache := Cache.insert s.dec.cache s.dec.cur
          k := s.dec.k + BitVec.ofNat 64 len
          pos := s.dec.pos + 1 } }) ∧
  (∀ (t : Byte) (rest : List Byte), t.extractLsb' 6 2 = 3 → t ≠ 0xFE → t ≠ 0xFF →
    decodeBody (t :: rest) = .ok (.run ((t.extractLsb' 0 6).toNat + 1), rest))

/-- 41_decoder.md R160: END reaches DONE past the marker when N pixels are out, and raises PIXEL_COUNT_MISMATCH
before. -/
def Obligations.EndRule : Prop :=
  ∀ s : State,
    (s.dec.k.toNat = s.dec.w.toNat * s.dec.h.toNat →
      exec .endMark s = .next { s with dec := { s.dec with pos := s.dec.pos + 8, state := .done } }) ∧
    (s.dec.k.toNat ≠ s.dec.w.toNat * s.dec.h.toNat →
      exec .endMark s = .next (decError s .pixelCountMismatch)) ∧
    ∀ rest : List Byte, decodeBody (marker ++ rest) = .ok (.endMark, rest)

/-- A pixel write outside PIX_D is the model's own fault (20_memory.md R62, 93_implementation_defined.md U16), never a
silent write: the stop of the six opcodes. -/
def Obligations.PixelOutOfRangeStops : Prop :=
  (∀ s : State, ¬ pixelFits s →
    (∀ r g b a, exec (.rgba r g b a) s = .fault .engineOutOfRange) ∧
    (∀ r g b, exec (.rgb r g b) s = .fault .engineOutOfRange) ∧
    (∀ i, exec (.index i) s = .fault .engineOutOfRange) ∧
    (∀ dr dg db, exec (.diff dr dg db) s = .fault .engineOutOfRange) ∧
    (∀ dg u v, exec (.luma dg u v) s = .fault .engineOutOfRange)) ∧
  (∀ (s : State) (len : Nat), 1 ≤ len → s.dec.k.toNat + len ≤ s.dec.n →
    s.params.pixMemBytes < (s.dec.k.toNat + len) * pixelSize s.dec.ch →
    exec (.run len) s = .fault .engineOutOfRange)

/-- The frame of RGBA, RGB, INDEX, DIFF and LUMA (10_state.md R42): they write the predictor, one cache slot, the two
positions and the pixel's bytes, at the address putPixel computes, and nothing else. -/
def Obligations.SinglePixelFrame : Prop :=
  ∀ (i : Instr) (s t : State),
    ((∃ r g b a, i = .rgba r g b a) ∨ (∃ r g b, i = .rgb r g b) ∨ (∃ j, i = .index j) ∨
      (∃ dr dg db, i = .diff dr dg db) ∨ (∃ dg u v, i = .luma dg u v)) →
    exec i s = .next t →
    sameElsewhere s t ∧ sameDecRegs s.dec t.dec ∧
    (∀ j, j ≠ pixelHash t.dec.cur → Cache.read t.dec.cache j = Cache.read s.dec.cache j) ∧
    (∀ a, a < s.dec.pixelAddr ∨ s.dec.pixelAddr + pixelSize s.dec.ch ≤ a →
      Memory.lookup t.pixD a = Memory.lookup s.pixD a) ∧
    t.dec.k = s.dec.k + 1 ∧ t.dec.pos = s.dec.pos + BitVec.ofNat 64 i.size

/-- The frame of RUN: as a single pixel's, over the bytes of L pixels; the predictor stays. A RUN that raises an error
changes only STATE and ERR. -/
def Obligations.RunFrame : Prop :=
  ∀ (len : Nat) (s t : State), exec (.run len) s = .next t →
    sameElsewhere s t ∧ t.dec.cur = s.dec.cur ∧
    (t.dec.state = .error ∧ t = decError s .pixelCountMismatch ∨
      sameDecRegs s.dec t.dec ∧
      (∀ j, j ≠ pixelHash s.dec.cur → Cache.read t.dec.cache j = Cache.read s.dec.cache j) ∧
      (∀ a, a < s.dec.pixelAddr ∨ s.dec.pixelAddr + len * pixelSize s.dec.ch ≤ a →
        Memory.lookup t.pixD a = Memory.lookup s.pixD a))

/-- The frame of HEADER and END: no pixel, no cache slot, no predictor, no count of pixels changes, and nothing outside
DEC. -/
def Obligations.FramingFrame : Prop :=
  ∀ (i : Instr) (s t : State), (i = .endMark ∨ ∃ w h ch cs, i = .header w h ch cs) → exec i s = .next t →
    sameElsewhere s t ∧ t.pixD = s.pixD ∧ t.dec.cur = s.dec.cur ∧ t.dec.cache = s.dec.cache ∧ t.dec.k = s.dec.k ∧
    t.dec.input = s.dec.input ∧ t.dec.inLast = s.dec.inLast ∧ t.dec.inOvf = s.dec.inOvf ∧
    (i = .endMark → t.dec.w = s.dec.w ∧ t.dec.h = s.dec.h ∧ t.dec.ch = s.dec.ch ∧ t.dec.cs = s.dec.cs ∧
      t.dec.phase = s.dec.phase)

/-- 20_memory.md R66: below its need DEC holds and changes nothing; need is at most 14, so a full FIFO enables a step;
IN_LAST = 1 enables it on the bytes present. -/
def Obligations.DecHoldRule : Prop :=
  (∀ s : State, s.dec.avail - s.dec.pos.toNat < decNeed s.dec → s.dec.inLast = false → decTurn s = .next s) ∧
  (∀ d : Dec, decNeed d ≤ 14) ∧
  (∀ s : State, s.params.wf → s.dec.state = .busy → occupancy s.dec = s.params.inDepth → decEnabled s.dec = true) ∧
  (∀ s : State, s.dec.state = .busy → s.dec.inLast = true → decEnabled s.dec = true)

/-- 20_memory.md R82 for DEC: what a step does, once its need is met, does not change with the bytes pushed after or
with IN_LAST. -/
def Obligations.DecOutcomeFinal : Prop :=
  ∀ (d : Dec) (more : List Byte) (l : Bool), d.state = .busy → d.pos.toNat ≤ d.avail →
    (d.phase = .hdr → d.pos = 0) → decNeed d ≤ d.avail - d.pos.toNat →
    decEnabled { d with input := d.input ++ more, inLast := l } = true ∧
    decAct { d with input := d.input ++ more, inLast := l } = decAct d

/-- 60_exceptions.md R301 for DEC: an error leaves pos, k, the predictor, the cache, the stream and PIX_D as before the
failing step; only STATE, ERR and, in the header step, W, H, CH and CS are written. -/
def Obligations.DecErrorPrecise : Prop :=
  ∀ s t : State, decTurn s = .next t → s.dec.state = .busy → t.dec.state = .error →
    sameElsewhere s t ∧ t.pixD = s.pixD ∧ t.dec.err ≠ .none ∧
    (s.dec.phase = .body → t = decError s t.dec.err) ∧
    (s.dec.phase = .hdr → t = decError { s with dec := { s.dec with
      w := t.dec.w, h := t.dec.h, ch := t.dec.ch, cs := t.dec.cs } } t.dec.err)

/-- 41_decoder.md R161: decode(S) of a complete stream ends, within avail + 1 turns, in DONE or ERROR. -/
def Obligations.DecodeTerminates : Prop :=
  ∀ (bs : List Byte) (s : State), s.params.pixMemBytes ≤ 2 ^ 48 →
    ∃ t, decodeStream bs s = .next t ∧ (t.dec.state = .done ∨ t.dec.state = .error)

/-- 41_decoder.md R161: decode(S) is a function of S and PIX_MEM_BYTES alone: whatever state it starts from, DEC ends
in the same state and the decoded pixels are the same bytes. -/
def Obligations.DecodeIsFunctionOfStream : Prop :=
  ∀ (bs : List Byte) (s u t : State), s.params.pixMemBytes ≤ 2 ^ 48 →
    u.params.pixMemBytes = s.params.pixMemBytes → decodeStream bs s = .next t →
    ∃ v, decodeStream bs u = .next v ∧ v.dec = t.dec ∧
      ∀ a, a < t.dec.k.toNat * t.dec.ch.toNat → Memory.lookup v.pixD a = Memory.lookup t.pixD a

/-! ### The encoder -/

/-- 20_memory.md R65: the room of each step, the hold, that an empty FIFO enables the step, and that a step appends at
most its room and counts what it appends. -/
def Obligations.EncRoomRule : Prop :=
  (encRoom .hdr = 14 ∧ encRoom .pix = 6 ∧ encRoom .fin = 9) ∧
  (∀ s : State, s.params.outDepth - s.enc.outQ.length < encRoom s.enc.phase → encTurn s = .next s) ∧
  (∀ s : State, s.params.wf → s.enc.state = .busy → s.enc.outQ = [] → encEnabled s.params s.enc = true) ∧
  (∀ s t : State, encTurn s = .next t → ∃ bs : List Byte, t.enc.outQ = s.enc.outQ ++ bs ∧
    bs.length ≤ encRoom s.enc.phase ∧ t.enc.outCnt = s.enc.outCnt + BitVec.ofNat 64 bs.length)

/-- 20_memory.md R82 for ENC: a step that is enabled does the same whatever OUT_DEPTH is and whatever bytes still wait
in OUTQ. -/
def Obligations.EncIndependentOfFifo : Prop :=
  ∀ (s t : State) (q : List Byte) (depth : Nat),
    let u : State := { s with params := { s.params with outDepth := depth }, enc := { s.enc with outQ := q } }
    encEnabled s.params s.enc = true → encEnabled u.params u.enc = true → encTurn s = .next t →
    ∃ bs, t.enc.outQ = s.enc.outQ ++ bs ∧
      encTurn u = .next { t with params := u.params, enc := { t.enc with outQ := q ++ bs } }

/-- 42_encoder.md R200, R210: the header step, and the final step: the pending run, the end marker, DONE. -/
def Obligations.EncFramingSteps : Prop :=
  (∀ s : State, s.enc.state = .busy → s.enc.phase = .hdr → 14 ≤ s.params.outDepth - s.enc.outQ.length →
    encTurn s = .next { s with enc :=
      { s.enc with
        outQ := s.enc.outQ ++ hdr s.enc.width s.enc.height s.enc.channels (s.enc.colorspace.setWidth 8)
        outCnt := s.enc.outCnt + 14
        phase := .pix } }) ∧
  (∀ s : State, s.enc.state = .busy → s.enc.phase = .fin → 9 ≤ s.params.outDepth - s.enc.outQ.length →
    let bs : List Byte :=
      (if 0 < s.enc.run.toNat then [0xC0#8 ||| BitVec.ofNat 8 (s.enc.run.toNat - 1)] else []) ++ marker
    encTurn s = .next { s with enc :=
      { s.enc with
        run := 0
        outQ := s.enc.outQ ++ bs
        outCnt := s.enc.outCnt + BitVec.ofNat 64 bs.length
        state := .done } })

/-- 42_encoder.md R201, 20_memory.md R69: the pixel step reads pixel k at k·CH, alpha being 255 with three channels,
and then encodes it. A byte that nothing has written reads as a free value, one for each byte (R341; log 2). Holds for
every value of the free bytes. -/
def Obligations.EncPixelRead : Prop :=
  ∀ (s : State) (r g b a : Byte), s.enc.state = .busy → s.enc.phase = .pix →
    6 ≤ s.params.outDepth - s.enc.outQ.length →
    let reads (j : Nat) (v : Byte) : Prop :=
      Memory.lookup s.pixE (s.enc.k.toNat * s.enc.channels.toNat + j) = some v ∨
      Memory.lookup s.pixE (s.enc.k.toNat * s.enc.channels.toNat + j) = none ∧ v = Config.freeByte (s.draws + j)
    reads 0 r → reads 1 g → reads 2 b →
    (s.enc.channels = 4 → reads 3 a → s.enc.k.toNat * 4 + 4 ≤ s.params.pixMemBytes →
      encTurn s = .next (encPixel ⟨r, g, b, a⟩ { s with draws := s.draws + 4 })) ∧
    (s.enc.channels = 3 → s.enc.k.toNat * 3 + 3 ≤ s.params.pixMemBytes →
      encTurn s = .next (encPixel ⟨r, g, b, 255⟩ { s with draws := s.draws + 3 }))

/-- 42_encoder.md R202, R203, R209 and the end of R201: a pixel equal to the predictor joins the run, and its 62nd is
emitted at once as 0xFD; any other first flushes the run, then emits the selected item, then updates. -/
def Obligations.EncPixelRule : Prop :=
  ∀ (s : State) (p : Pixel),
    let k : Count := s.enc.k + 1
    let phase : EncPhase := if k.toNat = s.enc.width.toNat * s.enc.height.toNat then .fin else s.enc.phase
    (p = s.enc.prev → s.enc.run + 1 ≠ 62 →
      encPixel p s = { s with enc := { s.enc with run := s.enc.run + 1, k := k, phase := phase } }) ∧
    (p = s.enc.prev → s.enc.run + 1 = 62 →
      encPixel p s = { s with enc :=
        { s.enc with
          run := 0
          outQ := s.enc.outQ ++ [0xFD]
          outCnt := s.enc.outCnt + 1
          k := k
          phase := phase } }) ∧
    (p ≠ s.enc.prev →
      let flush : List Byte := if 0 < s.enc.run.toNat then [0xC0#8 ||| BitVec.ofNat 8 (s.enc.run.toNat - 1)] else []
      let bs := flush ++ encode (selectItem s.enc.cache p s.enc.prev)
      encPixel p s = { s with enc :=
        { s.enc with
          run := 0
          outQ := s.enc.outQ ++ bs
          outCnt := s.enc.outCnt + BitVec.ofNat 64 bs.length
          cache := Cache.insert s.enc.cache p
          prev := p
          k := k
          phase := phase } })

/-- 42_encoder.md R204 to R208: the priority order of the selection and each condition. -/
def Obligations.SelectionOrder : Prop :=
  ∀ (c : Cache) (p prev : Pixel),
    let dr := s8 (p.r - prev.r)
    let dg := s8 (p.g - prev.g)
    let db := s8 (p.b - prev.b)
    let hit := Cache.read c (pixelHash p) = p
    let small := (-2 ≤ dr ∧ dr ≤ 1) ∧ (-2 ≤ dg ∧ dg ≤ 1) ∧ (-2 ≤ db ∧ db ≤ 1)
    let luma := (-32 ≤ dg ∧ dg ≤ 31) ∧ (-8 ≤ dr - dg ∧ dr - dg ≤ 7) ∧ (-8 ≤ db - dg ∧ db - dg ≤ 7)
    (hit → selectItem c p prev = .index (pixelHash p)) ∧
    (¬ hit → p.a = prev.a → small → selectItem c p prev = .diff dr dg db) ∧
    (¬ hit → p.a = prev.a → ¬ small → luma → selectItem c p prev = .luma dg (dr - dg) (db - dg)) ∧
    (¬ hit → p.a = prev.a → ¬ small → ¬ luma → selectItem c p prev = .rgb p.r p.g p.b) ∧
    (¬ hit → p.a ≠ prev.a → selectItem c p prev = .rgba p.r p.g p.b p.a)

/-- The step behind 41_decoder.md R165: DEC, its predictor the encoder's and its cache agreeing where the encoder hits,
decodes the item ENC selects for a pixel to that pixel, and the item is well-formed. -/
def Obligations.SelectionInverts : Prop :=
  ∀ (s : State) (c : Cache) (p : Pixel), pixelFits s →
    (Cache.read c (pixelHash p) = p → Cache.read s.dec.cache (pixelHash p) = p) →
    (selectItem c p s.dec.cur).wf = true ∧
    exec (selectItem c p s.dec.cur) s = .next (afterPixel s p (selectItem c p s.dec.cur).size)

/-- 42_encoder.md R216: a block of n pixels equal to the predictor, then the flush, is emitted as `RUNS n`; cache and
predictor stay. -/
def Obligations.RunBlockIsRuns : Prop :=
  ∀ (n : Nat) (s : State), s.enc.run = 0 →
    (encFlush ((encPixel s.enc.prev)^[n] s)).enc.outQ = s.enc.outQ ++ (runs n).flatMap encode ∧
    (encFlush ((encPixel s.enc.prev)^[n] s)).enc.cache = s.enc.cache ∧
    (encFlush ((encPixel s.enc.prev)^[n] s)).enc.prev = s.enc.prev ∧
    (encFlush ((encPixel s.enc.prev)^[n] s)).enc.run = 0

/-- 42_encoder.md R215: with three channels no pixel step of a session selects RGBA, and every pixel read has alpha
255. -/
def Obligations.ThreeChannelsNoRgba : Prop :=
  ∀ s : State, s.Inv → s.enc.state = .busy → s.enc.channels = 3 →
    s.enc.prev.a = 255 ∧ s.readPixel.a = 255 ∧
    ∀ (c : Cache) (r g b a : Byte), selectItem c s.readPixel s.enc.prev ≠ .rgba r g b a

/-- 42_encoder.md R211, R212: an admitted image takes exactly N + 2 steps to DONE; its stream is the header, well-formed
opcodes and MARKER, OUTCNT is its length, and its length lies in the bounds. A refused image emits no byte. -/
def Obligations.EncodeTerminates : Prop :=
  (∀ s : State, encodable s →
    (∃ (out : List Byte) (t : State) (items : List Instr), encodeImage s = some (out, t) ∧
      t.enc.state = .done ∧ t.enc.outQ = [] ∧ t.enc.k.toNat = s.enc.n ∧
      out = hdr s.enc.width s.enc.height s.enc.channels (s.enc.colorspace.setWidth 8) ++
        items.flatMap encode ++ marker ∧
      (∀ i ∈ items, i.wf = true ∧ i.size ≤ 5) ∧
      t.enc.outCnt.toNat = out.length ∧ 23 ≤ out.length ∧ out.length ≤ 14 + 5 * s.enc.n + 8) ∧
    (∀ m, m < s.enc.n + 2 → ∃ x, encTurns m ([], encStart s) = some x ∧ x.2.enc.state = .busy)) ∧
  (∀ (s : State) (c : ErrCode), s.enc.state ≠ .busy →
    imageError? s.params.pixMemBytes s.enc.width s.enc.height s.enc.channels = some c →
    ∃ t, encodeImage s = some ([], t) ∧ t.enc.state = .error ∧ t.enc.err = c)

/-- 41_decoder.md R165: decoding what ENC emits for an image gives the image back, byte for byte, with its width,
height, channels and colorspace. -/
def Obligations.RoundTrip : Prop :=
  ∀ s u : State, encodable s → u.params.pixMemBytes = s.params.pixMemBytes →
    (∀ a, a < s.enc.n * s.enc.channels.toNat → ∃ v, Memory.lookup s.pixE a = some v) →
    ∃ (out : List Byte) (t v : State), encodeImage s = some (out, t) ∧ t.enc.state = .done ∧
      decodeStream out u = .next v ∧ v.dec.state = .done ∧
      v.dec.w = s.enc.width ∧ v.dec.h = s.enc.height ∧ v.dec.ch = s.enc.channels ∧
      v.dec.cs = s.enc.colorspace.setWidth 8 ∧ v.dec.k.toNat = s.enc.n ∧
      ∀ a, a < s.enc.n * s.enc.channels.toNat → Memory.lookup v.pixD a = Memory.lookup s.pixE a

/-- 40_format_and_cache.md R127 at the end of a session: the two caches agree at every slot but possibly slot 53, where
they differ only as PX_ZERO (encoder) against PX_SEED (decoder). -/
def Obligations.CachesAgree : Prop :=
  ∀ s u : State, encodable s → u.params.pixMemBytes = s.params.pixMemBytes →
    ∃ (out : List Byte) (t v : State), encodeImage s = some (out, t) ∧ decodeStream out u = .next v ∧
      (∀ i : BitVec 6, i ≠ 53 → Cache.read t.enc.cache i = Cache.read v.dec.cache i) ∧
      (Cache.read t.enc.cache 53 = Cache.read v.dec.cache 53 ∨
        Cache.read t.enc.cache 53 = Pixel.zero ∧ Cache.read v.dec.cache 53 = Pixel.seed)

/-! ### Control and registers -/

/-- 43_control.md R253: ENC START initialises and then makes its three checks in order. -/
def Obligations.EncStartRule : Prop :=
  ∀ s : State, s.enc.state ≠ .busy →
    let i : Enc := { s.enc with
      err := .none, outQ := [], outCnt := 0, k := 0, run := 0, prev := ⟨0, 0, 0, 255⟩, cache := Cache.init, phase := .hdr }
    let n := s.enc.width.toNat * s.enc.height.toNat
    encStart s =
      if s.enc.channels ≠ 3 ∧ s.enc.channels ≠ 4 then
        { s with enc := { i with state := .error, err := .invalidChannelCount } }
      else if n = 0 then { s with enc := { i with state := .error, err := .emptyImage } }
      else if s.params.pixMemBytes < n * s.enc.channels.toNat then
        { s with enc := { i with state := .error, err := .bufferTooSmall } }
      else { s with enc := { i with state := .busy } }

/-- 43_control.md R254: DEC START initialises and checks nothing; afterwards DEC_STATUS reads 1 and DEC_IN_FREE reads
IN_DEPTH, where its 32 bits can show that; what it shows of a greater depth is in DecRegisterReads. -/
def Obligations.DecStartRule : Prop :=
  ∀ s : State, s.dec.state ≠ .busy →
    decStart s = { s with dec :=
      { state := .busy, err := .none, phase := .hdr, cur := ⟨0, 0, 0, 255⟩, cache := Cache.init, pos := 0, k := 0,
        w := 0, h := 0, ch := 0, cs := 0, input := [], inLast := false, inOvf := false } } ∧
    decStatus (decStart s).dec = 1 ∧
    (s.params.inDepth < 2 ^ 32 → (inFree s.params (decStart s).dec).toNat = s.params.inDepth)

/-- 43_control.md R252, R255, R256, R262 through the bus: a write of a CTRL register performs ABORT alone if bit 1 is
set; otherwise START if bit 0 is set (ignored while BUSY), and then, for DEC_CTRL, IN_LAST if bit 2 is set (ignored
unless BUSY). -/
def Obligations.CommandPrecedence : Prop :=
  ∀ (s : State) (v : BitVec 64), s.params.wf →
    (v.getLsbD 1 = true →
      writesReg s s.params.encBase v { s with enc := { s.enc with state := .idle, err := .none, outQ := [] } } ∧
      writesReg s s.params.decBase v
        { s with dec := { s.dec with state := .idle, err := .none, input := [], pos := 0, inLast := false } }) ∧
    (v.getLsbD 1 = false →
      writesReg s s.params.encBase v (if v.getLsbD 0 = true ∧ s.enc.state ≠ .busy then encStart s else s) ∧
      (let t := if v.getLsbD 0 = true ∧ s.dec.state ≠ .busy then decStart s else s
       writesReg s s.params.decBase v
        (if v.getLsbD 2 = true ∧ t.dec.state = .busy then { t with dec := { t.dec with inLast := true } } else t)))

/-- 43_control.md R263 through the bus: a byte is pushed or discarded with IN_OVF. -/
def Obligations.PushRule : Prop :=
  ∀ (s : State) (v : BitVec 64), s.params.wf →
    (s.dec.state = .busy → s.dec.inLast = false → s.dec.avail - s.dec.pos.toNat < s.params.inDepth →
      writesReg s (s.params.decBase + 0x24) v
        { s with dec := { s.dec with input := s.dec.input ++ [v.extractLsb' 0 8] } }) ∧
    (s.dec.state ≠ .busy ∨ s.dec.inLast = true ∨ s.params.inDepth ≤ s.dec.avail - s.dec.pos.toNat →
      writesReg s (s.params.decBase + 0x24) v { s with dec := { s.dec with inOvf := true } })

/-- 10_state.md section 5 through the bus: what each ENC register reads, and that only ENC_OUT_DATA has a side effect
(R52: it pops the oldest byte). ENC_OUT_LEVEL of 2^32 or more bytes is the model's free value (log 15). -/
def Obligations.EncRegisterReads : Prop :=
  ∀ s : State, s.params.wf →
    let e := s.enc
    let base := s.params.encBase
    readsReg s base 0 s ∧
    readsReg s (base + 0x04) (stateCode e.state + 2 ^ 8 * errorCode e.err) s ∧
    readsReg s (base + 0x08) e.width.toNat s ∧
    readsReg s (base + 0x0C) e.height.toNat s ∧
    readsReg s (base + 0x10) (e.channels.toNat + 2 ^ 8 * e.colorspace.toNat) s ∧
    readsReg s (base + 0x14) (e.k.toNat % 2 ^ 32) s ∧
    readsReg s (base + 0x18) (e.k.toNat / 2 ^ 32) s ∧
    readsReg s (base + 0x1C) (e.outCnt.toNat % 2 ^ 32) s ∧
    readsReg s (base + 0x20) (e.outCnt.toNat / 2 ^ 32) s ∧
    (e.outQ = [] → readsReg s (base + 0x24) 0 s) ∧
    (∀ b q, e.outQ = b :: q → readsReg s (base + 0x24) (2 ^ 8 + b.toNat) { s with enc := { e with outQ := q } }) ∧
    readsReg s (base + 0x28) (countShown e.outQ.length) s ∧
    (∀ off, 0x2C ≤ off → off < 256 → off % 4 = 0 → readsReg s (base + off) 0 s)

/-- 10_state.md section 6 through the bus: what each DEC register reads, none with a side effect. DEC_IN_FREE of 2^32 or
more free bytes is the model's free value (log 15). -/
def Obligations.DecRegisterReads : Prop :=
  ∀ s : State, s.params.wf →
    let d := s.dec
    let base := s.params.decBase
    let bit (b : Bool) : Nat := if b then 1 else 0
    readsReg s base 0 s ∧
    readsReg s (base + 0x04) (stateCode d.state + 2 ^ 8 * errorCode d.err + 2 ^ 16 * bit d.inOvf +
      2 ^ 17 * bit d.inLast + 2 ^ 18 * bit (decide (d.phase = .body ∧ d.state ≠ .idle))) s ∧
    readsReg s (base + 0x08) d.w.toNat s ∧
    readsReg s (base + 0x0C) d.h.toNat s ∧
    readsReg s (base + 0x10) (d.ch.toNat + 2 ^ 8 * d.cs.toNat) s ∧
    readsReg s (base + 0x14) (d.k.toNat % 2 ^ 32) s ∧
    readsReg s (base + 0x18) (d.k.toNat / 2 ^ 32) s ∧
    readsReg s (base + 0x1C) (d.pos.toNat % 2 ^ 32) s ∧
    readsReg s (base + 0x20) (d.pos.toNat / 2 ^ 32) s ∧
    readsReg s (base + 0x24) 0 s ∧
    readsReg s (base + 0x28)
      (if d.state = .busy ∧ d.inLast = false then countShown (s.params.inDepth - (d.avail - d.pos.toNat)) else 0) s ∧
    (∀ off, 0x2C ≤ off → off < 256 → off % 4 = 0 → readsReg s (base + off) 0 s)

/-- 10_state.md R46 to R53, R55 to R60 through the bus: a configuration write takes effect unless BUSY, and a write of a
read-only or reserved register is ignored. -/
def Obligations.RegisterWrites : Prop :=
  ∀ (s : State) (v : BitVec 64), s.params.wf →
    let base := s.params.encBase
    (s.enc.state = .busy →
      writesReg s (base + 0x08) v s ∧ writesReg s (base + 0x0C) v s ∧ writesReg s (base + 0x10) v s) ∧
    (s.enc.state ≠ .busy →
      writesReg s (base + 0x08) v { s with enc := { s.enc with width := v.setWidth 32 } } ∧
      writesReg s (base + 0x0C) v { s with enc := { s.enc with height := v.setWidth 32 } } ∧
      writesReg s (base + 0x10) v
        { s with enc := { s.enc with channels := v.extractLsb' 0 8, colorspace := v.extractLsb' 8 1 } }) ∧
    (∀ off, off < 256 → off % 4 = 0 → off = 0x04 ∨ 0x14 ≤ off → writesReg s (base + off) v s) ∧
    (∀ off, off < 256 → off % 4 = 0 → 0x04 ≤ off → off ≠ 0x24 → writesReg s (s.params.decBase + off) v s)

/-- 20_memory.md R67: a register access that is not 32-bit, or not at a multiple of 4, is refused by name. -/
def Obligations.RegisterAccessRefused : Prop :=
  ∀ (s : State) (off : Nat) (w : Width) (v : BitVec 64), s.params.wf → off < 256 → (w ≠ .word ∨ off % 4 ≠ 0) →
    hostRead (s.params.encBase + off) w s = .refused .registerAccess ∧
    hostWrite (s.params.encBase + off) w v s = .refused .registerAccess ∧
    hostRead (s.params.decBase + off) w s = .refused .registerAccess ∧
    hostWrite (s.params.decBase + off) w v s = .refused .registerAccess

/-- 20_memory.md R61, R72, R75, R76: a host write of a pixel byte changes that byte alone, and a read sees the last write
before it; PIX_E and PIX_D are written alike. An access of 1, 2, 4 or 8 bytes inside a pixel memory completes, byte by
byte in the bus order (log 7); one that runs past its end, and one at an address of no region, stop as unmapped (log 7,
log 12). -/
def Obligations.PixelMemoryAccess : Prop :=
  (∀ (s : State) (x : Nat) (v : BitVec 64), s.params.wf → x < s.params.pixMemBytes →
    (∃ m : Memory, hostWrite (s.params.pixeBase + x) .byte v s = .next { s with pixE := m } ∧
      (∀ y, Memory.lookup m y = if y = x then some (v.extractLsb' 0 8) else Memory.lookup s.pixE y) ∧
      hostRead (s.params.pixeBase + x) .byte { s with pixE := m } =
        .next { s with
          pixE := m
          replies := s.replies ++ [(v.extractLsb' 0 8).setWidth 64]
          draws := s.draws + 1 }) ∧
    (∃ m : Memory, hostWrite (s.params.pixdBase + x) .byte v s = .next { s with pixD := m } ∧
      ∀ y, Memory.lookup m y = if y = x then some (v.extractLsb' 0 8) else Memory.lookup s.pixD y)) ∧
  (∀ (s : State) (x : Nat) (w : Width) (v : BitVec 64), s.params.wf → x + w.bytes ≤ s.params.pixMemBytes →
    (∃ m : Memory, hostWrite (s.params.pixeBase + x) w v s = .next { s with pixE := m } ∧
      ∀ y, Memory.lookup m y = if x ≤ y ∧ y < x + w.bytes then some (busByte s.params.busOrder w v (y - x))
        else Memory.lookup s.pixE y) ∧
    (∃ m : Memory, hostWrite (s.params.pixdBase + x) w v s = .next { s with pixD := m } ∧
      ∀ y, Memory.lookup m y = if x ≤ y ∧ y < x + w.bytes then some (busByte s.params.busOrder w v (y - x))
        else Memory.lookup s.pixD y) ∧
    (∃ r : BitVec 64, hostRead (s.params.pixeBase + x) w s =
        .next { s with replies := s.replies ++ [r], draws := s.draws + w.bytes } ∧ r.toNat < 2 ^ (8 * w.bytes) ∧
      ∀ j b, j < w.bytes → Memory.lookup s.pixE (x + j) = some b → busByte s.params.busOrder w r j = b) ∧
    (∃ r : BitVec 64, hostRead (s.params.pixdBase + x) w s =
        .next { s with replies := s.replies ++ [r], draws := s.draws + w.bytes } ∧ r.toNat < 2 ^ (8 * w.bytes) ∧
      ∀ j b, j < w.bytes → x + j < s.dec.k.toNat * s.dec.ch.toNat → Memory.lookup s.pixD (x + j) = some b →
        busByte s.params.busOrder w r j = b)) ∧
  (∀ (s : State) (a : Nat) (w : Width) (v : BitVec 64),
    unmapped s.params a ∨ s.params.wf ∧ pastEnd s.params a w →
    hostRead a w s = .fault .unmappedAddress ∧ hostWrite a w v s = .fault .unmappedAddress)

/-- 20_memory.md R73: the host reads a pixel byte below DEC.k·CH as it was written, and a byte at or above it as a free
value; a byte nothing has written is a free value too (R341). Holds for every value of the free byte. -/
def Obligations.PixelReadsAndDraws : Prop :=
  ∀ (s : State) (x : Nat), s.params.wf → x < s.params.pixMemBytes →
    (∀ v, x < s.dec.k.toNat * s.dec.ch.toNat → Memory.lookup s.pixD x = some v →
      hostRead (s.params.pixdBase + x) .byte s =
        .next { s with replies := s.replies ++ [v.setWidth 64], draws := s.draws + 1 }) ∧
    (s.dec.k.toNat * s.dec.ch.toNat ≤ x ∨ Memory.lookup s.pixD x = none →
      hostRead (s.params.pixdBase + x) .byte s =
        .next { s with replies := s.replies ++ [(Config.freeByte s.draws).setWidth 64], draws := s.draws + 1 }) ∧
    (Memory.lookup s.pixE x = none →
      hostRead (s.params.pixeBase + x) .byte s =
        .next { s with replies := s.replies ++ [(Config.freeByte s.draws).setWidth 64], draws := s.draws + 1 })

/-! ### Reset -/

/-- 70_reset_and_hazards.md R340, R341: reset, at any time, makes both engines idle without an error, empties the
FIFOs, clears the counters and the registers, and every register reads 0. The fields R341 calls unspecified are left
out. -/
def Obligations.ResetRule : Prop :=
  (∀ s : State, ∃ t, hostAct .reset s = .next t ∧ t.params = s.params ∧
    (t.enc.state = .idle ∧ t.enc.err = .none ∧ t.enc.k = 0 ∧ t.enc.outCnt = 0 ∧ t.enc.outQ = [] ∧
      t.enc.width = 0 ∧ t.enc.height = 0 ∧ t.enc.channels = 0 ∧ t.enc.colorspace = 0) ∧
    (t.dec.state = .idle ∧ t.dec.err = .none ∧ t.dec.pos = 0 ∧ t.dec.k = 0 ∧ t.dec.w = 0 ∧ t.dec.h = 0 ∧
      t.dec.ch = 0 ∧ t.dec.cs = 0 ∧ t.dec.input = [] ∧ t.dec.avail = 0 ∧ t.dec.inLast = false ∧
      t.dec.inOvf = false) ∧
    (∀ r, encRegValue t.enc r = 0) ∧ (∀ r, decRegValue t.params t.dec r = 0)) ∧
  (∀ p : Config.Params,
    let t := State.resetOf p
    (t.enc.state = .idle ∧ t.enc.err = .none ∧ t.enc.k = 0 ∧ t.enc.outCnt = 0 ∧ t.enc.outQ = [] ∧
      t.enc.width = 0 ∧ t.enc.height = 0 ∧ t.enc.channels = 0 ∧ t.enc.colorspace = 0) ∧
    (t.dec.state = .idle ∧ t.dec.err = .none ∧ t.dec.pos = 0 ∧ t.dec.k = 0 ∧ t.dec.w = 0 ∧ t.dec.h = 0 ∧
      t.dec.ch = 0 ∧ t.dec.cs = 0 ∧ t.dec.input = [] ∧ t.dec.avail = 0 ∧ t.dec.inLast = false ∧
      t.dec.inOvf = false) ∧
    (∀ r, encRegValue t.enc r = 0) ∧ (∀ r, decRegValue t.params t.dec r = 0))

/-! ### The whole machine -/

/-- The invariant holds after reset on every legal platform. -/
def Obligations.InvAtReset : Prop := ∀ p : Config.Params, p.wf → (State.resetOf p).Inv

/-- Every step keeps the invariant: canonical pixel memories in range, FIFO depths, admitted sessions, counters that do
not overflow (00_scope.md R11; 10_state.md R27, R30, R37, R39; 60_exceptions.md R305). -/
def Obligations.InvKept : Prop := ∀ s t : State, s.Inv → step s = .next t → t.Inv

/-- 20_memory.md R62, 60_exceptions.md R305: from a state of the invariant no engine access is out of range; a step
stops only on the host's turn, and only where the host's next access is at an address of no region or runs past the
pixel memory it starts in (R61; log 7, log 12), or is a register access that R67 does not support. -/
def Obligations.EngineNeverOutOfRange : Prop :=
  ∀ s : State, s.Inv → inRangeOutcome (step s) ∧
    ((∃ t, step s = .next t) ∨ (s.turn = .host ∧ ∃ a w, accesses s.beginTurn.nextAct a w ∧
      (step s = .fault .unmappedAddress ∧ (unmapped s.params a ∨ pastEnd s.params a w) ∨
        step s = .refused .registerAccess ∧ unsupported s.params a w)))

/-- 43_control.md R267: neither engine's turn reads or writes the other engine or its pixel memory. -/
def Obligations.EnginesIndependent : Prop :=
  (∀ (s : State) (e : Enc) (m : Memory),
    decTurn { s with enc := e, pixE := m } = mapNext (fun t => { t with enc := e, pixE := m }) (decTurn s)) ∧
  (∀ (s : State) (d : Dec) (m : Memory),
    encTurn { s with dec := d, pixD := m } = mapNext (fun t => { t with dec := d, pixD := m }) (encTurn s)) ∧
  (∀ s t : State, decTurn s = .next t → t.enc = s.enc ∧ t.pixE = s.pixE) ∧
  (∀ s t : State, encTurn s = .next t → t.dec = s.dec ∧ t.pixD = s.pixD ∧ t.pixE = s.pixE)

/-- A step runs the decoded instruction: when it is DEC's turn and DEC's step is enabled, the item the bytes at DEC.pos
decode to is executed, on the state with only the turn taken from the schedule. -/
def Obligations.StepRunsDecoded : Prop :=
  ∀ (s : State) (i : Instr) (rest : List Byte), s.turn = .dec → decEnabled s.dec = true →
    (s.dec.phase = .body → (s.dec.k.toNat ≠ s.dec.n ∨ i = .endMark) → decodeBody s.dec.fifo = .ok (i, rest) →
      step s = exec i s.beginTurn) ∧
    (s.dec.phase = .hdr → decodeHeader s.dec.input = .ok (i, rest) → step s = exec i s.beginTurn) ∧
    (∃ n, s.beginTurn = { s with sched := s.sched.tail, draws := n })

/-- 43_control.md R251: any agent may be the next to move; beyond the fixed turns only an agent with an enabled step
moves; where neither engine has one, HOST moves, which always has one: the oldest act of its list, and a free act where
the list is empty (log 3, log 6). -/
def Obligations.AnyAgentMayMove : Prop :=
  (∀ (s : State) (a : Agent) (tl : List Agent), s.sched = a :: tl → step s = agentTurn a { s with sched := tl }) ∧
  (∀ s : State, s.sched = [] → s.enabled s.turn = true) ∧
  (∀ s : State, s.sched = [] → encEnabled s.params s.enc = false → decEnabled s.dec = false → step s = hostTurn s) ∧
  (∀ (s : State) (a : HostAct) (rest : List HostAct), s.hostQ = a :: rest →
    hostTurn s = hostAct a { s with hostQ := rest }) ∧
  (∀ s : State, s.hostQ = [] → hostTurn s = hostAct (Config.freeAct s.draws) { s with draws := s.draws + 1 })

/-- 43_control.md R257: how STATE changes in a step: DEC's turn takes BUSY to DONE or ERROR, ENC's turn takes BUSY to
DONE only, an engine that is not BUSY takes no step, and every other change is a host act. -/
def Obligations.LifeCycle : Prop :=
  ∀ s t : State, step s = .next t →
    (t.dec.state = s.dec.state ∨
      s.turn = .dec ∧ s.dec.state = .busy ∧ (t.dec.state = .done ∨ t.dec.state = .error) ∨
      s.turn = .host ∧ (t.dec.state = .idle ∨ t.dec.state = .busy)) ∧
    (t.enc.state = s.enc.state ∨
      s.turn = .enc ∧ s.enc.state = .busy ∧ t.enc.state = .done ∨
      s.turn = .host ∧ (t.enc.state = .idle ∨ t.enc.state = .busy ∨ t.enc.state = .error)) ∧
    (s.turn = .dec → s.dec.state ≠ .busy → t.dec = s.dec ∧ t.pixD = s.pixD) ∧
    (s.turn = .enc → s.enc.state ≠ .busy → t.enc = s.enc)

/-- 43_control.md R252: START is the only operation that makes an engine BUSY: only a 32-bit write of its CTRL register
with bit 0 set and bit 1 clear, as the host's next act. -/
def Obligations.OnlyStartMakesBusy : Prop :=
  ∀ s t : State, step s = .next t →
    (s.dec.state ≠ .busy → t.dec.state = .busy → s.turn = .host ∧ ∃ v,
      s.beginTurn.nextAct = .write s.params.decBase .word v ∧ v.getLsbD 0 = true ∧ v.getLsbD 1 = false) ∧
    (s.enc.state ≠ .busy → t.enc.state = .busy → s.turn = .host ∧ ∃ v,
      s.beginTurn.nextAct = .write s.params.encBase .word v ∧ v.getLsbD 0 = true ∧ v.getLsbD 1 = false)
end

