-- ==== Sys2Proof/Laws/Cache.lean ====
section
/-!
SUPPORT. The color_cache_lookup unit (40_format_and_cache.md R120 to R125) and the pixels' sizes.
-/

namespace Sys2Proof.Machine

variable (c : Cache) (p : Pixel) (i : BitVec 6)

@[simp] theorem Cache.read_init : Cache.read Cache.init i = Pixel.zero := by
  simp [Cache.read, Cache.init, Vector.get]

@[simp] theorem Cache.read_insert :
    Cache.read (Cache.insert c p) i = if i = pixelHash p then p else Cache.read c i := by
  have e : ∀ (c : Cache) (i : BitVec 6), Cache.read c i = getElem c i.toNat i.isLt := fun _ _ => rfl
  rw [e, e]
  simp only [Cache.insert, Vector.getElem_set, BitVec.toNat_inj, eq_comm]

@[simp] theorem Cache.hit_iff : Cache.hit c p = true ↔ Cache.read c (pixelHash p) = p := by
  simp [Cache.hit]

theorem Cache.placed_init : Cache.placed Cache.init := fun i => .inl (Cache.read_init i)

theorem Cache.placed_insert {c : Cache} (h : Cache.placed c) (p : Pixel) : Cache.placed (Cache.insert c p) := by
  intro i
  rw [Cache.read_insert]
  split
  · subst_vars; exact .inr rfl
  · exact h i

/-- Inserting what the slot already holds changes nothing (R125). -/
theorem Cache.insert_of_read {c : Cache} {p : Pixel} (h : Cache.read c (pixelHash p) = p) : Cache.insert c p = c := by
  have e : getElem c (pixelHash p).toNat (pixelHash p).isLt = p := h
  ext j hj : 1
  simp only [Cache.insert, Vector.getElem_set]
  split
  · subst_vars; exact e.symm
  · rfl

@[simp] theorem Cache.insert_insert : Cache.insert (Cache.insert c p) p = Cache.insert c p :=
  Cache.insert_of_read (by simp)

@[simp] theorem pixelBytes_length (ch : Byte) : (pixelBytes ch p).length = pixelSize ch := by
  simp only [pixelBytes, pixelSize]; split <;> rfl

theorem pixelSize_pos (ch : Byte) : 0 < pixelSize ch := by
  simp only [pixelSize]; split <;> omega

theorem pixelSize_le (ch : Byte) : pixelSize ch ≤ 4 := by
  simp only [pixelSize]; split <;> omega

theorem pixelSize_of_legal {ch : Byte} (h : ch = 3 ∨ ch = 4) : pixelSize ch = ch.toNat := by
  rcases h with rfl | rfl <;> rfl

@[simp] theorem pixelOfBytes_pixelBytes_four : pixelOfBytes 4 (pixelBytes 4 p) = p := rfl

@[simp] theorem pixelBytes_pixelOfBytes_three (b0 b1 b2 : Byte) :
    pixelBytes 3 (pixelOfBytes 3 [b0, b1, b2]) = [b0, b1, b2] := rfl

@[simp] theorem pixelBytes_pixelOfBytes_four (b0 b1 b2 b3 : Byte) :
    pixelBytes 4 (pixelOfBytes 4 [b0, b1, b2, b3]) = [b0, b1, b2, b3] := rfl

/-- The size checks pass exactly for the images of `imageOk`. -/
theorem imageError_none_iff (m : Nat) (w h : Word) (ch : Byte) :
    imageError? m w h ch = none ↔ imageOk m w h ch := by
  simp only [imageError?, imageOk]
  generalize pixelCount w h * ch.toNat = x
  by_cases h1 : ch = 3 ∨ ch = 4
  · have h1' : ¬ (ch ≠ 3 ∧ ch ≠ 4) := by tauto
    rw [if_neg h1']
    by_cases h2 : pixelCount w h = 0
    · simp [h2]
    · rw [if_neg h2]
      by_cases h3 : m < x
      · simp [h3]
      · rw [if_neg h3]; exact ⟨fun _ => ⟨h1, by omega, by omega⟩, fun _ => rfl⟩
  · have h1' : ch ≠ 3 ∧ ch ≠ 4 := by tauto
    rw [if_pos h1']
    exact ⟨fun h => (by cases h), fun h => absurd h.1 h1⟩

/-- A failed size check has a code of its own, never NONE. -/
theorem imageError_ne_none {m : Nat} {w h : Word} {ch : Byte} {c : ErrCode} (e : imageError? m w h ch = some c) :
    c ≠ .none := by
  simp only [imageError?] at e
  split at e
  · cases e; simp
  · split at e
    · cases e; simp
    · split at e
      · cases e; simp
      · cases e

/-- N of an admitted image is below 2^48, so no count of a session overflows (00_scope.md R11). -/
theorem imageOk_count_lt {m : Nat} {w h : Word} {ch : Byte} (e : imageOk m w h ch) (hm : m ≤ 2 ^ 48) :
    3 * pixelCount w h ≤ 2 ^ 48 := by
  obtain ⟨h1 | h1, -, h3⟩ := e <;> subst h1 <;> simp at h3 <;> omega

end Sys2Proof.Machine
end

