-- ==== Sys2Proof/Laws/Codec.lean ====
section
/-!
SUPPORT. Lengths of items and of opcodes, and what the decoder's answers imply (30_encoding.md R93, R94).
-/

namespace Sys2Proof

theorem oplen_pos (t : Byte) : 1 ≤ oplen t := by
  simp only [oplen]; split_ifs <;> omega

theorem oplen_le (t : Byte) : oplen t ≤ 5 := by
  simp only [oplen]; split_ifs <;> omega

/-- An opcode, not a framing item. -/
def Instr.isOpcode : Instr → Bool
  | .endMark => false
  | .header _ _ _ _ => false
  | .rgba _ _ _ _ => true
  | .rgb _ _ _ => true
  | .index _ => true
  | .diff _ _ _ => true
  | .luma _ _ _ => true
  | .run _ => true

theorem assemble_size (t : Byte) (rest : List Byte) : (assemble t rest).size = oplen t := by
  simp only [assemble, oplen]
  split_ifs <;> simp_all [Instr.size]

theorem assemble_isOpcode (t : Byte) (rest : List Byte) : (assemble t rest).isOpcode = true := by
  simp only [assemble]
  split_ifs <;> rfl

/-- A biased field of n bits lies between −bias and 2^n − 1 − bias. -/
theorem biased_range {n : Nat} (bias : Int) (f : BitVec n) :
    -bias ≤ biased bias f ∧ biased bias f ≤ 2 ^ n - 1 - bias := by
  have h := f.isLt
  have h' : (f.toNat : Int) < 2 ^ n := by exact_mod_cast h
  simp only [biased]
  omega

theorem inRange_of_biased {n : Nat} {lo hi bias : Int} (f : BitVec n) (h1 : lo = -bias) (h2 : hi = 2 ^ n - 1 - bias) :
    inRange lo hi (biased bias f) = true := by
  have := biased_range bias f
  simp only [inRange, decide_eq_true_eq]
  omega

/-- The field of a run whose tag is neither RGB nor RGBA is at most 61 (R97). -/
theorem run_field_le {t : Byte} (h1 : t ≠ 0xFF) (h2 : t ≠ 0xFE) (h3 : t.extractLsb' 6 2 = 0b11#2) :
    (t.extractLsb' 0 6).toNat ≤ 61 := by
  revert t; decide +kernel

/-- Every item the decoder assembles has its operands in range. -/
theorem assemble_wf (t : Byte) (rest : List Byte) : (assemble t rest).wf = true := by
  simp only [assemble]
  split_ifs with h1 h2 h3 h4 h5
  · rfl
  · rfl
  · rfl
  · simp only [Instr.wf, Bool.and_eq_true]
    exact ⟨⟨inRange_of_biased _ rfl rfl, inRange_of_biased _ rfl rfl⟩, inRange_of_biased _ rfl rfl⟩
  · simp only [Instr.wf, Bool.and_eq_true]
    exact ⟨⟨inRange_of_biased _ rfl rfl, inRange_of_biased _ rfl rfl⟩, inRange_of_biased _ rfl rfl⟩
  · have h6 : t.extractLsb' 6 2 = 0b11#2 := by
      revert h3 h4 h5
      generalize t.extractLsb' 6 2 = x
      revert x; decide
    have := run_field_le h1 h2 h6
    simp only [Instr.wf, decide_eq_true_eq]
    omega

theorem decodeOp_ok {bs : List Byte} {i : Instr} {rest : List Byte} (h : decodeOp bs = .ok (i, rest)) :
    ∃ t tl, bs = t :: tl ∧ oplen t ≤ bs.length ∧ i = assemble t tl ∧ rest = bs.drop (oplen t) := by
  cases bs with
  | nil => cases h
  | cons t tl =>
    simp only [decodeOp] at h
    split at h
    · cases h
    · injection h with h
      injection h with h1 h2
      refine ⟨t, tl, rfl, by simp only [List.length_cons]; omega, h1.symm, ?_⟩
      obtain ⟨n, hn⟩ : ∃ n, oplen t = n + 1 := ⟨oplen t - 1, by have := oplen_pos t; omega⟩
      rw [← h2, hn]; simp

theorem isMarker_iff (bs : List Byte) : isMarker bs = true ↔ ∃ rest, bs = marker ++ rest := by
  simp only [isMarker, beq_iff_eq]
  constructor
  · intro h; exact ⟨bs.drop 8, by rw [← h, List.take_append_drop]⟩
  · rintro ⟨rest, rfl⟩; rfl

theorem isMarker_length {bs : List Byte} (h : isMarker bs = true) : 8 ≤ bs.length := by
  obtain ⟨rest, rfl⟩ := (isMarker_iff bs).1 h
  simp [marker]

theorem decodeHeader_ok {bs : List Byte} {i : Instr} {rest : List Byte} (h : decodeHeader bs = .ok (i, rest)) :
    (∃ w h ch cs, i = .header w h ch cs) ∧ bs.length = rest.length + 14 := by
  simp only [decodeHeader] at h
  split at h
  · rename_i hm
    split at h
    · rename_i hd
      injection h with h
      injection h with h1 h2
      subst h2
      have := congrArg List.length hd
      simp only [List.length_drop, List.length_cons] at this
      exact ⟨⟨_, _, _, _, h1.symm⟩, by omega⟩
    · cases h
  · cases h

theorem bytesBE_length (v : Word) : (bytesBE v).length = 4 := rfl

@[simp] theorem hdr_length (w h : Word) (ch cs : Byte) : (hdr w h ch cs).length = 14 := rfl

@[simp] theorem tableBytes_length (nbits w : Nat) : (tableBytes nbits w).length = 14 := by
  simp [tableBytes, longest]

end Sys2Proof
end

