-- ==== Sys2Proof/Laws/Memory.lean ====
section
/-!
SUPPORT. The pixel memories: a read after a write, the canonical form and the range kept by every memory operation.
-/

namespace Sys2Proof.Machine

variable (m : Memory)

@[simp] theorem Memory.lookup_nil (x : Nat) : Memory.lookup [] x = none := rfl

@[simp] theorem Memory.lookup_write (x : Nat) (v : Byte) (y : Nat) :
    Memory.lookup (Memory.write m x v) y = if y = x then some v else Memory.lookup m y := by
  induction m with
  | nil => simp [Memory.write, Memory.lookup]
  | cons c m ih =>
    obtain ⟨a, u⟩ := c
    simp only [Memory.write]
    split
    · simp [Memory.lookup]
    · split
      · subst_vars; simp only [Memory.lookup]; split <;> simp_all
      · simp only [Memory.lookup, ih]; split <;> split <;> simp_all

/-- What a sequence written at a reads as: its own bytes there, the old bytes everywhere else. -/
theorem Memory.lookup_writeBytes (a : Nat) (vs : List Byte) (y : Nat) :
    Memory.lookup (Memory.writeBytes m a vs) y =
      if a ≤ y ∧ y < a + vs.length then vs[y - a]? else Memory.lookup m y := by
  induction vs generalizing m a with
  | nil => simp [Memory.writeBytes]
  | cons v vs ih =>
    simp only [Memory.writeBytes, ih, Memory.lookup_write, List.length_cons]
    by_cases h : y = a
    · subst h; simp
    · by_cases h2 : a + 1 ≤ y ∧ y < a + 1 + vs.length
      · have h3 : a ≤ y ∧ y < a + (vs.length + 1) := by omega
        obtain ⟨j, hj⟩ : ∃ j, y - a = j + 1 := ⟨y - a - 1, by omega⟩
        have hj' : y - (a + 1) = j := by omega
        rw [if_pos h2, if_pos h3, hj, hj', List.getElem?_cons_succ]
      · have h3 : ¬ (a ≤ y ∧ y < a + (vs.length + 1)) := by omega
        rw [if_neg h2, if_neg h3, if_neg h]

theorem Memory.lookup_writeBytes_outside {a : Nat} {vs : List Byte} {y : Nat} (h : y < a ∨ a + vs.length ≤ y) :
    Memory.lookup (Memory.writeBytes m a vs) y = Memory.lookup m y := by
  rw [Memory.lookup_writeBytes, if_neg]; omega

theorem Memory.mem_write {x : Nat} {v : Byte} {c : Host.Cell} (h : c ∈ Memory.write m x v) : c = (x, v) ∨ c ∈ m := by
  induction m with
  | nil => simpa [Memory.write] using h
  | cons d m ih =>
    obtain ⟨a, u⟩ := d
    simp only [Memory.write] at h
    split at h
    · simpa using h
    · split at h
      · rcases List.mem_cons.1 h with h | h
        · exact .inl h
        · exact .inr (List.mem_cons_of_mem _ h)
      · rcases List.mem_cons.1 h with h | h
        · exact .inr (by simp [h])
        · exact (ih h).imp id (List.mem_cons_of_mem _)

theorem Memory.write_wf {m : Memory} (h : Memory.wf m) (x : Nat) (v : Byte) : Memory.wf (Memory.write m x v) := by
  induction m with
  | nil => simp [Memory.write]
  | cons d m ih =>
    obtain ⟨a, u⟩ := d
    have ⟨h1, h2⟩ := List.pairwise_cons.1 h
    simp only [Memory.write]
    split
    · refine List.pairwise_cons.2 ⟨fun c hc => ?_, h⟩
      rcases List.mem_cons.1 hc with rfl | hc
      · assumption
      · have := h1 c hc; simp_all; omega
    · split
      · subst_vars; exact List.pairwise_cons.2 ⟨h1, h2⟩
      · refine List.pairwise_cons.2 ⟨fun c hc => ?_, ih h2⟩
        rcases Memory.mem_write m hc with rfl | hc
        · simp; omega
        · exact h1 c hc

theorem Memory.writeBytes_wf {m : Memory} (h : Memory.wf m) (a : Nat) (vs : List Byte) :
    Memory.wf (Memory.writeBytes m a vs) := by
  induction vs generalizing m a with
  | nil => exact h
  | cons v vs ih => exact ih (Memory.write_wf h a v) (a + 1)

theorem Memory.write_below {m : Memory} {n : Nat} (h : Memory.below m n) {x : Nat} (hx : x < n) (v : Byte) :
    Memory.below (Memory.write m x v) n := by
  intro c hc
  rcases Memory.mem_write m hc with rfl | hc
  · exact hx
  · exact h c hc

theorem Memory.writeBytes_below {m : Memory} {n : Nat} (h : Memory.below m n) {a : Nat} {vs : List Byte}
    (ha : a + vs.length ≤ n) : Memory.below (Memory.writeBytes m a vs) n := by
  induction vs generalizing m a with
  | nil => exact h
  | cons v vs ih =>
    simp only [List.length_cons] at ha
    exact ih (Memory.write_below h (by omega) v) (by omega)

theorem Memory.writeBytes_append (a : Nat) (us vs : List Byte) :
    Memory.writeBytes m a (us ++ vs) = Memory.writeBytes (Memory.writeBytes m a us) (a + us.length) vs := by
  induction us generalizing m a with
  | nil => rfl
  | cons u us ih =>
    simp only [List.cons_append, Memory.writeBytes, ih, List.length_cons]
    rw [Nat.add_right_comm, Nat.add_assoc]

@[simp] theorem Memory.byteAt_of_lookup {d a : Nat} {v : Byte} (h : Memory.lookup m a = some v) :
    Memory.byteAt m d a = v := by
  simp [Memory.byteAt, h]

@[simp] theorem Memory.bytesAt_length (d a n : Nat) : (Memory.bytesAt m d a n).length = n := by
  simp [Memory.bytesAt]

/-- The pixel memories are canonical after reset. -/
theorem State.resetOf_memories_wf (p : Config.Params) :
    Memory.wf (State.resetOf p).pixE ∧ Memory.wf (State.resetOf p).pixD := ⟨List.Pairwise.nil, List.Pairwise.nil⟩

end Sys2Proof.Machine
end

