-- ==== Sys2Proof/Laws/State.lean ====
section
/-!
SUPPORT. One lemma per field of State per update, true by rfl and tagged simp, so that no proof unfolds a record update.
-/

namespace Sys2Proof.Machine

variable (s : State)

/-! ### raiseEnc -/

@[simp] theorem State.raiseEnc_params (c : ErrCode) : (s.raiseEnc c).params = s.params := rfl
@[simp] theorem State.raiseEnc_enc (c : ErrCode) : (s.raiseEnc c).enc =
    { s.enc with state := .error, err := c } := rfl
@[simp] theorem State.raiseEnc_dec (c : ErrCode) : (s.raiseEnc c).dec = s.dec := rfl
@[simp] theorem State.raiseEnc_pixE (c : ErrCode) : (s.raiseEnc c).pixE = s.pixE := rfl
@[simp] theorem State.raiseEnc_pixD (c : ErrCode) : (s.raiseEnc c).pixD = s.pixD := rfl
@[simp] theorem State.raiseEnc_hostQ (c : ErrCode) : (s.raiseEnc c).hostQ = s.hostQ := rfl
@[simp] theorem State.raiseEnc_replies (c : ErrCode) : (s.raiseEnc c).replies = s.replies := rfl
@[simp] theorem State.raiseEnc_sched (c : ErrCode) : (s.raiseEnc c).sched = s.sched := rfl
@[simp] theorem State.raiseEnc_draws (c : ErrCode) : (s.raiseEnc c).draws = s.draws := rfl

/-! ### raiseDec -/

@[simp] theorem State.raiseDec_params (c : ErrCode) : (s.raiseDec c).params = s.params := rfl
@[simp] theorem State.raiseDec_enc (c : ErrCode) : (s.raiseDec c).enc = s.enc := rfl
@[simp] theorem State.raiseDec_dec (c : ErrCode) : (s.raiseDec c).dec =
    { s.dec with state := .error, err := c } := rfl
@[simp] theorem State.raiseDec_pixE (c : ErrCode) : (s.raiseDec c).pixE = s.pixE := rfl
@[simp] theorem State.raiseDec_pixD (c : ErrCode) : (s.raiseDec c).pixD = s.pixD := rfl
@[simp] theorem State.raiseDec_hostQ (c : ErrCode) : (s.raiseDec c).hostQ = s.hostQ := rfl
@[simp] theorem State.raiseDec_replies (c : ErrCode) : (s.raiseDec c).replies = s.replies := rfl
@[simp] theorem State.raiseDec_sched (c : ErrCode) : (s.raiseDec c).sched = s.sched := rfl
@[simp] theorem State.raiseDec_draws (c : ErrCode) : (s.raiseDec c).draws = s.draws := rfl

/-! ### emit -/

@[simp] theorem State.emit_params (bs : List Byte) : (s.emit bs).params = s.params := rfl
@[simp] theorem State.emit_enc (bs : List Byte) : (s.emit bs).enc =
    { s.enc with outQ := s.enc.outQ ++ bs, outCnt := s.enc.outCnt + BitVec.ofNat 64 bs.length } := rfl
@[simp] theorem State.emit_dec (bs : List Byte) : (s.emit bs).dec = s.dec := rfl
@[simp] theorem State.emit_pixE (bs : List Byte) : (s.emit bs).pixE = s.pixE := rfl
@[simp] theorem State.emit_pixD (bs : List Byte) : (s.emit bs).pixD = s.pixD := rfl
@[simp] theorem State.emit_hostQ (bs : List Byte) : (s.emit bs).hostQ = s.hostQ := rfl
@[simp] theorem State.emit_replies (bs : List Byte) : (s.emit bs).replies = s.replies := rfl
@[simp] theorem State.emit_sched (bs : List Byte) : (s.emit bs).sched = s.sched := rfl
@[simp] theorem State.emit_draws (bs : List Byte) : (s.emit bs).draws = s.draws := rfl

/-! ### advance -/

@[simp] theorem State.advance_params (n : Nat) : (s.advance n).params = s.params := rfl
@[simp] theorem State.advance_enc (n : Nat) : (s.advance n).enc = s.enc := rfl
@[simp] theorem State.advance_dec (n : Nat) : (s.advance n).dec =
    { s.dec with pos := s.dec.pos + BitVec.ofNat 64 n } := rfl
@[simp] theorem State.advance_pixE (n : Nat) : (s.advance n).pixE = s.pixE := rfl
@[simp] theorem State.advance_pixD (n : Nat) : (s.advance n).pixD = s.pixD := rfl
@[simp] theorem State.advance_hostQ (n : Nat) : (s.advance n).hostQ = s.hostQ := rfl
@[simp] theorem State.advance_replies (n : Nat) : (s.advance n).replies = s.replies := rfl
@[simp] theorem State.advance_sched (n : Nat) : (s.advance n).sched = s.sched := rfl
@[simp] theorem State.advance_draws (n : Nat) : (s.advance n).draws = s.draws := rfl

/-! ### setCur -/

@[simp] theorem State.setCur_params (p : Pixel) : (s.setCur p).params = s.params := rfl
@[simp] theorem State.setCur_enc (p : Pixel) : (s.setCur p).enc = s.enc := rfl
@[simp] theorem State.setCur_dec (p : Pixel) : (s.setCur p).dec = { s.dec with cur := p } := rfl
@[simp] theorem State.setCur_pixE (p : Pixel) : (s.setCur p).pixE = s.pixE := rfl
@[simp] theorem State.setCur_pixD (p : Pixel) : (s.setCur p).pixD = s.pixD := rfl
@[simp] theorem State.setCur_hostQ (p : Pixel) : (s.setCur p).hostQ = s.hostQ := rfl
@[simp] theorem State.setCur_replies (p : Pixel) : (s.setCur p).replies = s.replies := rfl
@[simp] theorem State.setCur_sched (p : Pixel) : (s.setCur p).sched = s.sched := rfl
@[simp] theorem State.setCur_draws (p : Pixel) : (s.setCur p).draws = s.draws := rfl

/-! ### storePixel -/

@[simp] theorem State.storePixel_params (p : Pixel) : (s.storePixel p).params = s.params := rfl
@[simp] theorem State.storePixel_enc (p : Pixel) : (s.storePixel p).enc = s.enc := rfl
@[simp] theorem State.storePixel_dec (p : Pixel) : (s.storePixel p).dec =
    { s.dec with cache := Cache.insert s.dec.cache p, k := s.dec.k + 1 } := rfl
@[simp] theorem State.storePixel_pixE (p : Pixel) : (s.storePixel p).pixE = s.pixE := rfl
@[simp] theorem State.storePixel_pixD (p : Pixel) : (s.storePixel p).pixD =
    Memory.writeBytes s.pixD s.dec.pixelAddr (pixelBytes s.dec.ch p) := rfl
@[simp] theorem State.storePixel_hostQ (p : Pixel) : (s.storePixel p).hostQ = s.hostQ := rfl
@[simp] theorem State.storePixel_replies (p : Pixel) : (s.storePixel p).replies = s.replies := rfl
@[simp] theorem State.storePixel_sched (p : Pixel) : (s.storePixel p).sched = s.sched := rfl
@[simp] theorem State.storePixel_draws (p : Pixel) : (s.storePixel p).draws = s.draws := rfl

/-! ### setHeader -/

@[simp] theorem State.setHeader_params (w h : Word) (ch cs : Byte) : (s.setHeader w h ch cs).params = s.params := rfl
@[simp] theorem State.setHeader_enc (w h : Word) (ch cs : Byte) : (s.setHeader w h ch cs).enc = s.enc := rfl
@[simp] theorem State.setHeader_dec (w h : Word) (ch cs : Byte) : (s.setHeader w h ch cs).dec =
    { s.dec with w := w, h := h, ch := ch, cs := cs } := rfl
@[simp] theorem State.setHeader_pixE (w h : Word) (ch cs : Byte) : (s.setHeader w h ch cs).pixE = s.pixE := rfl
@[simp] theorem State.setHeader_pixD (w h : Word) (ch cs : Byte) : (s.setHeader w h ch cs).pixD = s.pixD := rfl
@[simp] theorem State.setHeader_hostQ (w h : Word) (ch cs : Byte) : (s.setHeader w h ch cs).hostQ = s.hostQ := rfl
@[simp] theorem State.setHeader_replies (w h : Word) (ch cs : Byte) : (s.setHeader w h ch cs).replies =
    s.replies := rfl
@[simp] theorem State.setHeader_sched (w h : Word) (ch cs : Byte) : (s.setHeader w h ch cs).sched = s.sched := rfl
@[simp] theorem State.setHeader_draws (w h : Word) (ch cs : Byte) : (s.setHeader w h ch cs).draws = s.draws := rfl

/-! ### beginBody -/

@[simp] theorem State.beginBody_params : s.beginBody.params = s.params := rfl
@[simp] theorem State.beginBody_enc : s.beginBody.enc = s.enc := rfl
@[simp] theorem State.beginBody_dec : s.beginBody.dec = { s.dec with pos := 14, phase := .body } := rfl
@[simp] theorem State.beginBody_pixE : s.beginBody.pixE = s.pixE := rfl
@[simp] theorem State.beginBody_pixD : s.beginBody.pixD = s.pixD := rfl
@[simp] theorem State.beginBody_hostQ : s.beginBody.hostQ = s.hostQ := rfl
@[simp] theorem State.beginBody_replies : s.beginBody.replies = s.replies := rfl
@[simp] theorem State.beginBody_sched : s.beginBody.sched = s.sched := rfl
@[simp] theorem State.beginBody_draws : s.beginBody.draws = s.draws := rfl

/-! ### finishDec -/

@[simp] theorem State.finishDec_params : s.finishDec.params = s.params := rfl
@[simp] theorem State.finishDec_enc : s.finishDec.enc = s.enc := rfl
@[simp] theorem State.finishDec_dec : s.finishDec.dec = { s.dec with pos := s.dec.pos + 8, state := .done } := rfl
@[simp] theorem State.finishDec_pixE : s.finishDec.pixE = s.pixE := rfl
@[simp] theorem State.finishDec_pixD : s.finishDec.pixD = s.pixD := rfl
@[simp] theorem State.finishDec_hostQ : s.finishDec.hostQ = s.hostQ := rfl
@[simp] theorem State.finishDec_replies : s.finishDec.replies = s.replies := rfl
@[simp] theorem State.finishDec_sched : s.finishDec.sched = s.sched := rfl
@[simp] theorem State.finishDec_draws : s.finishDec.draws = s.draws := rfl

/-! ### setRun -/

@[simp] theorem State.setRun_params (n : BitVec 6) : (s.setRun n).params = s.params := rfl
@[simp] theorem State.setRun_enc (n : BitVec 6) : (s.setRun n).enc = { s.enc with run := n } := rfl
@[simp] theorem State.setRun_dec (n : BitVec 6) : (s.setRun n).dec = s.dec := rfl
@[simp] theorem State.setRun_pixE (n : BitVec 6) : (s.setRun n).pixE = s.pixE := rfl
@[simp] theorem State.setRun_pixD (n : BitVec 6) : (s.setRun n).pixD = s.pixD := rfl
@[simp] theorem State.setRun_hostQ (n : BitVec 6) : (s.setRun n).hostQ = s.hostQ := rfl
@[simp] theorem State.setRun_replies (n : BitVec 6) : (s.setRun n).replies = s.replies := rfl
@[simp] theorem State.setRun_sched (n : BitVec 6) : (s.setRun n).sched = s.sched := rfl
@[simp] theorem State.setRun_draws (n : BitVec 6) : (s.setRun n).draws = s.draws := rfl

/-! ### encUpdate -/

@[simp] theorem State.encUpdate_params (p : Pixel) : (s.encUpdate p).params = s.params := rfl
@[simp] theorem State.encUpdate_enc (p : Pixel) : (s.encUpdate p).enc =
    { s.enc with cache := Cache.insert s.enc.cache p, prev := p } := rfl
@[simp] theorem State.encUpdate_dec (p : Pixel) : (s.encUpdate p).dec = s.dec := rfl
@[simp] theorem State.encUpdate_pixE (p : Pixel) : (s.encUpdate p).pixE = s.pixE := rfl
@[simp] theorem State.encUpdate_pixD (p : Pixel) : (s.encUpdate p).pixD = s.pixD := rfl
@[simp] theorem State.encUpdate_hostQ (p : Pixel) : (s.encUpdate p).hostQ = s.hostQ := rfl
@[simp] theorem State.encUpdate_replies (p : Pixel) : (s.encUpdate p).replies = s.replies := rfl
@[simp] theorem State.encUpdate_sched (p : Pixel) : (s.encUpdate p).sched = s.sched := rfl
@[simp] theorem State.encUpdate_draws (p : Pixel) : (s.encUpdate p).draws = s.draws := rfl

/-! ### encNext -/

@[simp] theorem State.encNext_params : s.encNext.params = s.params := rfl
@[simp] theorem State.encNext_enc : s.encNext.enc =
    { s.enc with k := s.enc.k + 1, phase := if (s.enc.k + 1).toNat = s.enc.n then .fin else s.enc.phase } := rfl
@[simp] theorem State.encNext_dec : s.encNext.dec = s.dec := rfl
@[simp] theorem State.encNext_pixE : s.encNext.pixE = s.pixE := rfl
@[simp] theorem State.encNext_pixD : s.encNext.pixD = s.pixD := rfl
@[simp] theorem State.encNext_hostQ : s.encNext.hostQ = s.hostQ := rfl
@[simp] theorem State.encNext_replies : s.encNext.replies = s.replies := rfl
@[simp] theorem State.encNext_sched : s.encNext.sched = s.sched := rfl
@[simp] theorem State.encNext_draws : s.encNext.draws = s.draws := rfl

/-! ### drawPixel -/

@[simp] theorem State.drawPixel_params : s.drawPixel.params = s.params := rfl
@[simp] theorem State.drawPixel_enc : s.drawPixel.enc = s.enc := rfl
@[simp] theorem State.drawPixel_dec : s.drawPixel.dec = s.dec := rfl
@[simp] theorem State.drawPixel_pixE : s.drawPixel.pixE = s.pixE := rfl
@[simp] theorem State.drawPixel_pixD : s.drawPixel.pixD = s.pixD := rfl
@[simp] theorem State.drawPixel_hostQ : s.drawPixel.hostQ = s.hostQ := rfl
@[simp] theorem State.drawPixel_replies : s.drawPixel.replies = s.replies := rfl
@[simp] theorem State.drawPixel_sched : s.drawPixel.sched = s.sched := rfl
@[simp] theorem State.drawPixel_draws : s.drawPixel.draws = s.draws + pixelSize s.enc.channels := rfl

/-! ### reply -/

@[simp] theorem State.reply_params (v : BitVec 64) : (s.reply v).params = s.params := rfl
@[simp] theorem State.reply_enc (v : BitVec 64) : (s.reply v).enc = s.enc := rfl
@[simp] theorem State.reply_dec (v : BitVec 64) : (s.reply v).dec = s.dec := rfl
@[simp] theorem State.reply_pixE (v : BitVec 64) : (s.reply v).pixE = s.pixE := rfl
@[simp] theorem State.reply_pixD (v : BitVec 64) : (s.reply v).pixD = s.pixD := rfl
@[simp] theorem State.reply_hostQ (v : BitVec 64) : (s.reply v).hostQ = s.hostQ := rfl
@[simp] theorem State.reply_replies (v : BitVec 64) : (s.reply v).replies = s.replies ++ [v] := rfl
@[simp] theorem State.reply_sched (v : BitVec 64) : (s.reply v).sched = s.sched := rfl
@[simp] theorem State.reply_draws (v : BitVec 64) : (s.reply v).draws = s.draws := rfl

/-! ### spend -/

@[simp] theorem State.spend_params (n : Nat) : (s.spend n).params = s.params := rfl
@[simp] theorem State.spend_enc (n : Nat) : (s.spend n).enc = s.enc := rfl
@[simp] theorem State.spend_dec (n : Nat) : (s.spend n).dec = s.dec := rfl
@[simp] theorem State.spend_pixE (n : Nat) : (s.spend n).pixE = s.pixE := rfl
@[simp] theorem State.spend_pixD (n : Nat) : (s.spend n).pixD = s.pixD := rfl
@[simp] theorem State.spend_hostQ (n : Nat) : (s.spend n).hostQ = s.hostQ := rfl
@[simp] theorem State.spend_replies (n : Nat) : (s.spend n).replies = s.replies := rfl
@[simp] theorem State.spend_sched (n : Nat) : (s.spend n).sched = s.sched := rfl
@[simp] theorem State.spend_draws (n : Nat) : (s.spend n).draws = s.draws + n := rfl

/-! ### beginTurn -/

@[simp] theorem State.beginTurn_params : s.beginTurn.params = s.params := rfl
@[simp] theorem State.beginTurn_enc : s.beginTurn.enc = s.enc := rfl
@[simp] theorem State.beginTurn_dec : s.beginTurn.dec = s.dec := rfl
@[simp] theorem State.beginTurn_pixE : s.beginTurn.pixE = s.pixE := rfl
@[simp] theorem State.beginTurn_pixD : s.beginTurn.pixD = s.pixD := rfl
@[simp] theorem State.beginTurn_hostQ : s.beginTurn.hostQ = s.hostQ := rfl
@[simp] theorem State.beginTurn_replies : s.beginTurn.replies = s.replies := rfl
@[simp] theorem State.beginTurn_sched : s.beginTurn.sched = s.sched.tail := rfl
@[simp] theorem State.beginTurn_draws : s.beginTurn.draws = s.draws + (if s.choiceFree then 1 else 0) := rfl

/-! ### takeAct -/

@[simp] theorem State.takeAct_params : s.takeAct.params = s.params := rfl
@[simp] theorem State.takeAct_enc : s.takeAct.enc = s.enc := rfl
@[simp] theorem State.takeAct_dec : s.takeAct.dec = s.dec := rfl
@[simp] theorem State.takeAct_pixE : s.takeAct.pixE = s.pixE := rfl
@[simp] theorem State.takeAct_pixD : s.takeAct.pixD = s.pixD := rfl
@[simp] theorem State.takeAct_hostQ : s.takeAct.hostQ = s.hostQ.tail := rfl
@[simp] theorem State.takeAct_replies : s.takeAct.replies = s.replies := rfl
@[simp] theorem State.takeAct_sched : s.takeAct.sched = s.sched := rfl
@[simp] theorem State.takeAct_draws : s.takeAct.draws = s.draws + (if s.hostQ.isEmpty then 1 else 0) := rfl

end Sys2Proof.Machine
end

