-- ==== Sys2Proof/Laws/Decoder.lean ====
section
/-!
SUPPORT. The decoder: what putPixel, a run of them, each meaning and DEC's turn can do, and that DEC's turn keeps its
part of the invariant.
-/

namespace Sys2Proof.Machine

/-- A 64-bit counter that does not overflow (00_scope.md R11) counts exactly. -/
theorem count_add {a : Count} {n : Nat} (h : a.toNat + n < 2 ^ 64) : (a + BitVec.ofNat 64 n).toNat = a.toNat + n := by
  rw [BitVec.toNat_add, BitVec.toNat_ofNat]
  have : n % 2 ^ 64 = n := Nat.mod_eq_of_lt (by omega)
  rw [this, Nat.mod_eq_of_lt h]

theorem count_succ {a : Count} (h : a.toNat + 1 < 2 ^ 64) : (a + 1).toNat = a.toNat + 1 := count_add h

/-! ### Outcomes -/

@[simp] theorem andThen_next (s : State) (f : State → Result) : andThen (.next s) f = f s := rfl
@[simp] theorem andThen_fault (e : Fault) (f : State → Result) : andThen (.fault e) f = .fault e := rfl
@[simp] theorem andThen_refused (e : Refusal) (f : State → Result) : andThen (.refused e) f = .refused e := rfl

/-- A sequence answers a next state only through one. -/
theorem andThen_eq_next {r : Result} {f : State → Result} {t : State} (h : andThen r f = .next t) :
    ∃ u, r = .next u ∧ f u = .next t := by
  cases r with
  | next u => exact ⟨u, rfl, h⟩
  | fault e => cases h
  | refused e => cases h

/-! ### putPixel -/

theorem putPixel_of_room {p : Pixel} {s : State}
    (h : s.dec.pixelAddr + pixelSize s.dec.ch ≤ s.params.pixMemBytes) : putPixel p s = .next (s.storePixel p) :=
  if_pos h

theorem putPixel_next {p : Pixel} {s t : State} (h : putPixel p s = .next t) :
    s.dec.pixelAddr + pixelSize s.dec.ch ≤ s.params.pixMemBytes ∧ t = s.storePixel p := by
  simp only [putPixel] at h
  split at h
  · rename_i hr
    injection h with h
    exact ⟨hr, h.symm⟩
  · cases h

/-- What a run of n putPixels leaves: n copies of the predictor's bytes, its cache slot, the scan position. -/
def State.storeRun (s : State) (n : Nat) : State :=
  { s with
    pixD := Memory.writeBytes s.pixD s.dec.pixelAddr (List.replicate n (pixelBytes s.dec.ch s.dec.cur)).flatten
    dec :=
      { s.dec with
        cache := if n = 0 then s.dec.cache else Cache.insert s.dec.cache s.dec.cur
        k := s.dec.k + BitVec.ofNat 64 n } }

theorem putRun_of_room {n : Nat} {s : State} (hk : s.dec.k.toNat + n < 2 ^ 64)
    (h : (s.dec.k.toNat + n) * pixelSize s.dec.ch ≤ s.params.pixMemBytes) : putRun n s = .next (s.storeRun n) := by
  induction n generalizing s with
  | zero => simp [putRun, State.storeRun, Memory.writeBytes]
  | succ n ih =>
    have hs := pixelSize_pos s.dec.ch
    have h1 : s.dec.pixelAddr + pixelSize s.dec.ch ≤ s.params.pixMemBytes := by
      refine le_trans ?_ h
      simp only [Dec.pixelAddr]
      nlinarith
    have hk1 : (s.storePixel s.dec.cur).dec.k.toNat = s.dec.k.toNat + 1 := count_succ (by omega)
    simp only [putRun, putPixel_of_room h1, andThen_next]
    rw [ih (by rw [hk1]; omega) (by rw [hk1]; simpa [Nat.add_assoc, Nat.add_comm 1 n] using h)]
    have e1 : (s.storePixel s.dec.cur).dec.pixelAddr = s.dec.pixelAddr + (pixelBytes s.dec.ch s.dec.cur).length := by
      change (s.dec.k + 1).toNat * pixelSize s.dec.ch = s.dec.k.toNat * pixelSize s.dec.ch + _
      rw [count_succ (by omega), pixelBytes_length, Nat.add_mul, Nat.one_mul]
    congr 1
    unfold State.storeRun
    rw [e1]
    simp only [State.storePixel, List.replicate_succ, List.flatten_cons, Memory.writeBytes_append]
    have e2 : s.dec.k + 1 + BitVec.ofNat 64 n = s.dec.k + BitVec.ofNat 64 (n + 1) := by
      rw [BitVec.add_assoc, BitVec.add_comm 1, BitVec.ofNat_add]
      rfl
    rw [e2]
    by_cases hn : n = 0
    · simp [hn]
    · simp [hn]

/-! ### The meanings -/

/-- The state RGBA, RGB, INDEX, DIFF or LUMA leaves. -/
def State.resolved (s : State) (p : Pixel) (n : Nat) : State := ((s.setCur p).storePixel p).advance n

theorem resolve_of_room {p : Pixel} {n : Nat} {s : State}
    (h : s.dec.pixelAddr + pixelSize s.dec.ch ≤ s.params.pixMemBytes) : resolve p n s = .next (s.resolved p n) := by
  have h' : (s.setCur p).dec.pixelAddr + pixelSize (s.setCur p).dec.ch ≤ (s.setCur p).params.pixMemBytes := h
  simp only [resolve, putPixel_of_room h', andThen_next, State.resolved]

theorem resolve_next {p : Pixel} {n : Nat} {s t : State} (h : resolve p n s = .next t) :
    s.dec.pixelAddr + pixelSize s.dec.ch ≤ s.params.pixMemBytes ∧ t = s.resolved p n := by
  obtain ⟨u, h1, h2⟩ := andThen_eq_next h
  obtain ⟨h3, rfl⟩ := putPixel_next h1
  injection h2 with h2
  exact ⟨h3, h2.symm⟩

/-- An opcode that resolves one pixel is `resolve` of that pixel by its length. -/
theorem exec_single {i : Instr} (s : State) (ho : i.isOpcode = true) (hr : ∀ len, i ≠ .run len) :
    ∃ p, exec i s = resolve p i.size s := by
  cases i with
  | rgba r g b a => exact ⟨_, rfl⟩
  | rgb r g b => exact ⟨_, rfl⟩
  | index j => exact ⟨_, rfl⟩
  | diff dr dg db => exact ⟨_, rfl⟩
  | luma dg x y => exact ⟨_, rfl⟩
  | run len => exact absurd rfl (hr len)
  | endMark => cases ho
  | header w h ch cs => cases ho

/-! ### What DEC's next step is -/

/-- The body step runs the end marker, or the opcode at DEC.pos while a pixel is missing. -/
theorem bodyAct_run {d : Dec} {i : Instr} (h : bodyAct d = .run i) :
    (i = .endMark ∧ isMarker d.fifo = true) ∨
    (d.k.toNat ≠ d.n ∧ i.isOpcode = true ∧ i.wf = true ∧ i.size ≤ d.fifo.length ∧
      ∃ rest, decodeOp d.fifo = .ok (i, rest)) := by
  simp only [bodyAct] at h
  split at h
  · rename_i hm
    injection h with h
    exact .inl ⟨h.symm, hm⟩
  · split at h
    · split at h <;> cases h
    · rename_i hk
      split at h
      · rename_i j rest hd
        injection h with h
        subst h
        obtain ⟨t, tl, -, hlen, rfl, -⟩ := decodeOp_ok hd
        exact .inr ⟨hk, assemble_isOpcode t tl, assemble_wf t tl, by rw [assemble_size]; exact hlen, rest, hd⟩
      · cases h
      · cases h
      · cases h

/-- The header step runs a header, which is at least 14 bytes of the stream. -/
theorem headerAct_run {d : Dec} {i : Instr} (h : headerAct d = .run i) :
    (∃ w hh ch cs, i = .header w hh ch cs) ∧ 14 ≤ d.avail := by
  simp only [headerAct] at h
  split at h
  · rename_i j rest hd
    injection h with h
    subst h
    obtain ⟨h1, h2⟩ := decodeHeader_ok hd
    exact ⟨h1, by simp only [Dec.avail]; omega⟩
  · cases h
  · cases h
  · cases h

theorem fifo_length (d : Dec) : d.fifo.length = d.avail - d.pos.toNat := by simp [Dec.fifo, Dec.avail]

theorem headerAct_fail_ne {d : Dec} {c : ErrCode} (h : headerAct d = .fail c) : c ≠ .none := by
  simp only [headerAct] at h
  split at h <;> cases h <;> simp

theorem bodyAct_fail_ne {d : Dec} {c : ErrCode} (h : bodyAct d = .fail c) : c ≠ .none := by
  simp only [bodyAct] at h
  repeat' split at h
  all_goals (cases h; try simp)

/-- Every error a step of DEC raises has a code. -/
theorem decAct_fail_ne {d : Dec} {c : ErrCode} (h : decAct d = .fail c) : c ≠ .none := by
  simp only [decAct] at h
  split at h
  · exact headerAct_fail_ne h
  · exact bodyAct_fail_ne h

end Sys2Proof.Machine
end

