-- ==== Sys2Proof/Laws/KeepDec.lean ====
section
/-!
SUPPORT. DEC's turn from a state of the invariant: it answers a next state, and that state is of the invariant.
-/

namespace Sys2Proof.Machine

/-- An update of DEC and PIX_D alone keeps the invariant when DEC's own part and PIX_D's are kept. -/
theorem State.Inv.of_dec {s t : State} (hi : s.Inv) (hp : t.params = s.params) (he : t.enc = s.enc)
    (hx : t.pixE = s.pixE) (hw : Memory.wf t.pixD) (hb : Memory.below t.pixD s.params.pixMemBytes)
    (hd : t.dec.Ok s.params) : t.Inv where
  params := hp ▸ hi.params
  pixE_wf := hx ▸ hi.pixE_wf
  pixD_wf := hw
  pixE_below := by rw [hx, hp]; exact hi.pixE_below
  pixD_below := by rw [hp]; exact hb
  enc := by rw [he, hp]; exact hi.enc
  dec := by rw [hp]; exact hd

/-- Raising an error keeps DEC's part (R301: pos and the FIFO stay). -/
theorem Dec.Ok.raise {p : Config.Params} {d : Dec} {c : ErrCode} (h : d.Ok p) (hc : c ≠ .none) :
    ({ d with state := .error, err := c } : Dec).Ok p where
  pos_le := h.pos_le
  fifo_le := h.fifo_le
  err_iff := by simp [hc]
  last := by simp
  atHdr := by simp
  atBody := by simp

theorem raiseDec_keeps {s : State} {c : ErrCode} (hi : s.Inv) (hc : c ≠ .none) : (s.raiseDec c).Inv :=
  hi.of_dec rfl rfl rfl hi.pixD_wf hi.pixD_below (hi.dec.raise hc)

/-- Where the next pixel of a session goes: inside PIX_D while a pixel is missing (41_decoder.md R150). -/
theorem Dec.InBody.room {p : Config.Params} {d : Dec} (h : d.InBody p) {n : Nat} (hk : d.k.toNat + n ≤ d.n) :
    (d.k.toNat + n) * pixelSize d.ch ≤ p.pixMemBytes := by
  obtain ⟨h1, -, h3⟩ := h.image
  rw [pixelSize_of_legal h1]
  exact le_trans (Nat.mul_le_mul_right _ hk) h3

theorem Dec.InBody.n_lt {p : Config.Params} {d : Dec} (h : d.InBody p) (hm : p.pixMemBytes ≤ 2 ^ 48) :
    3 * d.n ≤ 2 ^ 48 := imageOk_count_lt h.image hm

/-- DEC's part after an opcode of `len` bytes that wrote n ≥ 1 pixels. -/
theorem Dec.InBody.step {p : Config.Params} {d e : Dec} (h : d.InBody p) (hm : p.pixMemBytes ≤ 2 ^ 48) {n len : Nat}
    (hn : 1 ≤ n) (hl : len ≤ 5) (hk : d.k.toNat + n ≤ d.n) (h1 : e.k = d.k + BitVec.ofNat 64 n)
    (h2 : e.pos = d.pos + BitVec.ofNat 64 len) (h3 : e.w = d.w) (h4 : e.h = d.h) (h5 : e.ch = d.ch)
    (h6 : Cache.placed e.cache) : e.InBody p ∧ e.pos.toNat = d.pos.toNat + len := by
  have hb := h.n_lt hm
  have hp := h.pos_le
  have e1 : e.k.toNat = d.k.toNat + n := by rw [h1]; exact count_add (by omega)
  have e2 : e.pos.toNat = d.pos.toNat + len := by rw [h2]; exact count_add (by omega)
  have e3 : e.n = d.n := by simp only [Dec.n, h3, h4]
  have := h.pos_ge
  exact ⟨⟨by rw [h3, h4, h5]; exact h.image, by omega, by omega, by omega, h6⟩, e2⟩

/-- DEC's part of the invariant after an update that stays BUSY in the body. -/
theorem Dec.Ok.step {p : Config.Params} {d e : Dec} (h : d.Ok p) {len : Nat} (hb : e.InBody p)
    (hpos : e.pos.toNat = d.pos.toNat + len) (hlen : len ≤ d.avail - d.pos.toNat) (hin : e.input = d.input)
    (hs : e.state = .busy) (he : e.err = d.err) (hd : d.state = .busy) (hph : e.phase = .body) : e.Ok p where
  pos_le := by have := h.pos_le; simp only [Dec.avail, hin] at *; omega
  fifo_le := by have := h.fifo_le; simp only [occupancy, Dec.avail, hin] at *; omega
  err_iff := by rw [hs, he, ← hd]; exact h.err_iff
  last := by simp [hs]
  atHdr := by simp [hph]
  atBody := fun _ _ => hb

theorem resolved_keeps {s : State} {p : Pixel} {len : Nat} (hi : s.Inv) (hb : s.dec.state = .busy)
    (hph : s.dec.phase = .body) (hk : s.dec.k.toNat + 1 ≤ s.dec.n) (hl : len ≤ 5)
    (hlen : len ≤ s.dec.avail - s.dec.pos.toNat) :
    ∃ t, resolve p len s = .next t ∧ t.Inv := by
  have hB := hi.dec.atBody hb hph
  have hroom := hB.room hk
  have hr : s.dec.pixelAddr + pixelSize s.dec.ch ≤ s.params.pixMemBytes := by
    simpa only [Dec.pixelAddr, Nat.add_mul, Nat.one_mul] using hroom
  refine ⟨_, resolve_of_room hr, ?_⟩
  obtain ⟨h1, h2⟩ := hB.step (e := (s.resolved p len).dec) hi.params.2.1 (le_refl 1) hl hk rfl rfl rfl rfl rfl
    (Cache.placed_insert hB.cache p)
  refine hi.of_dec rfl rfl rfl (Memory.writeBytes_wf hi.pixD_wf _ _) ?_ ?_
  · refine Memory.writeBytes_below hi.pixD_below ?_
    rw [pixelBytes_length]
    exact hr
  · exact hi.dec.step h1 h2 hlen rfl hb rfl hb hph

theorem execRun_keeps {s : State} {len : Nat} (hi : s.Inv) (hb : s.dec.state = .busy) (hph : s.dec.phase = .body)
    (h1 : 1 ≤ len) (hlen : 1 ≤ s.dec.avail - s.dec.pos.toNat) : ∃ t, execRun len s = .next t ∧ t.Inv := by
  have hB := hi.dec.atBody hb hph
  simp only [execRun]
  by_cases hk : s.dec.n < s.dec.k.toNat + len
  · rw [if_pos hk]
    exact ⟨_, rfl, raiseDec_keeps hi (by simp)⟩
  · rw [if_neg hk]
    have hroom := hB.room (Nat.le_of_not_lt hk)
    have hbound := hB.n_lt hi.params.2.1
    rw [putRun_of_room (by omega) hroom, andThen_next]
    refine ⟨_, rfl, ?_⟩
    obtain ⟨h2, h3⟩ := hB.step (e := ((s.storeRun len).advance 1).dec) (len := 1) hi.params.2.1 h1 (by omega)
      (Nat.le_of_not_lt hk) rfl rfl rfl rfl rfl (by
        have : len ≠ 0 := by omega
        simp only [State.storeRun, State.advance_dec, this, if_false]
        exact Cache.placed_insert hB.cache _)
    refine hi.of_dec rfl rfl rfl (Memory.writeBytes_wf hi.pixD_wf _ _) ?_ ?_
    · refine Memory.writeBytes_below hi.pixD_below ?_
      simp only [List.length_flatten, List.map_replicate, pixelBytes_length, List.sum_replicate, smul_eq_mul,
        Dec.pixelAddr]
      rw [← Nat.add_mul]
      exact hroom
    · exact hi.dec.step h2 h3 hlen rfl hb rfl hb hph

theorem execEndMark_keeps {s : State} (hi : s.Inv) (hb : s.dec.state = .busy) (hph : s.dec.phase = .body)
    (hlen : 8 ≤ s.dec.avail - s.dec.pos.toNat) : ∃ t, execEndMark s = .next t ∧ t.Inv := by
  simp only [execEndMark]
  split
  · refine ⟨_, rfl, hi.of_dec rfl rfl rfl hi.pixD_wf hi.pixD_below ?_⟩
    have hB := hi.dec.atBody hb hph
    have hbound := hB.n_lt hi.params.2.1
    have hp := hB.pos_le
    have hk := hB.k_le
    have e : s.finishDec.dec.pos.toNat = s.dec.pos.toNat + 8 := count_add (n := 8) (by omega)
    have hle := hi.dec.pos_le
    have hf := hi.dec.fifo_le
    have herr := hi.dec.err_iff
    constructor
    · rw [e]; simp only [State.finishDec_dec, Dec.avail] at *; omega
    · simp only [occupancy] at *; rw [e]; simp only [State.finishDec_dec, Dec.avail] at *; omega
    · simp only [State.finishDec_dec]
      rw [hb] at herr
      simpa using herr
    · simp
    · simp
    · simp
  · exact ⟨_, rfl, raiseDec_keeps hi (by simp)⟩

theorem execHeader_keeps {s : State} {w h : Word} {ch cs : Byte} (hi : s.Inv) (hb : s.dec.state = .busy)
    (hph : s.dec.phase = .hdr) (hlen : 14 ≤ s.dec.avail) : ∃ t, execHeader w h ch cs s = .next t ∧ t.Inv := by
  have h0 := hi.dec.atHdr hb hph
  have hd : (s.setHeader w h ch cs).dec.Ok s.params :=
    { pos_le := hi.dec.pos_le
      fifo_le := hi.dec.fifo_le
      err_iff := hi.dec.err_iff
      last := hi.dec.last
      atHdr := hi.dec.atHdr
      atBody := fun _ h => by simp only [State.setHeader_dec, hph] at h; cases h }
  have hset : (s.setHeader w h ch cs).Inv := hi.of_dec rfl rfl rfl hi.pixD_wf hi.pixD_below hd
  simp only [execHeader]
  split
  · rename_i c hc
    exact ⟨_, rfl, raiseDec_keeps hset (imageError_ne_none hc)⟩
  · rename_i hc
    have hok := (imageError_none_iff _ _ _ _).1 hc
    refine ⟨_, rfl, hi.of_dec rfl rfl rfl hi.pixD_wf hi.pixD_below ?_⟩
    have hf := hi.dec.fifo_le
    constructor
    · exact hlen
    · simp only [occupancy, Dec.avail, State.beginBody_dec, State.setHeader_dec] at *
      have e14 : (14 : Count).toNat = 14 := rfl
      have e0 : s.dec.pos.toNat = 0 := by rw [h0.1]; rfl
      rw [e14]
      omega
    · exact hi.dec.err_iff
    · exact hi.dec.last
    · simp
    · intro _ _
      refine ⟨hok, ?_, ?_, ?_, h0.2.2⟩
      · simp [h0.2.1]
      · simp
      · simp

/-- An item that DEC's next step runs answers a next state of the invariant. -/
theorem exec_keeps {s : State} {i : Instr} (hi : s.Inv) (hb : s.dec.state = .busy) (ha : decAct s.dec = .run i) :
    ∃ t, exec i s = .next t ∧ t.Inv := by
  simp only [decAct] at ha
  split at ha
  · rename_i hph
    obtain ⟨⟨w, h, ch, cs, rfl⟩, hlen⟩ := headerAct_run ha
    exact execHeader_keeps hi hb hph hlen
  · rename_i hph
    rcases bodyAct_run ha with ⟨rfl, hm⟩ | ⟨hk, ho, hw, hsz, -⟩
    · have := isMarker_length hm
      rw [fifo_length] at this
      exact execEndMark_keeps hi hb hph this
    · have hB := hi.dec.atBody hb hph
      have hk' : s.dec.k.toNat + 1 ≤ s.dec.n := by have := hB.k_le; omega
      rw [fifo_length] at hsz
      cases i with
      | rgba r g b a => exact resolved_keeps hi hb hph hk' (by decide) hsz
      | rgb r g b => exact resolved_keeps hi hb hph hk' (by decide) hsz
      | index j => exact resolved_keeps hi hb hph hk' (by decide) hsz
      | diff dr dg db => exact resolved_keeps hi hb hph hk' (by decide) hsz
      | luma dg x y => exact resolved_keeps hi hb hph hk' (by decide) hsz
      | run len =>
        simp only [Instr.wf, decide_eq_true_eq] at hw
        exact execRun_keeps hi hb hph hw.1 hsz
      | endMark => cases ho
      | header w h ch cs => cases ho

/-- DEC's turn answers a next state of the invariant. -/
theorem decTurn_keeps {s : State} (hi : s.Inv) : ∃ t, decTurn s = .next t ∧ t.Inv := by
  simp only [decTurn]
  split
  · rename_i he
    simp only [decEnabled, decide_eq_true_eq] at he
    split
    · rename_i c hc
      exact ⟨_, rfl, raiseDec_keeps hi (decAct_fail_ne hc)⟩
    · rename_i i ha
      exact exec_keeps hi he.1 ha
  · exact ⟨_, rfl, hi⟩

end Sys2Proof.Machine
end

