-- ==== Sys2Proof/Laws/PerInstr.lean ====
section
/-!
SUPPORT. Statements made per instruction: the encoding of an item has the item's length (30_encoding.md R85 to R92).
-/

namespace Sys2Proof

/-- The bytes of an item are as many as the item advances the stream position by. -/
def Laws.EncodedSize.Statement (i : Instr) : Prop := (encode i).length = i.size

theorem Laws.EncodedSize.rgba (r g b a : Byte) : Laws.EncodedSize.Statement (.rgba r g b a) := rfl
theorem Laws.EncodedSize.rgb (r g b : Byte) : Laws.EncodedSize.Statement (.rgb r g b) := rfl
theorem Laws.EncodedSize.index (i : BitVec 6) : Laws.EncodedSize.Statement (.index i) := rfl
theorem Laws.EncodedSize.diff (dr dg db : Int) : Laws.EncodedSize.Statement (.diff dr dg db) := rfl
theorem Laws.EncodedSize.luma (dg drDg dbDg : Int) : Laws.EncodedSize.Statement (.luma dg drDg dbDg) := rfl
theorem Laws.EncodedSize.run (len : Nat) : Laws.EncodedSize.Statement (.run len) := rfl
theorem Laws.EncodedSize.endMark : Laws.EncodedSize.Statement .endMark := rfl
theorem Laws.EncodedSize.header (w h : Word) (ch cs : Byte) : Laws.EncodedSize.Statement (.header w h ch cs) := rfl

@[simp] theorem encode_length (i : Instr) : (encode i).length = i.size := by
  cases i with
  | rgba r g b a => exact Laws.EncodedSize.rgba r g b a
  | rgb r g b => exact Laws.EncodedSize.rgb r g b
  | index i => exact Laws.EncodedSize.index i
  | diff dr dg db => exact Laws.EncodedSize.diff dr dg db
  | luma dg x y => exact Laws.EncodedSize.luma dg x y
  | run len => exact Laws.EncodedSize.run len
  | endMark => exact Laws.EncodedSize.endMark
  | header w h ch cs => exact Laws.EncodedSize.header w h ch cs

end Sys2Proof
end

