-- ==== Sys2Proof/Laws/Encoder.lean ====
section
/-!
SUPPORT. The encoder: the item it selects, the bytes a pixel step emits, and that ENC's turn keeps the invariant.
-/

namespace Sys2Proof.Machine

/-! ### Selection -/

/-- The five selections, each with its condition (42_encoder.md R204 to R208). -/
theorem selectItem_cases (c : Cache) (p prev : Pixel) :
    (selectItem c p prev = .index (pixelHash p) ∧ Cache.read c (pixelHash p) = p) ∨
    (selectItem c p prev = diffOf p prev ∧ p.a = prev.a ∧ (diffOf p prev).wf = true) ∨
    (selectItem c p prev = lumaOf p prev ∧ p.a = prev.a ∧ (lumaOf p prev).wf = true) ∨
    (selectItem c p prev = .rgb p.r p.g p.b ∧ p.a = prev.a) ∨
    (selectItem c p prev = .rgba p.r p.g p.b p.a ∧ p.a ≠ prev.a) := by
  simp only [selectItem]
  split_ifs with h1 h2 h3 h4
  · exact .inl ⟨rfl, (Cache.hit_iff c p).1 h1⟩
  · simp only [fitsDiff, Bool.and_eq_true, decide_eq_true_eq] at h2
    exact .inr (.inl ⟨rfl, h2⟩)
  · simp only [fitsLuma, Bool.and_eq_true, decide_eq_true_eq] at h3
    exact .inr (.inr (.inl ⟨rfl, h3⟩))
  · exact .inr (.inr (.inr (.inl ⟨rfl, h4⟩)))
  · exact .inr (.inr (.inr (.inr ⟨rfl, h4⟩)))

theorem selectItem_size (c : Cache) (p prev : Pixel) :
    1 ≤ (selectItem c p prev).size ∧ (selectItem c p prev).size ≤ 5 := by
  rcases selectItem_cases c p prev with ⟨h, -⟩ | ⟨h, -⟩ | ⟨h, -⟩ | ⟨h, -⟩ | ⟨h, -⟩ <;> rw [h] <;>
    simp [diffOf, lumaOf, Instr.size]

/-! ### The pixel step -/

theorem run_zero_iff {x : BitVec 6} : x = 0 ↔ x.toNat = 0 :=
  ⟨fun h => by rw [h]; rfl, fun h => BitVec.eq_of_toNat_eq h⟩

theorem pending_le (e : Enc) : e.pending ≤ 1 := by simp only [Enc.pending]; split <;> omega

theorem pending_zero {e : Enc} (h : e.run = 0) : e.pending = 0 := if_pos h
theorem pending_one {e : Enc} (h : e.run ≠ 0) : e.pending = 1 := if_neg h

/-- The bytes of the pending run (R203, R210). -/
def Enc.flushBytes (e : Enc) : List Byte := if e.run = 0 then [] else encode (.run e.run.toNat)

@[simp] theorem flushBytes_length (e : Enc) : e.flushBytes.length = e.pending := by
  by_cases h : e.run = 0
  · rw [Enc.flushBytes, if_pos h, pending_zero h]; rfl
  · rw [Enc.flushBytes, if_neg h, pending_one h]; rfl

/-- The flush: the pending run's byte, if any, and no run left (R203). -/
theorem encFlush_enc (s : State) :
    (encFlush s).enc = { s.enc with
        outQ := s.enc.outQ ++ s.enc.flushBytes
        outCnt := s.enc.outCnt + BitVec.ofNat 64 s.enc.pending
        run := 0 } := by
  by_cases h : s.enc.run = 0
  · have h' : ¬ 0 < s.enc.run.toNat := by rw [run_zero_iff] at h; omega
    rw [encFlush, if_neg h', pending_zero h, Enc.flushBytes, if_pos h, List.append_nil, BitVec.add_zero, ← h]
  · have h' : 0 < s.enc.run.toNat := by rw [run_zero_iff] at h; omega
    rw [encFlush, if_pos h', pending_one h, Enc.flushBytes, if_neg h]
    rfl

/-- Nothing but ENC's own state changes in a pixel step. -/
theorem encPixel_frame (p : Pixel) (s : State) :
    ∃ e, encPixel p s = { s with enc := e } := by
  simp only [encPixel, encRunStep, encCodeStep, encFlush]
  split_ifs <;> exact ⟨_, rfl⟩

/-- A run pixel (R202): the run grows, or its 62nd pixel emits it. -/
theorem encPixel_run (s : State) :
    (encPixel s.enc.prev s).enc = { s.enc with
      run := if s.enc.run + 1 = 62 then 0 else s.enc.run + 1
      outQ := s.enc.outQ ++ (if s.enc.run + 1 = 62 then encode (.run 62) else [])
      outCnt := s.enc.outCnt + BitVec.ofNat 64 (if s.enc.run + 1 = 62 then 1 else 0)
      k := s.enc.k + 1
      phase := if (s.enc.k + 1).toNat = s.enc.n then .fin else s.enc.phase } := by
  rw [encPixel, if_pos rfl, encRunStep]
  by_cases h : s.enc.run + 1 = 62
  · rw [if_pos h, if_pos h, if_pos h, if_pos h]
    rfl
  · rw [if_neg h, if_neg h, if_neg h, if_neg h, List.append_nil, BitVec.add_zero]
    rfl

/-- A pixel that differs from the predictor (R203 to R209): the flush, the selected item, the update. -/
theorem encPixel_code {p : Pixel} {s : State} (h : p ≠ s.enc.prev) :
    (encPixel p s).enc = { s.enc with
      run := 0
      outQ := s.enc.outQ ++ s.enc.flushBytes ++ encode (selectItem s.enc.cache p s.enc.prev)
      outCnt := s.enc.outCnt + BitVec.ofNat 64 s.enc.pending +
        BitVec.ofNat 64 (selectItem s.enc.cache p s.enc.prev).size
      cache := Cache.insert s.enc.cache p
      prev := p
      k := s.enc.k + 1
      phase := if (s.enc.k + 1).toNat = s.enc.n then .fin else s.enc.phase } := by
  rw [encPixel, if_neg h, encCodeStep]
  simp only [State.encNext_enc, State.encUpdate_enc, State.emit_enc, encFlush_enc, encode_length]
  rfl

/-- What a pixel step does to ENC, whichever way its pixel is encoded (R201 to R209). -/
structure PixelStep (p : Pixel) (e f : Enc) (bs : List Byte) : Prop where
  outQ : f.outQ = e.outQ ++ bs
  outCnt : f.outCnt = e.outCnt + BitVec.ofNat 64 bs.length
  bytes : bs.length + f.pending ≤ e.pending + 5
  run_le : f.run.toNat ≤ 61
  k : f.k = e.k + 1
  phase : f.phase = if (e.k + 1).toNat = e.n then .fin else e.phase
  prev : f.prev = p
  state : f.state = e.state
  err : f.err = e.err
  width : f.width = e.width
  height : f.height = e.height
  channels : f.channels = e.channels
  cache : f.cache = if p = e.prev then e.cache else Cache.insert e.cache p

theorem encPixel_spec {p : Pixel} {s : State} (hr : s.enc.run.toNat ≤ 61) :
    ∃ bs, PixelStep p s.enc (encPixel p s).enc bs := by
  by_cases h : p = s.enc.prev
  · subst h
    by_cases h6 : s.enc.run + 1 = 62
    · refine ⟨encode (.run 62), ?_⟩
      have e := encPixel_run s
      rw [if_pos h6, if_pos h6, if_pos h6] at e
      rw [e]
      exact ⟨rfl, rfl, by rw [pending_zero rfl]; simp [Instr.size], Nat.zero_le _, rfl, rfl, rfl, rfl, rfl, rfl, rfl,
        rfl, (if_pos rfl).symm⟩
    · refine ⟨[], ?_⟩
      have e := encPixel_run s
      rw [if_neg h6, if_neg h6, if_neg h6] at e
      rw [e]
      refine ⟨rfl, rfl, ?_, ?_, rfl, rfl, rfl, rfl, rfl, rfl, rfl, rfl, (if_pos rfl).symm⟩
      · have := pending_le { s.enc with
          run := s.enc.run + 1
          outQ := s.enc.outQ ++ []
          outCnt := s.enc.outCnt + BitVec.ofNat 64 0
          k := s.enc.k + 1
          phase := if (s.enc.k + 1).toNat = s.enc.n then .fin else s.enc.phase }
        rw [List.length_nil]
        omega
      · have h7 : (s.enc.run + 1).toNat ≠ 62 := fun e => h6 (BitVec.eq_of_toNat_eq e)
        change (s.enc.run + 1).toNat ≤ 61
        rw [BitVec.toNat_add] at *
        have : (1 : BitVec 6).toNat = 1 := rfl
        omega
  · refine ⟨s.enc.flushBytes ++ encode (selectItem s.enc.cache p s.enc.prev), ?_⟩
    have h3 := selectItem_size s.enc.cache p s.enc.prev
    rw [encPixel_code h]
    refine ⟨by rw [List.append_assoc], ?_, ?_, Nat.zero_le _, rfl, rfl, rfl, rfl, rfl, rfl, rfl, rfl, (if_neg h).symm⟩
    · simp only [List.length_append, flushBytes_length, encode_length, BitVec.ofNat_add, BitVec.add_assoc]
    · rw [pending_zero rfl, List.length_append, flushBytes_length, encode_length]
      omega

theorem PixelStep.placed {p : Pixel} {e f : Enc} {bs : List Byte} (h : PixelStep p e f bs)
    (hc : Cache.placed e.cache) : Cache.placed f.cache := by
  rw [h.cache]
  split
  · exact hc
  · exact Cache.placed_insert hc p

/-! ### ENC's turn keeps the invariant -/

/-- An update of ENC alone, and of the draws, keeps the invariant when ENC's own part is kept. -/
theorem State.Inv.of_enc {s t : State} (hi : s.Inv) (hp : t.params = s.params) (hd : t.dec = s.dec)
    (hx : t.pixE = s.pixE) (hy : t.pixD = s.pixD) (he : t.enc.Ok s.params) : t.Inv where
  params := hp ▸ hi.params
  pixE_wf := hx ▸ hi.pixE_wf
  pixD_wf := hy ▸ hi.pixD_wf
  pixE_below := by rw [hx, hp]; exact hi.pixE_below
  pixD_below := by rw [hy, hp]; exact hi.pixD_below
  enc := by rw [hp]; exact he
  dec := by rw [hd, hp]; exact hi.dec

theorem Enc.InSession.n_lt {p : Config.Params} {e : Enc} (h : e.InSession p) (hm : p.pixMemBytes ≤ 2 ^ 48) :
    3 * e.n ≤ 2 ^ 48 := imageOk_count_lt h.image hm

theorem encHeaderStep_keeps {s : State} (hi : s.Inv) (hb : s.enc.state = .busy) (hph : s.enc.phase = .hdr)
    (hroom : 14 ≤ s.params.outDepth - s.enc.outQ.length) : ∃ t, encHeaderStep s = .next t ∧ t.Inv := by
  refine ⟨_, rfl, hi.of_enc rfl rfl rfl rfl ?_⟩
  have hS := hi.enc.session hb
  obtain ⟨h1, h2, h3⟩ := hS.atHdr hph
  constructor
  · simp only [State.emit_enc, List.length_append, encode_length, Instr.size]
    omega
  · exact hi.enc.err_iff
  · intro _
    refine ⟨hS.image, hS.run_le, hS.cache, hS.alpha, by simp, ?_, by simp, ?_⟩
    · intro _
      simp only [State.emit_enc, h1]
      exact hS.image.2.1
    · intro _
      simp [State.emit_enc, h1, h2, h3, Enc.pending, Instr.size]

theorem readPixel_alpha {s : State} (h : s.enc.channels = 3) : s.readPixel.a = 255 := by
  simp [State.readPixel, pixelOfBytes, h]

theorem encPixelStep_keeps {s : State} (hi : s.Inv) (hb : s.enc.state = .busy) (hph : s.enc.phase = .pix)
    (hroom : 6 ≤ s.params.outDepth - s.enc.outQ.length) : ∃ t, encPixelStep s = .next t ∧ t.Inv := by
  have hS := hi.enc.session hb
  have hk := hS.atPix hph
  have hbound := hS.n_lt hi.params.2.1
  have hr : s.enc.pixelAddr + pixelSize s.enc.channels ≤ s.params.pixMemBytes := by
    obtain ⟨h1, -, h3⟩ := hS.image
    rw [pixelSize_of_legal h1, Enc.pixelAddr, ← Nat.succ_mul]
    exact le_trans (Nat.mul_le_mul_right _ hk) h3
  simp only [encPixelStep, if_pos hr]
  refine ⟨_, rfl, ?_⟩
  obtain ⟨e, hfr⟩ := encPixel_frame s.readPixel s.drawPixel
  obtain ⟨bs, h⟩ := encPixel_spec (p := s.readPixel) (s := s.drawPixel) hS.run_le
  refine hi.of_enc (by rw [hfr]; rfl) (by rw [hfr]; rfl) (by rw [hfr]; rfl) (by rw [hfr]; rfl) ?_
  generalize (encPixel s.readPixel s.drawPixel).enc = f at h ⊢
  rw [State.drawPixel_enc] at h
  have hp := pending_le s.enc
  have hem := hS.emitted (by rw [hph]; simp)
  have hby := h.bytes
  have e1 : (s.enc.k + 1).toNat = s.enc.k.toNat + 1 := count_succ (by omega)
  have e2 : f.n = s.enc.n := by simp only [Enc.n, h.width, h.height]
  have e3 : f.k.toNat = s.enc.k.toNat + 1 := by rw [h.k, e1]
  have e4 : f.phase = .fin ∧ s.enc.k.toNat + 1 = s.enc.n ∨ f.phase = .pix ∧ s.enc.k.toNat + 1 ≠ s.enc.n := by
    have := h.phase
    rw [e1, hph] at this
    by_cases hn : s.enc.k.toNat + 1 = s.enc.n
    · rw [if_pos hn] at this; exact .inl ⟨this, hn⟩
    · rw [if_neg hn] at this; exact .inr ⟨this, hn⟩
  constructor
  · rw [h.outQ, List.length_append]; omega
  · rw [h.state, h.err]; exact hi.enc.err_iff
  · intro _
    refine ⟨by rw [h.width, h.height, h.channels]; exact hS.image, h.run_le, h.placed hS.cache, ?_, ?_, ?_, ?_, ?_⟩
    · rw [h.channels, h.prev]; exact readPixel_alpha
    · intro hf; rcases e4 with ⟨e, -⟩ | ⟨e, -⟩ <;> rw [e] at hf <;> cases hf
    · intro hf; rcases e4 with ⟨e, -⟩ | ⟨-, e⟩
      · rw [e] at hf; cases hf
      · omega
    · intro hf; rcases e4 with ⟨-, e⟩ | ⟨e, -⟩
      · omega
      · rw [e] at hf; cases hf
    · intro _
      rw [h.outCnt, e3, count_add (by omega)]
      omega

theorem encFlush_frame (s : State) : ∃ e, encFlush s = { s with enc := e } := by
  simp only [encFlush]
  split
  · exact ⟨_, rfl⟩
  · exact ⟨_, rfl⟩

theorem encFinalStep_keeps {s : State} (hi : s.Inv) (hb : s.enc.state = .busy)
    (hroom : 9 ≤ s.params.outDepth - s.enc.outQ.length) : ∃ t, encFinalStep s = .next t ∧ t.Inv := by
  obtain ⟨e, hfr⟩ := encFlush_frame s
  have h1 := encFlush_enc s
  refine ⟨_, rfl, hi.of_enc (by simp only [State.emit_params, hfr]) (by simp only [State.emit_dec, hfr])
    (by simp only [State.emit_pixE, hfr]) (by simp only [State.emit_pixD, hfr]) ?_⟩
  have hp := pending_le s.enc
  have herr := hi.enc.err_iff
  rw [hb] at herr
  constructor
  · simp only [State.emit_enc, h1, List.length_append, flushBytes_length, encode_length, Instr.size]
    omega
  · simp only [State.emit_enc, h1]
    simpa using herr
  · simp

/-- ENC's turn answers a next state of the invariant. -/
theorem encTurn_keeps {s : State} (hi : s.Inv) : ∃ t, encTurn s = .next t ∧ t.Inv := by
  simp only [encTurn]
  split
  · rename_i he
    simp only [encEnabled, decide_eq_true_eq] at he
    obtain ⟨hb, hroom⟩ := he
    split
    · rename_i hph; rw [hph] at hroom; exact encHeaderStep_keeps hi hb hph hroom
    · rename_i hph; rw [hph] at hroom; exact encPixelStep_keeps hi hb hph hroom
    · rename_i hph; rw [hph] at hroom; exact encFinalStep_keeps hi hb hroom
  · exact ⟨_, rfl, hi⟩

end Sys2Proof.Machine
end

