-- ==== Sys2Proof/Laws/Host.lean ====
section
/-!
SUPPORT. The host: where an address lies, what an access can do, and that HOST's turn keeps the invariant.
-/

namespace Sys2Proof.Machine

/-! ### The address map -/

theorem regionOf_regE {p : Config.Params} (off : Nat) (h : off < 256) :
    regionOf p (p.encBase + off) = some (.regE off) := by
  rw [regionOf, if_pos ⟨Nat.le_add_right _ _, by simp only [Config.regBlockBytes]; omega⟩, Nat.add_sub_cancel_left]

theorem regionOf_regD {p : Config.Params} (hw : p.wf) (off : Nat) (h : off < 256) :
    regionOf p (p.decBase + off) = some (.regD off) := by
  obtain ⟨-, -, -, -, -, -, h1, -⟩ := hw
  rw [regionOf, if_neg (by simp only [within, Config.regBlockBytes, Config.disjoint] at *; omega),
    if_pos ⟨Nat.le_add_right _ _, by simp only [Config.regBlockBytes]; omega⟩, Nat.add_sub_cancel_left]

theorem regionOf_pixE {p : Config.Params} (hw : p.wf) (a : Nat) (h : a < p.pixMemBytes) :
    regionOf p (p.pixeBase + a) = some (.pixE a) := by
  obtain ⟨-, -, -, -, -, -, -, h1, -, h2, -⟩ := hw
  rw [regionOf, if_neg (by simp only [within, Config.regBlockBytes, Config.disjoint] at *; omega),
    if_neg (by simp only [within, Config.regBlockBytes, Config.disjoint] at *; omega),
    if_pos ⟨Nat.le_add_right _ _, by omega⟩, Nat.add_sub_cancel_left]

theorem regionOf_pixD {p : Config.Params} (hw : p.wf) (a : Nat) (h : a < p.pixMemBytes) :
    regionOf p (p.pixdBase + a) = some (.pixD a) := by
  obtain ⟨-, -, -, -, -, -, -, -, h1, -, h2, h3⟩ := hw
  rw [regionOf, if_neg (by simp only [within, Config.regBlockBytes, Config.disjoint] at *; omega),
    if_neg (by simp only [within, Config.regBlockBytes, Config.disjoint] at *; omega),
    if_neg (by simp only [within, Config.disjoint] at *; omega),
    if_pos ⟨Nat.le_add_right _ _, by omega⟩, Nat.add_sub_cancel_left]

@[simp] theorem busBytes_length (o : ByteOrder) (n : Nat) (v : BitVec 64) : (busBytes o n v).length = n := by
  cases o <;> simp [busBytes]

theorem Width.bytes_pos (w : Width) : 1 ≤ w.bytes := by cases w <;> decide

/-! ### Commands keep the invariant -/

theorem Enc.init_ok {p : Config.Params} (e : Enc) (s : Session) (hs : s ≠ .error)
    (hb : s = .busy → imageOk p.pixMemBytes e.width e.height e.channels) : ({ e.init with state := s } : Enc).Ok p where
  outQ_le := Nat.zero_le _
  err_iff := by simp [Enc.init, hs]
  session := by
    intro h
    have hi := hb h
    exact ⟨hi, Nat.zero_le _, Cache.placed_init, fun _ => rfl, fun _ => ⟨rfl, rfl, rfl⟩, fun h => (by cases h),
      fun h => (by cases h), fun h => absurd rfl h⟩

theorem encStart_keeps {s : State} (hi : s.Inv) : (encStart s).Inv := by
  simp only [encStart]
  split
  · exact hi
  · split
    · rename_i c hc
      refine hi.of_enc rfl rfl rfl rfl ⟨Nat.zero_le _, ?_, fun h => (by cases h)⟩
      simp [imageError_ne_none hc]
    · rename_i hc
      exact hi.of_enc rfl rfl rfl rfl (Enc.init_ok _ _ (by simp) fun _ => (imageError_none_iff _ _ _ _).1 hc)

theorem encAbort_keeps {s : State} (hi : s.Inv) : (encAbort s).Inv :=
  hi.of_enc rfl rfl rfl rfl ⟨Nat.zero_le _, by simp [encAbort], fun h => (by cases h)⟩

theorem encCommand_keeps {s : State} (hi : s.Inv) (v : Word) : (encCommand v s).Inv := by
  simp only [encCommand]
  split
  · exact encAbort_keeps hi
  · split
    · exact encStart_keeps hi
    · exact hi

/-- A configuration write keeps ENC's part: while BUSY it is ignored, otherwise no session reads it. -/
theorem encConfigure_keeps {s : State} (hi : s.Inv) (f : Enc → Enc) (h1 : ∀ e, (f e).outQ = e.outQ)
    (h2 : ∀ e, (f e).state = e.state) (h3 : ∀ e, (f e).err = e.err) : (encConfigure f s).Inv := by
  simp only [encConfigure]
  split
  · exact hi
  · rename_i hb
    refine hi.of_enc rfl rfl rfl rfl ⟨?_, ?_, ?_⟩
    · rw [h1]; exact hi.enc.outQ_le
    · rw [h2, h3]; exact hi.enc.err_iff
    · rw [h2]; exact fun h => absurd h hb

theorem encRegWrite_keeps {s : State} (hi : s.Inv) (r : EncReg) (v : Word) : (encRegWrite r v s).Inv := by
  cases r with
  | ctrl => exact encCommand_keeps hi v
  | width => exact encConfigure_keeps hi (fun e => { e with width := v }) (fun _ => rfl) (fun _ => rfl) (fun _ => rfl)
  | height => exact encConfigure_keeps hi (fun e => { e with height := v }) (fun _ => rfl) (fun _ => rfl) (fun _ => rfl)
  | format =>
    exact encConfigure_keeps hi
      (fun e => { e with channels := v.extractLsb' 0 8, colorspace := v.extractLsb' 8 1 }) (fun _ => rfl) (fun _ => rfl) (fun _ => rfl)
  | status => exact hi
  | pixposLo => exact hi
  | pixposHi => exact hi
  | outcntLo => exact hi
  | outcntHi => exact hi
  | outData => exact hi
  | outLevel => exact hi
  | reserved => exact hi

theorem decStart_keeps {s : State} (hi : s.Inv) : (decStart s).Inv := by
  simp only [decStart]
  split
  · exact hi
  · exact hi.of_dec rfl rfl rfl hi.pixD_wf hi.pixD_below
      ⟨Nat.zero_le _, Nat.zero_le _, by simp [Dec.init], by simp [Dec.init],
        fun _ _ => ⟨rfl, rfl, Cache.placed_init⟩, fun _ h => (by cases h)⟩

theorem decAbort_keeps {s : State} (hi : s.Inv) : (decAbort s).Inv :=
  hi.of_dec rfl rfl rfl hi.pixD_wf hi.pixD_below
    ⟨Nat.zero_le _, Nat.zero_le _, by simp [decAbort], fun h => (by cases h), fun h => (by cases h), fun h => (by cases h)⟩

theorem decInLast_keeps {s : State} (hi : s.Inv) : (decInLast s).Inv := by
  simp only [decInLast]
  split
  · rename_i hb
    refine hi.of_dec rfl rfl rfl hi.pixD_wf hi.pixD_below
      ⟨hi.dec.pos_le, hi.dec.fifo_le, hi.dec.err_iff, fun _ => by simp [hb], hi.dec.atHdr, fun h1 h2 => ?_⟩
    obtain ⟨a, b, c, d, e⟩ := hi.dec.atBody h1 h2
    exact ⟨a, b, c, d, e⟩
  · exact hi

theorem decCommand_keeps {s : State} (hi : s.Inv) (v : Word) : (decCommand v s).Inv := by
  have h1 : (if v.getLsbD 0 then decStart s else s).Inv := by
    split
    · exact decStart_keeps hi
    · exact hi
  simp only [decCommand]
  split
  · exact decAbort_keeps hi
  · split
    · exact decInLast_keeps h1
    · exact h1

theorem decPush_keeps {s : State} (hi : s.Inv) (v : Byte) : (decPush v s).Inv := by
  simp only [decPush]
  split
  · rename_i ha
    simp only [decAccepts, decide_eq_true_eq] at ha
    refine hi.of_dec rfl rfl rfl hi.pixD_wf hi.pixD_below
      ⟨?_, ?_, hi.dec.err_iff, hi.dec.last, hi.dec.atHdr, fun h1 h2 => ?_⟩
    · have := hi.dec.pos_le
      simp only [Dec.avail, List.length_append, List.length_cons, List.length_nil] at *
      omega
    · have h1 := ha.2.2
      have h2 := hi.dec.pos_le
      simp only [occupancy, Dec.avail, List.length_append, List.length_cons, List.length_nil] at *
      omega
    · obtain ⟨a, b, c, d, e⟩ := hi.dec.atBody h1 h2
      exact ⟨a, b, c, d, e⟩
  · refine hi.of_dec rfl rfl rfl hi.pixD_wf hi.pixD_below
      ⟨hi.dec.pos_le, hi.dec.fifo_le, hi.dec.err_iff, hi.dec.last, hi.dec.atHdr, fun h1 h2 => ?_⟩
    obtain ⟨a, b, c, d, e⟩ := hi.dec.atBody h1 h2
    exact ⟨a, b, c, d, e⟩

theorem decRegWrite_keeps {s : State} (hi : s.Inv) (r : DecReg) (v : Word) : (decRegWrite r v s).Inv := by
  cases r with
  | ctrl => exact decCommand_keeps hi v
  | inData => exact decPush_keeps hi _
  | status => exact hi
  | width => exact hi
  | height => exact hi
  | format => exact hi
  | pixcntLo => exact hi
  | pixcntHi => exact hi
  | incntLo => exact hi
  | incntHi => exact hi
  | inFree => exact hi
  | reserved => exact hi

theorem encAfterRead_ok {p : Config.Params} {e : Enc} (h : e.Ok p) (r : EncReg) : (encAfterRead r e).Ok p := by
  cases r with
  | outData =>
    refine ⟨?_, h.err_iff, fun hb => ?_⟩
    · have := h.outQ_le
      simp only [encAfterRead, List.length_tail]
      omega
    · obtain ⟨a, b, c, d, x, f, g, i⟩ := h.session hb
      exact ⟨a, b, c, d, x, f, g, i⟩
  | ctrl => exact h
  | status => exact h
  | width => exact h
  | height => exact h
  | format => exact h
  | pixposLo => exact h
  | pixposHi => exact h
  | outcntLo => exact h
  | outcntHi => exact h
  | outLevel => exact h
  | reserved => exact h

theorem hardReset_keeps {s : State} (hi : s.Inv) : (hardReset s).Inv where
  params := hi.params
  pixE_wf := List.Pairwise.nil
  pixD_wf := List.Pairwise.nil
  pixE_below := fun c hc => absurd hc (List.not_mem_nil)
  pixD_below := fun c hc => absurd hc (List.not_mem_nil)
  enc := ⟨Nat.zero_le _, by simp [hardReset, Enc.reset], fun h => (by cases h)⟩
  dec := ⟨Nat.zero_le _, Nat.zero_le _, by simp [hardReset, Dec.reset], fun h => (by cases h), fun h => (by cases h),
    fun h => (by cases h)⟩

/-! ### HOST's turn -/

/-- An access stops only as the map and R67 say, and otherwise answers a state of the invariant. -/
def hostOutcome (r : Result) : Prop :=
  (∃ t, r = .next t ∧ t.Inv) ∨ r = .fault .unmappedAddress ∨ r = .refused .registerAccess

theorem State.Inv.of_model {s t : State} (hi : s.Inv) (hp : t.params = s.params) (he : t.enc = s.enc)
    (hd : t.dec = s.dec) (hx : t.pixE = s.pixE) (hy : t.pixD = s.pixD) : t.Inv where
  params := hp ▸ hi.params
  pixE_wf := hx ▸ hi.pixE_wf
  pixD_wf := hy ▸ hi.pixD_wf
  pixE_below := by rw [hx, hp]; exact hi.pixE_below
  pixD_below := by rw [hy, hp]; exact hi.pixD_below
  enc := by rw [he, hp]; exact hi.enc
  dec := by rw [hd, hp]; exact hi.dec

theorem hostRead_keeps {s : State} (hi : s.Inv) (a : Nat) (w : Width) : hostOutcome (hostRead a w s) := by
  simp only [hostRead]
  split
  · split
    · exact .inl ⟨_, rfl, hi.of_enc rfl rfl rfl rfl (encAfterRead_ok hi.enc _)⟩
    · exact .inr (.inr rfl)
  · split
    · exact .inl ⟨_, rfl, hi.of_model rfl rfl rfl rfl rfl⟩
    · exact .inr (.inr rfl)
  · split
    · exact .inl ⟨_, rfl, hi.of_model rfl rfl rfl rfl rfl⟩
    · exact .inr (.inl rfl)
  · split
    · exact .inl ⟨_, rfl, hi.of_model rfl rfl rfl rfl rfl⟩
    · exact .inr (.inl rfl)
  · exact .inr (.inl rfl)

theorem hostWrite_keeps {s : State} (hi : s.Inv) (a : Nat) (w : Width) (v : BitVec 64) :
    hostOutcome (hostWrite a w v s) := by
  simp only [hostWrite]
  split
  · split
    · exact .inl ⟨_, rfl, encRegWrite_keeps hi _ _⟩
    · exact .inr (.inr rfl)
  · split
    · exact .inl ⟨_, rfl, decRegWrite_keeps hi _ _⟩
    · exact .inr (.inr rfl)
  · split
    · rename_i hx
      refine .inl ⟨_, rfl, ⟨hi.params, Memory.writeBytes_wf hi.pixE_wf _ _, hi.pixD_wf,
        Memory.writeBytes_below hi.pixE_below (by rw [busBytes_length]; exact hx), hi.pixD_below, hi.enc, hi.dec⟩⟩
    · exact .inr (.inl rfl)
  · split
    · rename_i hx
      exact .inl ⟨_, rfl, hi.of_dec rfl rfl rfl (Memory.writeBytes_wf hi.pixD_wf _ _)
        (Memory.writeBytes_below hi.pixD_below (by rw [busBytes_length]; exact hx)) hi.dec⟩
    · exact .inr (.inl rfl)
  · exact .inr (.inl rfl)

theorem hostAct_keeps {s : State} (hi : s.Inv) (a : HostAct) : hostOutcome (hostAct a s) := by
  cases a with
  | read addr w => exact hostRead_keeps hi addr w
  | write addr w v => exact hostWrite_keeps hi addr w v
  | reset => exact .inl ⟨_, rfl, hardReset_keeps hi⟩

theorem hostTurn_keeps {s : State} (hi : s.Inv) : hostOutcome (hostTurn s) := by
  exact hostAct_keeps (s := s.takeAct) (hi.of_model rfl rfl rfl rfl rfl) s.nextAct

/-- An act put at the head of the host's list is what HOST's turn performs. -/
theorem hostTurn_cons (s : State) (a : HostAct) : hostTurn { s with hostQ := a :: s.hostQ } = hostAct a s := rfl

/-! ### The schedule -/

theorem beginTurn_keeps {s : State} (hi : s.Inv) : s.beginTurn.Inv := hi.of_model rfl rfl rfl rfl rfl

/-- A turn fixed in the schedule is that agent's. -/
theorem turn_of_sched {s : State} {a : Agent} {rest : List Agent} (h : s.sched = a :: rest) : s.turn = a := by
  simp only [State.turn, h]

/-- With no turn fixed, the agent that moves has an enabled step. -/
theorem turn_enabled {s : State} (h : s.sched = []) : s.enabled s.turn = true := by
  have hh : Agent.host ∈ s.enabledAgents := by simp [State.enabledAgents, State.enabled]
  have hl := List.length_pos_of_mem hh
  have hm : s.turn ∈ s.enabledAgents := by
    simp only [State.turn, h]
    rw [List.getD_eq_getElem _ _ (Nat.mod_lt _ hl)]
    exact List.getElem_mem _
  exact (List.mem_filter.1 hm).2

/-- With no turn fixed and no engine enabled, HOST moves, and only the host's act is drawn. -/
theorem turn_host_of_idle {s : State} (h : s.sched = []) (he : encEnabled s.params s.enc = false)
    (hd : decEnabled s.dec = false) : s.turn = .host ∧ s.beginTurn = s := by
  have ha : s.enabledAgents = [.host] := by simp [State.enabledAgents, List.filter, State.enabled, he, hd]
  refine ⟨?_, ?_⟩
  · simp only [State.turn, h, ha, List.length_singleton, Nat.mod_one]; rfl
  · obtain ⟨p, e, d, x, y, q, r, sc, n⟩ := s
    simp only at h
    subst h
    simp [State.beginTurn, State.choiceFree, ha]

end Sys2Proof.Machine
end

