-- ==== Sys2Proof/Machine/HostProgram.lean ====
section
/-!
DEFINITION. The source's calls as host programs: `encode` (spec/43_control.md R264), `decode` (R265), and the resumable
pair `encode_into` and `decode_from` (R266). A program is plain data: the access it makes next, and where it stands once
that access has answered. It reaches the block through host accesses alone, and runs under any interleaving of its
accesses with the engines' turns.
-/

namespace Sys2Proof.Machine

/-! ### Running a program -/

/-- A program's next access, and where it then stands; one that is finished takes no further step. -/
def progTurn {α : Type} (act : α → Option HostAct) (after : BitVec 64 → α → α) (x : α × State) : Option (α × State) :=
  match act x.1 with
  | none => some x
  | some a => (stateOf? (hostAct a x.2)).map fun t => (after (t.replies.getLastD 0) x.1, t)

/-- One agent's turn, the host being the program. -/
def progAgent {α : Type} (act : α → Option HostAct) (after : BitVec 64 → α → α) (a : Agent) (x : α × State) :
    Option (α × State) :=
  match a with
  | .host => progTurn act after x
  | .enc => (stateOf? (encTurn x.2)).map fun t => (x.1, t)
  | .dec => (stateOf? (decTurn x.2)).map fun t => (x.1, t)

/-- A program under a given interleaving (R251). -/
def progRun {α : Type} (act : α → Option HostAct) (after : BitVec 64 → α → α) :
    List Agent → α × State → Option (α × State)
  | [], x => some x
  | a :: as, x => (progAgent act after a x).bind (progRun act after as)

/-- A 32-bit read of a register at an offset of a block. -/
def regRead (base off : Nat) : HostAct := .read (base + off) .word

/-- A 32-bit write of a register at an offset of a block. -/
def regWrite (base off : Nat) (v : Word) : HostAct := .write (base + off) .word (v.setWidth 64)

/-- Byte writes at rising addresses. -/
def byteWrites : Nat → List Byte → List HostAct
  | _, [] => []
  | a, b :: bs => .write a .byte (b.setWidth 64) :: byteWrites (a + 1) bs

/-! ### What a program reads in a register -/

/-- STATE of a status register (10_state.md R46, R55). -/
def stateField (v : BitVec 64) : BitVec 2 := v.extractLsb' 0 2

/-- ERR of a status register. -/
def errField (v : BitVec 64) : Byte := v.extractLsb' 8 8

/-- Bits 7:0: a data byte, or CH of DEC_FORMAT. -/
def byteField (v : BitVec 64) : Byte := v.extractLsb' 0 8

/-- VALID of ENC_OUT_DATA (10_state.md R52). -/
def validField (v : BitVec 64) : Bool := v.getLsbD 8

/-! ### encode (R264) -/

/-- What `encode` gives: the stream on DONE; the failure ENC_STATUS.ERR names on ERROR, with no stream. -/
inductive EncodeResult where
  | bytes (bs : List Byte)
  | failed (err : Byte)
  deriving DecidableEq, Repr

/-- Where the program `encode` stands. -/
inductive EncodeAt where
  /-- the writes still to make, up to START -/
  | setup (a : HostAct) (rest : List HostAct)
  /-- to read ENC_STATUS, with the bytes read so far -/
  | status (got : List Byte)
  /-- to read ENC_OUT_DATA, with the last ENC_STATUS -/
  | pop (st : BitVec 64) (got : List Byte)
  | finished (r : EncodeResult)
  deriving DecidableEq, Repr

/-- The writes before START and START itself: the image, the configuration, ENC_CTRL = 1 (R264;
70_reset_and_hazards.md R343). The spec gives no effect to a write past PIX_E, yet names BufferTooSmall as a result of
`encode`: of an image larger than PIX_MEM_BYTES only the bytes that have an address in PIX_E are written, so that START
gives that error. DESIGN CHOICE (log 18). -/
def encodeProgram (p : Config.Params) (img : List Byte) (w h : Word) (ch : Byte) (cs : BitVec 1) : List HostAct :=
  byteWrites p.pixeBase (img.take p.pixMemBytes) ++
    [regWrite p.encBase 0x08 w, regWrite p.encBase 0x0C h, regWrite p.encBase 0x10 (0#23 ++ cs ++ ch),
      regWrite p.encBase 0x00 1]

/-- A list of writes to make, and then the reads. -/
def EncodeAt.writes : List HostAct → EncodeAt
  | [] => .status []
  | a :: rest => .setup a rest

/-- One read of ENC_OUT_DATA. -/
def popAct (p : Config.Params) : HostAct := regRead p.encBase 0x24

/-- The next access of `encode`. -/
def EncodeAt.act (p : Config.Params) : EncodeAt → Option HostAct
  | .setup a _ => some a
  | .status _ => some (regRead p.encBase 0x04)
  | .pop _ _ => some (popAct p)
  | .finished _ => none

/-- Where `encode` stands once its access has answered v. A read with VALID = 0 ends it when ENC_STATUS, read before it,
showed DONE or ERROR; in that order no byte can still follow (log 17). -/
def EncodeAt.after (v : BitVec 64) : EncodeAt → EncodeAt
  | .setup _ rest => EncodeAt.writes rest
  | .status got => .pop v got
  | .pop st got =>
    if validField v then .status (got ++ [byteField v])
    else if stateField st = 2 then .finished (.bytes got)
    else if stateField st = 3 then .finished (.failed (errField st))
    else .status got
  | .finished r => .finished r

/-- `encode(pixels, width, height, channels, colorspace)` under a given interleaving. -/
def encodeCall (img : List Byte) (w h : Word) (ch : Byte) (cs : BitVec 1) (order : List Agent) (s : State) :
    Option (EncodeAt × State) :=
  progRun (EncodeAt.act s.params) EncodeAt.after order (EncodeAt.writes (encodeProgram s.params img w h ch cs), s)

/-! ### Pushing a stream (R265) -/

/-- Where a host that pushes bytes stands: the byte to push next and the ones after it. -/
inductive Pushing where
  /-- to read DEC_IN_FREE -/
  | free (b : Byte) (rest : List Byte)
  /-- to read DEC_STATUS, no room having been free -/
  | status (b : Byte) (rest : List Byte)
  /-- to write DEC_IN_DATA -/
  | write (b : Byte) (rest : List Byte)
  deriving DecidableEq, Repr

/-- The start of pushing some bytes; nothing to do for none. -/
def Pushing.start : List Byte → Option Pushing
  | [] => none
  | b :: rest => some (.free b rest)

/-- The next access of the pushing host. -/
def Pushing.act (p : Config.Params) : Pushing → HostAct
  | .free _ _ => regRead p.decBase 0x28
  | .status _ _ => regRead p.decBase 0x04
  | .write b _ => regWrite p.decBase 0x24 (b.setWidth 32)

/-- Wait until DEC_IN_FREE > 0 or STATE ≠ BUSY, then write the byte; once STATE leaves BUSY the bytes left over are not
pushed (R265). None where the host is through. -/
def Pushing.after (v : BitVec 64) : Pushing → Option Pushing
  | .free b rest => some (if v = 0 then .status b rest else .write b rest)
  | .status b rest => if stateField v = 1 then some (.free b rest) else none
  | .write _ rest => Pushing.start rest

/-! ### decode (R265) -/

/-- What `decode` gives: the image on DONE; the failure DEC_STATUS.ERR names on ERROR. -/
inductive DecodeResult where
  | image (pixels : List Byte) (w h : Word) (ch : Byte)
  | failed (err : Byte)
  deriving DecidableEq, Repr

/-- Where the program `decode` stands. -/
inductive DecodeAt where
  /-- to write START -/
  | start (bs : List Byte)
  | push (x : Pushing)
  /-- to write IN_LAST -/
  | last
  /-- to read DEC_STATUS until it shows DONE or ERROR -/
  | status
  | width
  | height (w : Word)
  | format (w h : Word)
  /-- to read the byte of PIX_D at address `got.length`, and `left` more after it -/
  | pixel (w h : Word) (ch : Byte) (left : Nat) (got : List Byte)
  | finished (r : DecodeResult)
  deriving DecidableEq, Repr

/-- The program `decode` before its first access. -/
def decodeProgram (bs : List Byte) : DecodeAt := .start bs

/-- Go on pushing, or declare the stream complete. -/
def DecodeAt.pushing : Option Pushing → DecodeAt
  | some x => .push x
  | none => .last

/-- Read n bytes of PIX_D, with the ones read so far. -/
def DecodeAt.pixels (w h : Word) (ch : Byte) (n : Nat) (got : List Byte) : DecodeAt :=
  match n with
  | 0 => .finished (.image got w h ch)
  | left + 1 => .pixel w h ch left got

/-- The next access of `decode`. -/
def DecodeAt.act (p : Config.Params) : DecodeAt → Option HostAct
  | .start _ => some (regWrite p.decBase 0x00 1)
  | .push x => some (x.act p)
  | .last => some (regWrite p.decBase 0x00 4)
  | .status => some (regRead p.decBase 0x04)
  | .width => some (regRead p.decBase 0x08)
  | .height _ => some (regRead p.decBase 0x0C)
  | .format _ _ => some (regRead p.decBase 0x10)
  | .pixel _ _ _ _ got => some (.read (p.pixdBase + got.length) .byte)
  | .finished _ => none

/-- Where `decode` stands once its access has answered v. -/
def DecodeAt.after (v : BitVec 64) : DecodeAt → DecodeAt
  | .start bs => DecodeAt.pushing (Pushing.start bs)
  | .push x => DecodeAt.pushing (x.after v)
  | .last => .status
  | .status =>
    if stateField v = 2 then .width
    else if stateField v = 3 then .finished (.failed (errField v))
    else .status
  | .width => .height (v.setWidth 32)
  | .height w => .format w (v.setWidth 32)
  | .format w h => DecodeAt.pixels w h (byteField v) (pixelCount w h * (byteField v).toNat) []
  | .pixel w h ch left got => DecodeAt.pixels w h ch left (got ++ [byteField v])
  | .finished r => .finished r

/-- `decode(bytes)` under a given interleaving. -/
def decodeCall (bs : List Byte) (order : List Agent) (s : State) : Option (DecodeAt × State) :=
  progRun (DecodeAt.act s.params) DecodeAt.after order (decodeProgram bs, s)

/-! ### encode_into (R266) -/

/-- Where `encode_into(buffer)` stands; `bytes_written` is the number of bytes got. -/
inductive EncodeIntoAt where
  /-- to read ENC_OUT_DATA, and `left` times more after it -/
  | pop (left : Nat) (got : List Byte)
  | status (got : List Byte)
  /-- to read ENC_OUT_LEVEL, having seen whether STATE = DONE -/
  | level (ended : Bool) (got : List Byte)
  | finished (got : List Byte) (done : Bool)
  deriving DecidableEq, Repr

/-- n more reads of ENC_OUT_DATA, with the bytes got so far. -/
def EncodeIntoAt.burst (n : Nat) (got : List Byte) : EncodeIntoAt :=
  match n with
  | 0 => .status got
  | left + 1 => .pop left got

/-- The next access of `encode_into`. -/
def EncodeIntoAt.act (p : Config.Params) : EncodeIntoAt → Option HostAct
  | .pop _ _ => some (popAct p)
  | .status _ => some (regRead p.encBase 0x04)
  | .level _ _ => some (regRead p.encBase 0x28)
  | .finished _ _ => none

/-- Where `encode_into` stands once its access has answered v: the bytes of the VALID reads, and done when STATE = DONE
and then ENC_OUT_LEVEL = 0. -/
def EncodeIntoAt.after (v : BitVec 64) : EncodeIntoAt → EncodeIntoAt
  | .pop left got => EncodeIntoAt.burst left (if validField v then got ++ [byteField v] else got)
  | .status got => .level (decide (stateField v = 2)) got
  | .level ended got => .finished got (ended && decide (v = 0))
  | .finished got done => .finished got done

/-- `encode_into(buffer)` for a buffer of n bytes, in a session that runs, under a given interleaving. -/
def encodeIntoCall (n : Nat) (order : List Agent) (s : State) : Option (EncodeIntoAt × State) :=
  progRun (EncodeIntoAt.act s.params) EncodeIntoAt.after order (EncodeIntoAt.burst n [], s)

/-! ### decode_from (R266) -/

/-- Where a host that reads the 64-bit DEC_PIXCNT as HI, LO, HI stands (10_state.md R50; 70_reset_and_hazards.md R344
HZ7). -/
inductive CountRead where
  | hi
  | lo (h : Word)
  | check (h l : Word)
  deriving DecidableEq, Repr

/-- The next access of the counter's reader. -/
def CountRead.act (p : Config.Params) : CountRead → HostAct
  | .hi => regRead p.decBase 0x18
  | .lo _ => regRead p.decBase 0x14
  | .check _ _ => regRead p.decBase 0x18

/-- The counter, once the two reads of its high half agree; otherwise the reader starts again. -/
def CountRead.after (v : BitVec 64) : CountRead → CountRead ⊕ Count
  | .hi => .inl (.lo (v.setWidth 32))
  | .lo h => .inl (.check h (v.setWidth 32))
  | .check h l => if v.setWidth 32 = h then .inr (h ++ l) else .inl .hi

/-- Where `decode_from(buffer)` stands. -/
inductive DecodeFromAt where
  /-- to read DEC_PIXCNT before the burst -/
  | before (r : CountRead) (bs : List Byte)
  | push (k : Count) (x : Pushing)
  | status (k : Count)
  /-- to read DEC_PIXCNT after it, having seen whether STATE = DONE -/
  | count (k : Count) (done : Bool) (r : CountRead)
  | finished (pixels : Nat) (done : Bool)
  deriving DecidableEq, Repr

/-- Go on pushing, or look at the result. -/
def DecodeFromAt.pushing (k : Count) : Option Pushing → DecodeFromAt
  | some x => .push k x
  | none => .status k

/-- The next access of `decode_from`. -/
def DecodeFromAt.act (p : Config.Params) : DecodeFromAt → Option HostAct
  | .before r _ => some (r.act p)
  | .push _ x => some (x.act p)
  | .status _ => some (regRead p.decBase 0x04)
  | .count _ _ r => some (r.act p)
  | .finished _ _ => none

/-- Where `decode_from` stands once its access has answered v: `pixels_written` is the change in DEC_PIXCNT, and it is
done when STATE = DONE. -/
def DecodeFromAt.after (v : BitVec 64) : DecodeFromAt → DecodeFromAt
  | .before r bs =>
    match r.after v with
    | .inl r => .before r bs
    | .inr k => DecodeFromAt.pushing k (Pushing.start bs)
  | .push k x => DecodeFromAt.pushing k (x.after v)
  | .status k => .count k (decide (stateField v = 2)) .hi
  | .count k done r =>
    match r.after v with
    | .inl r => .count k done r
    | .inr l => .finished (l - k).toNat done
  | .finished n done => .finished n done

/-- `decode_from(buffer)` in a session that runs, under a given interleaving. -/
def decodeFromCall (bs : List Byte) (order : List Agent) (s : State) : Option (DecodeFromAt × State) :=
  progRun (DecodeFromAt.act s.params) DecodeFromAt.after order (.before .hi bs, s)

end Sys2Proof.Machine
end

