-- ==== Sys2Proof/Machine/Runs.lean ====
section
/-!
DEFINITION. Whole runs: the one liveness assumption of spec/43_control.md R251, the host's duties of R268, and the end of
a session and of a run (R269). A run is a sequence of states, each the next of the one before; its start fixes the host's
first acts and the first turns, and the rest are free values, so a claim about every run is one about every interleaving.
Weak fairness and the duties are premises of such a claim, not part of the step.
-/

namespace Sys2Proof.Machine

/-! ### Runs -/

/-- A run that goes on for ever: it never stops with a fault or a refusal. -/
def IsRun (run : Nat → State) : Prop := ∀ n, step (run n) = .next (run (n + 1))

/-- A run of n steps, from `run 0` to `run n`; what `run` gives beyond n is no part of it. `step` says what an agent's
step does when it is taken; that no agent takes one any more is a run that ends. -/
def IsRunTo (run : Nat → State) (n : Nat) : Prop := ∀ m, m < n → step (run m) = .next (run (m + 1))

/-- Weak fairness (R251): an engine step that stays enabled is eventually taken. -/
def WeaklyFair (run : Nat → State) : Prop :=
  ∀ a, a ≠ .host → ∀ n, (∀ m, n ≤ m → (run m).enabled a = true) → ∃ m, n ≤ m ∧ (run m).turn = a

/-- Weak fairness of a run that ends in a state (R251): no engine step is left enabled there. -/
def State.fairEnd (s : State) : Prop := ∀ a, a ≠ .host → s.enabled a = false

/-! ### The end of a session and of a run (R269) -/

/-- A session of ENC is over: ERROR, or DONE with every byte read. -/
def Enc.over (e : Enc) : Bool := decide (e.state = .error ∨ e.state = .done ∧ e.outQ = [])

/-- A session of DEC is over. -/
def Dec.over (d : Dec) : Bool := decide (d.state = .error ∨ d.state = .done)

/-- Both engines are in IDLE, DONE or ERROR. -/
def State.quiet (s : State) : Bool := decide (s.enc.state ≠ .busy ∧ s.dec.state ≠ .busy)

/-- An engine is BUSY and holds (20_memory.md R65, R66): not the end of a run. -/
def State.holds (s : State) : Agent → Bool
  | .host => false
  | .enc => decide (s.enc.state = .busy) && !s.enabled .enc
  | .dec => decide (s.dec.state = .busy) && !s.enabled .dec

/-- A run of the model is over with its n-th state: both engines are in IDLE, DONE or ERROR there, and the host takes no
further step, the run having none. -/
def RunOver (run : Nat → State) (n : Nat) : Prop := IsRunTo run n ∧ (run n).quiet = true

/-- A run under a host program is over: the program takes no further step (`progTurn_finished`) and both engines are in
IDLE, DONE or ERROR. -/
def progOver {α : Type} (act : α → Option HostAct) (x : α × State) : Bool := (act x.1).isNone && x.2.quiet

/-! ### The host's duties (R268) -/

/-- The duty while ENC holds: a read of ENC_OUT_DATA. -/
def servesEnc (p : Config.Params) (a : HostAct) : Prop := a = popAct p

/-- The duty while DEC holds: the next stream byte to DEC_IN_DATA, or IN_LAST where the stream is shorter than DEC needs
(a write with ABORT set performs no IN_LAST, R256). -/
def servesDec (p : Config.Params) (a : HostAct) : Prop :=
  (∃ b : Byte, a = regWrite p.decBase 0x24 (b.setWidth 32)) ∨
    ∃ v : Word, v.getLsbD 1 = false ∧ v.getLsbD 2 = true ∧ a = regWrite p.decBase 0x00 v

/-- The next step is one by which the host does its duty to an engine. -/
def State.served (s : State) : Agent → Prop
  | .host => True
  | .enc => s.turn = .host ∧ servesEnc s.params s.beginTurn.nextAct
  | .dec => s.turn = .host ∧ servesDec s.params s.beginTurn.nextAct

/-- The host keeps its duties: it does not leave an engine that holds unserved for ever. -/
def KeepsDuties (run : Nat → State) : Prop :=
  ∀ a n, (∀ m, n ≤ m → (run m).holds a = true) → ∃ m, n ≤ m ∧ (run m).served a

end Sys2Proof.Machine
end

