-- ==== Sys2Proof/Laws/Runs.lean ====
section
/-!
SUPPORT. Induction over runs, that a host program's turn is a turn of the machine's HOST, that at the end of a run only
HOST could still move, and that under a host that keeps its duties no engine holds for ever (spec/43_control.md R269).
-/

namespace Sys2Proof.Machine

/-- What holds at the start and is kept by every step holds throughout a run. -/
theorem IsRun.induct {run : Nat → State} (hr : IsRun run) {P : State → Prop} (h0 : P (run 0))
    (hs : ∀ s t, P s → step s = .next t → P t) (n : Nat) : P (run n) := by
  induction n with
  | zero => exact h0
  | succ n ih => exact hs _ _ ih (hr n)

/-- A turn of a host program that is not finished is HOST's turn with the program's act first in the list. -/
theorem progTurn_act {α : Type} {act : α → Option HostAct} {after : BitVec 64 → α → α} {x : α × State} {a : HostAct}
    (h : act x.1 = some a) :
    progTurn act after x =
      (stateOf? (hostTurn { x.2 with hostQ := a :: x.2.hostQ })).map fun t => (after (t.replies.getLastD 0) x.1, t) := by
  simp only [progTurn, h]
  rfl

/-- A program that is finished takes no further step. -/
theorem progTurn_finished {α : Type} {act : α → Option HostAct} {after : BitVec 64 → α → α} {x : α × State}
    (h : act x.1 = none) : progTurn act after x = some x := by
  simp only [progTurn, h]

/-- A program runs through a schedule in two parts as through the whole. -/
theorem progRun_append {α : Type} {act : α → Option HostAct} {after : BitVec 64 → α → α} (l m : List Agent)
    (x : α × State) : progRun act after (l ++ m) x = (progRun act after l x).bind (progRun act after m) := by
  induction l generalizing x with
  | nil => rfl
  | cons a l ih =>
    simp only [List.cons_append, progRun, Option.bind_assoc, ih]

/-! ### The end of a run -/

/-- An engine that is not BUSY has no enabled step. -/
theorem enabled_of_quiet {s : State} (h : s.quiet = true) {a : Agent} (ha : a ≠ .host) : s.enabled a = false := by
  simp only [State.quiet, decide_eq_true_eq] at h
  cases a with
  | host => exact absurd rfl ha
  | enc => simp [State.enabled, encEnabled, h.1]
  | dec => simp [State.enabled, decEnabled, h.2]

/-- Where both engines are in IDLE, DONE or ERROR, a turn that is not HOST's changes nothing. -/
theorem agentTurn_of_quiet {s : State} (h : s.quiet = true) {a : Agent} (ha : a ≠ .host) : agentTurn a s = .next s := by
  have he := enabled_of_quiet h ha
  cases a with
  | host => exact absurd rfl ha
  | enc => exact if_neg (by rw [show encEnabled s.params s.enc = false from he]; decide)
  | dec => exact if_neg (by rw [show decEnabled s.dec = false from he]; decide)

/-- A run that is over is fair to both engines, and no engine holds at its end. -/
theorem RunOver.fair {run : Nat → State} {n : Nat} (h : RunOver run n) :
    (run n).fairEnd ∧ ∀ a, (run n).holds a = false := by
  have hq := h.2
  refine ⟨fun a ha => enabled_of_quiet hq ha, fun a => ?_⟩
  simp only [State.quiet, decide_eq_true_eq] at hq
  cases a <;> simp [State.holds, hq.1, hq.2]

/-- A fair run that ends is over, or ends with an engine that holds. -/
theorem over_or_holds {run : Nat → State} {n : Nat} (hr : IsRunTo run n) (hf : (run n).fairEnd) :
    RunOver run n ∨ ∃ a, (run n).holds a = true := by
  by_cases hq : (run n).quiet = true
  · exact .inl ⟨hr, hq⟩
  · refine .inr ?_
    by_cases he : (run n).enc.state = .busy
    · exact ⟨.enc, by simp [State.holds, he, hf .enc (by decide)]⟩
    · by_cases hd : (run n).dec.state = .busy
      · exact ⟨.dec, by simp [State.holds, hd, hf .dec (by decide)]⟩
      · exact absurd (by simp [State.quiet, he, hd]) hq

/-! ### What an engine's turn leaves alone -/

theorem putPixel_enc {p : Pixel} {s t : State} (h : putPixel p s = .next t) : t.enc = s.enc := by
  rw [(putPixel_next h).2]; rfl

theorem putRun_enc {n : Nat} {s t : State} (h : putRun n s = .next t) : t.enc = s.enc := by
  induction n generalizing s with
  | zero => cases h; rfl
  | succ n ih =>
    obtain ⟨u, h1, h2⟩ := andThen_eq_next h
    rw [ih h2, putPixel_enc h1]

/-- An item leaves ENC alone (43_control.md R267). -/
theorem exec_enc {i : Instr} {s t : State} (h : exec i s = .next t) : t.enc = s.enc := by
  by_cases ho : i.isOpcode = true ∧ ∀ len, i ≠ .run len
  · obtain ⟨p, hp⟩ := exec_single s ho.1 ho.2
    rw [hp] at h
    rw [(resolve_next h).2]; rfl
  · cases i with
    | run len =>
      simp only [exec, execRun] at h
      split at h
      · cases h; rfl
      · obtain ⟨u, h1, h2⟩ := andThen_eq_next h
        cases h2
        exact (putRun_enc h1 : u.enc = s.enc)
    | endMark =>
      simp only [exec, execEndMark] at h
      split at h <;> (cases h; rfl)
    | header w h' ch cs =>
      simp only [exec, execHeader] at h
      split at h <;> (cases h; rfl)
    | rgba r g b a => exact absurd ⟨rfl, fun _ => Instr.noConfusion⟩ ho
    | rgb r g b => exact absurd ⟨rfl, fun _ => Instr.noConfusion⟩ ho
    | index j => exact absurd ⟨rfl, fun _ => Instr.noConfusion⟩ ho
    | diff dr dg db => exact absurd ⟨rfl, fun _ => Instr.noConfusion⟩ ho
    | luma dg x y => exact absurd ⟨rfl, fun _ => Instr.noConfusion⟩ ho

theorem decTurn_enc {s t : State} (h : decTurn s = .next t) : t.enc = s.enc := by
  simp only [decTurn] at h
  split at h
  · split at h
    · cases h; rfl
    · exact exec_enc h
  · cases h; rfl

/-- ENC's turn leaves DEC alone (43_control.md R267). -/
theorem encTurn_dec {s t : State} (h : encTurn s = .next t) : t.dec = s.dec := by
  simp only [encTurn] at h
  split at h
  · split at h
    · cases h; rfl
    · simp only [encPixelStep] at h
      split at h
      · obtain ⟨e, he⟩ := encPixel_frame s.readPixel s.drawPixel
        cases h
        rw [he]; rfl
      · cases h
    · obtain ⟨e, he⟩ := encFlush_frame s
      cases h
      simp only [State.emit_dec, he]
  · cases h; rfl

/-! ### What a host act does to a BUSY engine -/

/-- To a BUSY ENC: it ends the session, or leaves OUTQ or pops it. -/
theorem hostAct_enc_busy {s t : State} {a : HostAct} (hb : s.enc.state = .busy) (h : hostAct a s = .next t) :
    t.enc.state ≠ .busy ∨ t.enc.outQ = s.enc.outQ ∨ t.enc.outQ = s.enc.outQ.tail := by
  cases a with
  | reset => cases h; exact .inl (by simp [hardReset, Enc.reset])
  | read x w =>
    refine .inr ?_
    simp only [hostAct, hostRead] at h
    split at h
    · split at h
      · cases h
        simp only [encAfterRead]
        split
        · exact .inr rfl
        all_goals exact .inl rfl
      · cases h
    all_goals first
      | (split at h <;> (cases h; try exact .inl rfl))
      | cases h
  | write x w v =>
    simp only [hostAct, hostWrite] at h
    split at h
    · split at h
      · cases h
        simp only [encRegWrite]
        split <;> try exact .inr (.inl rfl)
        · simp only [encCommand]
          split
          · exact .inl (by simp [encAbort])
          · simp [encStart, hb]
        all_goals exact .inr (.inl (by simp only [encConfigure, hb, if_true]))
      · cases h
    · split at h
      · cases h
        simp only [decRegWrite]
        split <;> try exact .inr (.inl rfl)
        · simp only [decCommand, decInLast, decStart]
          split_ifs <;> exact .inr (.inl rfl)
        · simp only [decPush]
          split_ifs <;> exact .inr (.inl rfl)
      · cases h
    all_goals first
      | (split at h <;> (cases h; try exact .inr (.inl rfl)))
      | cases h

/-- To a BUSY DEC: it ends the session, or the input FIFO holds no fewer bytes after it. -/
theorem hostAct_dec_busy {s t : State} {a : HostAct} (hb : s.dec.state = .busy) (h : hostAct a s = .next t) :
    t.dec.state ≠ .busy ∨ occupancy s.dec ≤ occupancy t.dec := by
  cases a with
  | reset => cases h; exact .inl (by simp [hardReset, Dec.reset])
  | read x w =>
    refine .inr ?_
    simp only [hostAct, hostRead] at h
    split at h
    all_goals first
      | (split at h <;> (cases h; try exact le_rfl))
      | cases h
  | write x w v =>
    simp only [hostAct, hostWrite] at h
    split at h
    · split at h
      · cases h
        refine .inr (le_of_eq ?_)
        simp only [encRegWrite]
        split <;> try rfl
        · simp only [encCommand, encStart]
          split_ifs <;> try rfl
          split <;> rfl
        all_goals (simp only [encConfigure]; split <;> rfl)
      · cases h
    · split at h
      · cases h
        simp only [decRegWrite]
        split <;> try exact .inr le_rfl
        · simp only [decCommand]
          split
          · exact .inl (by simp [decAbort])
          · refine .inr (le_of_eq ?_)
            simp only [decStart, hb, if_true, ite_self, decInLast]
            split <;> rfl
        · refine .inr ?_
          simp only [decPush]
          split
          · simp only [occupancy, Dec.avail, List.length_append]; omega
          · exact le_rfl
      · cases h
    all_goals first
      | (split at h <;> (cases h; try exact .inr le_rfl))
      | cases h

/-! ### No engine holds for ever (R269) -/

theorem holds_enc {s : State} : s.holds .enc = true ↔
    s.enc.state = .busy ∧ s.params.outDepth - s.enc.outQ.length < encRoom s.enc.phase := by
  simp only [State.holds, State.enabled, encEnabled, Bool.and_eq_true, decide_eq_true_eq, Bool.not_eq_true',
    decide_eq_false_iff_not, not_and, Nat.not_le]
  exact ⟨fun h => ⟨h.1, h.2 h.1⟩, fun h => ⟨h.1, fun _ => h.2⟩⟩

theorem holds_dec {s : State} : s.holds .dec = true ↔
    s.dec.state = .busy ∧ occupancy s.dec < decNeed s.dec ∧ s.dec.inLast = false := by
  simp only [State.holds, State.enabled, decEnabled, Bool.and_eq_true, decide_eq_true_eq, Bool.not_eq_true',
    decide_eq_false_iff_not, not_and, not_or, Nat.not_le, Bool.not_eq_true]
  exact ⟨fun h => ⟨h.1, h.2 h.1⟩, fun h => ⟨h.1, fun _ => h.2⟩⟩

/-- How far an engine that holds is from a step, at most: the bytes in OUTQ, the bytes DEC's FIFO lacks. -/
def State.gauge (s : State) : Agent → Nat
  | .host => 0
  | .enc => s.enc.outQ.length
  | .dec => 14 - occupancy s.dec

/-- While ENC holds, no step fills OUTQ, and a read of ENC_OUT_DATA takes a byte from it. -/
theorem hold_enc_step {s t : State} (hi : s.Inv) (hs : s.holds .enc = true) (ht : t.holds .enc = true)
    (h : step s = .next t) : t.gauge .enc ≤ s.gauge .enc ∧ (s.served .enc → t.gauge .enc < s.gauge .enc) := by
  have hoff : s.enabled .enc = false := by
    simp only [State.holds, Bool.and_eq_true, Bool.not_eq_true'] at hs; exact hs.2
  obtain ⟨hb, hroom⟩ := holds_enc.1 hs
  have hne : 0 < s.enc.outQ.length := by
    have h1 : encRoom s.enc.phase ≤ 14 := by cases s.enc.phase <;> decide
    have h2 : 14 ≤ s.params.outDepth := hi.params.2.2.1
    omega
  simp only [State.gauge]
  simp only [step] at h
  match hturn : s.turn with
  | .enc =>
    rw [hturn] at h
    have he : encTurn s.beginTurn = .next s.beginTurn :=
      if_neg (by rw [show encEnabled s.beginTurn.params s.beginTurn.enc = false from hoff]; decide)
    simp only [agentTurn, he] at h
    cases h
    exact ⟨le_rfl, fun hv => by have := hv.1; rw [hturn] at this; cases this⟩
  | .dec =>
    rw [hturn] at h
    have he : t.enc = s.enc := decTurn_enc (s := s.beginTurn) h
    exact ⟨by rw [he], fun hv => by have := hv.1; rw [hturn] at this; cases this⟩
  | .host =>
    rw [hturn] at h
    have hb' : s.beginTurn.takeAct.enc.state = .busy := hb
    constructor
    · rcases hostAct_enc_busy hb' h with h1 | h1 | h1
      · exact absurd (holds_enc.1 ht).1 h1
      · exact le_of_eq (congrArg List.length h1)
      · rw [h1, List.length_tail]; exact Nat.sub_le _ _
    · intro hv
      have ha : s.beginTurn.nextAct = popAct s.params := hv.2
      simp only [agentTurn, hostTurn, ha, popAct, regRead, hostAct, hostRead] at h
      rw [show s.beginTurn.takeAct.params = s.params from rfl, regionOf_regE 0x24 (by decide)] at h
      simp only [registerAccess] at h
      cases h
      change (List.tail s.enc.outQ).length < s.enc.outQ.length
      rw [List.length_tail]
      omega

/-- While DEC holds, no step takes bytes from its FIFO, and a byte or IN_LAST brings its step nearer. -/
theorem hold_dec_step {s t : State} (hi : s.Inv) (hs : s.holds .dec = true) (ht : t.holds .dec = true)
    (h : step s = .next t) : t.gauge .dec ≤ s.gauge .dec ∧ (s.served .dec → t.gauge .dec < s.gauge .dec) := by
  have hoff : s.enabled .dec = false := by
    simp only [State.holds, Bool.and_eq_true, Bool.not_eq_true'] at hs; exact hs.2
  obtain ⟨hb, hneed, hlast⟩ := holds_dec.1 hs
  have hocc : occupancy s.dec < 14 := by
    refine lt_of_lt_of_le hneed ?_
    simp only [decNeed]
    split
    · exact le_rfl
    · split
      · decide
      · split
        · decide
        · split
          · decide
          · exact (oplen_le _).trans (by decide)
  simp only [State.gauge]
  simp only [step] at h
  match hturn : s.turn with
  | .enc =>
    rw [hturn] at h
    have he : t.dec = s.dec := encTurn_dec (s := s.beginTurn) h
    exact ⟨by rw [he], fun hv => by have := hv.1; rw [hturn] at this; cases this⟩
  | .dec =>
    rw [hturn] at h
    have he : decTurn s.beginTurn = .next s.beginTurn :=
      if_neg (by rw [show decEnabled s.beginTurn.dec = false from hoff]; decide)
    simp only [agentTurn, he] at h
    cases h
    exact ⟨le_rfl, fun hv => by have := hv.1; rw [hturn] at this; cases this⟩
  | .host =>
    rw [hturn] at h
    have hb' : s.beginTurn.takeAct.dec.state = .busy := hb
    constructor
    · rcases hostAct_dec_busy hb' h with h1 | h1
      · exact absurd (holds_dec.1 ht).1 h1
      · have : occupancy s.dec ≤ occupancy t.dec := h1
        omega
    · intro hv
      rcases hv.2 with ⟨b, ha⟩ | ⟨v, h1, h2, ha⟩
      · simp only [agentTurn, hostTurn, ha, regWrite, hostAct, hostWrite] at h
        rw [show s.beginTurn.takeAct.params = s.params from rfl, regionOf_regD hi.params 0x24 (by decide)] at h
        have hacc : decAccepts s.params s.dec = true := by
          have := hi.params.2.2.2.1
          simp only [decAccepts, decide_eq_true_eq]
          exact ⟨hb, hlast, by omega⟩
        simp only [registerAccess] at h
        cases h
        change 14 - occupancy (decPush _ s.beginTurn.takeAct).dec < 14 - occupancy s.dec
        rw [decPush, if_pos (show decAccepts s.beginTurn.takeAct.params s.beginTurn.takeAct.dec = true from hacc)]
        have hp : s.dec.pos.toNat ≤ s.dec.input.length := hi.dec.pos_le
        simp only [occupancy, Dec.avail, List.length_append, List.length_singleton, State.takeAct, State.beginTurn] at *
        omega
      · simp only [agentTurn, hostTurn, ha, regWrite, hostAct, hostWrite] at h
        rw [show s.beginTurn.takeAct.params = s.params from rfl, regionOf_regD hi.params 0x00 (by decide)] at h
        simp only [registerAccess] at h
        cases h
        have hl : (decCommand v s.beginTurn.takeAct).dec.inLast = true := by
          simp only [decCommand, h1, h2, decStart, hb', if_true, ite_self, decInLast, Bool.false_eq_true, if_false]
        have := (holds_dec.1 ht).2.2
        change (decCommand (BitVec.setWidth 32 (BitVec.setWidth 64 v)) s.beginTurn.takeAct).dec.inLast = false at this
        rw [show BitVec.setWidth 32 (BitVec.setWidth 64 v) = v by simp, hl] at this
        cases this

/-- While an engine holds, no step takes it further from one, and a step that serves it brings it nearer. -/
theorem hold_step {s t : State} {a : Agent} (hi : s.Inv) (hs : s.holds a = true) (ht : t.holds a = true)
    (h : step s = .next t) : t.gauge a ≤ s.gauge a ∧ (s.served a → t.gauge a < s.gauge a) := by
  cases a with
  | host => cases hs
  | enc => exact hold_enc_step hi hs ht h
  | dec => exact hold_dec_step hi hs ht h

/-- Under a host that keeps its duties, no engine holds for ever. -/
theorem KeepsDuties.no_hold {run : Nat → State} (hr : IsRun run) (hinv : ∀ m, (run m).Inv) (hd : KeepsDuties run)
    (a : Agent) (n : Nat) : ∃ m, n ≤ m ∧ (run m).holds a = false := by
  by_contra hc
  have hall : ∀ m, n ≤ m → (run m).holds a = true := fun m hm => by
    by_contra hf
    exact hc ⟨m, hm, by simpa using hf⟩
  have hle : ∀ m k, n ≤ m → (run (m + k)).gauge a ≤ (run m).gauge a := fun m k hm => by
    induction k with
    | zero => exact le_rfl
    | succ k ih => exact (hold_step (hinv _) (hall _ (by omega)) (hall _ (by omega)) (hr (m + k))).1.trans ih
  have key : ∀ g m, n ≤ m → (run m).gauge a = g → False := by
    intro g
    induction g using Nat.strong_induction_on with
    | _ g ih =>
      intro m hm hg
      obtain ⟨j, hj, hv⟩ := hd a m fun i hi => hall i (hm.trans hi)
      have h1 := (hold_step (hinv j) (hall _ (hm.trans hj)) (hall (j + 1) (by omega)) (hr j)).2 hv
      have h2 := hle m (j - m) hm
      rw [Nat.add_sub_cancel' hj] at h2
      exact ih _ (by omega) (j + 1) (by omega) rfl
  exact key _ n le_rfl rfl

end Sys2Proof.Machine
end

