-- ==== Sys2Proof/Tests/Slice0.lean ====
section
/-!
SUPPORT. Tests, each a named theorem: the WellFormed smoke, words written out from the field tables of
spec/30_encoding.md, the worked examples of spec/40 to spec/60 (one step each), and for every statement of
Certificates/Slice0/Obligations.lean a witness of its hypotheses, clause by clause, at the edges of the ranges.
-/

namespace Sys2Proof.Tests

open Sys2Proof Sys2Proof.Machine Sys2Proof.Claims

/-! ### Helpers -/

/-- A small platform. -/
def tp : Config.Params :=
  { Config.Params.default with pixMemBytes := 64, outDepth := 14, inDepth := 14, pixeBase := 0x1000, pixdBase := 0x2000 }

/-- The machine after reset on it. -/
def t0 : State := State.resetOf tp

/-- DEC BUSY in the body of a w × 1 image of `ch` channels, k pixels out, the bytes `bs` still to come and IN_LAST
set. -/
def body (w : Word) (ch : Byte) (k : Count) (bs : List Byte) : State :=
  { t0 with
    dec :=
      { Dec.reset.init with
        phase := .body
        pos := 14
        k := k
        w := w
        h := 1
        ch := ch
        input := hdr w 1 ch 0 ++ bs
        inLast := true }
    sched := [.dec] }

/-- DEC BUSY before its header, the bytes `bs` pushed. -/
def atHdr (bs : List Byte) (last : Bool) : State :=
  { t0 with
    dec := { Dec.reset.init with input := bs, inLast := last }
    sched := [.dec] }

/-- The same, another predictor. -/
def withCur (s : State) (p : Pixel) : State := { s with dec := { s.dec with cur := p } }

/-- A w × 1 image of `ch` channels in ENC's registers, its bytes in PIX_E. -/
def image (w : Word) (ch : Byte) (bs : List Byte) : State :=
  { t0 with
    enc := { Enc.reset with width := w, height := 1, channels := ch }
    pixE := Memory.writeBytes [] 0 bs
    sched := [.enc] }

/-- ENC BUSY on it, in the given phase, with a pending run, before pixel k. -/
def encAt (s : State) (ph : EncPhase) (run : BitVec 6) (k : Count) : State :=
  { s with enc := { s.enc.init with state := .busy, phase := ph, run := run, k := k } }

/-- DEC in a next state. -/
def decOf (r : Result) : Option Dec := (stateOf? r).map (·.dec)

/-- ENC in a next state. -/
def encOf (r : Result) : Option Enc := (stateOf? r).map (·.enc)

/-! ### The WellFormed smoke: an ill-formed item for each check of R102 -/

theorem test_wf_diff_dr : (Instr.diff (-3) 0 0).wf = false := by decide
theorem test_wf_diff_dg : (Instr.diff 0 2 0).wf = false := by decide
theorem test_wf_diff_db : (Instr.diff 0 0 2).wf = false := by decide
theorem test_wf_luma_dg : (Instr.luma 32 0 0).wf = false ∧ (Instr.luma (-33) 0 0).wf = false := by decide
theorem test_wf_luma_drDg : (Instr.luma 0 8 0).wf = false := by decide
theorem test_wf_luma_dbDg : (Instr.luma 0 0 (-9)).wf = false := by decide
theorem test_wf_run : (Instr.run 0).wf = false ∧ (Instr.run 63).wf = false := by decide
theorem test_assembler_rejects : assembleLine (.run 63) = none ∧ assembleLine (.run 62) = some [0xFD] := by decide

/-! ### Decoding: words written out from R85 to R92 -/

/-- R86: FF, then r, g, b, a; the first byte is bits 7..0 of the table's word. -/
theorem test_decode_rgba : decodeTableWord 40 0x40302010FF = some (.rgba 0x10 0x20 0x30 0x40) := by decide

/-- R85: FE, then r, g, b. -/
theorem test_decode_rgb : decodeTableWord 32 0x1E140AFE = some (.rgb 0x0A 0x14 0x1E) := by decide

/-- R87: 00, then the slot. -/
theorem test_decode_index : decodeTableWord 8 0b00_111111 = some (.index 63) := by decide

/-- R88: 01, then dr + 2 = 0, dg + 2 = 3, db + 2 = 1. -/
theorem test_decode_diff : decodeTableWord 8 0b01_00_11_01 = some (.diff (-2) 1 (-1)) := by decide

/-- R89: 10, dg + 32 = 0; then dr − dg + 8 = 15, db − dg + 8 = 1. -/
theorem test_decode_luma : decodeTableWord 16 0b1111_0001_10_000000 = some (.luma (-32) 7 (-7)) := by decide

/-- R90: 11, L − 1 = 61. -/
theorem test_decode_run : decodeTableWord 8 0b11_111101 = some (.run 62) := by decide

/-- R91. -/
theorem test_decode_end : decodeTableWord 64 0x0100000000000000 = some .endMark := by decide

/-- R92: the example of 41_decoder.md R151. -/
theorem test_decode_header : decodeTableWord 112 0x0004010000000200000066696F71 = some (.header 2 1 4 0) := by decide

/-- R83, R94: an opcode cut short and a header cut short are rejected by name. -/
theorem test_decode_rejects :
    decodeBody [0xFF, 1, 2, 3] = .error .truncated ∧ decodeBody [] = .error .empty ∧
    decodeHeader [0x71, 0x6F, 0x69, 0x66, 0] = .error .truncated ∧ decodeHeader [0x71, 0x6F, 0x69, 0x67] = .error .badMagic := by
  decide

/-! ### The encoder of items: the bytes of 30_encoding.md and 95_test_vectors.md -/

theorem test_encode_rgba : encode (.rgba 0x10 0x20 0x30 0x40) = [0xFF, 0x10, 0x20, 0x30, 0x40] := by decide
theorem test_encode_diff : encode (.diff 0 0 0) = [0x6A] ∧ encode (.diff (-1) 0 1) = [0x5B] := by decide
theorem test_encode_luma : encode (.luma 0 0 0) = [0xA0, 0x88] ∧ encode (.luma 5 (-1) 2) = [0xA5, 0x7A] := by decide
theorem test_encode_run : encode (.run 1) = [0xC0] ∧ encode (.run 62) = [0xFD] := by decide
theorem test_runs : (runs 125).flatMap encode = [0xFD, 0xFD, 0xC0] ∧ runs 62 = [.run 62] := by decide

/-! ### One step of DEC: the examples of 41_decoder.md -/

/-- R154: `FF 10 20 30 40`. -/
theorem test_step_rgba :
    (decOf (step (body 1 4 0 [0xFF, 0x10, 0x20, 0x30, 0x40]))).map
      (fun d => (d.cur, Cache.read d.cache 32, d.k, d.pos)) =
    some (⟨16, 32, 48, 64⟩, ⟨16, 32, 48, 64⟩, 1, 19) := by decide

/-- R154: with three channels the alpha byte is kept and not written. -/
theorem test_rgba_three_channels :
    (stateOf? (exec (.rgba 1 2 3 4) (body 1 3 0 []))).map (fun t => (t.dec.cur.a, t.pixD)) =
    some (4, [(0, 1), (1, 2), (2, 3)]) := by decide

/-- R155: alpha is carried over. -/
theorem test_rgb_keeps_alpha :
    (decOf (exec (.rgb 10 20 30) (withCur (body 1 4 0 []) ⟨1, 2, 3, 64⟩))).map (·.cur) = some ⟨10, 20, 30, 64⟩ := by
  decide

/-- R156: INDEX 5 of a fresh cache gives (0,0,0,0), writes slot 0 and leaves slot 5. -/
theorem test_index_fresh :
    (decOf (exec (.index 5) (body 1 4 0 []))).map (fun d => (d.cur, Cache.read d.cache 0, Cache.read d.cache 5, d.pos)) =
    some (Pixel.zero, Pixel.zero, Pixel.zero, 15) := by decide

/-- R157: `55`, every delta −1. -/
theorem test_diff_wraps :
    (decOf (step (body 1 4 0 [0x55]))).map (fun d => (d.cur, Cache.read d.cache 38)) =
    some (⟨255, 255, 255, 255⟩, ⟨255, 255, 255, 255⟩) := by decide

/-- R158: `A5 7A`. -/
theorem test_luma :
    (decOf (step (body 1 4 0 [0xA5, 0x7A]))).map (fun d => (d.cur, Cache.read d.cache 11, d.pos)) =
    some (⟨4, 5, 7, 255⟩, ⟨4, 5, 7, 255⟩, 16) := by decide

/-- R159: `C2` gives three pixels, inserts the predictor and keeps it. -/
theorem test_run :
    (decOf (step (body 3 4 0 [0xC2]))).map (fun d => (d.cur, Cache.read d.cache 53, d.k, d.pos)) =
    some (Pixel.seed, Pixel.seed, 3, 15) := by decide

/-- R159, the row `H(2,1,4) ++ C2` of 60_exceptions.md R316: a run past N, no pixel written. -/
theorem test_run_too_long :
    (stateOf? (step (body 2 4 0 [0xC2]))).map (fun t => (t.dec.err, t.dec.k, t.dec.pos, t.pixD)) =
    some (.pixelCountMismatch, 0, 14, []) := by decide

/-- R160: MARKER with every pixel out. -/
theorem test_end_done :
    (decOf (step (body 2 4 2 marker))).map (fun d => (d.state, d.pos)) = some (.done, 22) := by decide

/-- R160: MARKER with a pixel missing. -/
theorem test_end_early :
    (decOf (step (body 2 4 1 marker))).map (fun d => (d.state, d.err, d.pos)) =
    some (.error, .pixelCountMismatch, 14) := by decide

/-- R151: the example. -/
theorem test_header :
    (decOf (step (atHdr [0x71, 0x6F, 0x69, 0x66, 0, 0, 0, 2, 0, 0, 0, 1, 4, 0] false))).map
      (fun d => (d.w, d.h, d.ch, d.cs, d.pos, d.phase)) = some (2, 1, 4, 0, 14, .body) := by decide

/-- R316: `H(5,5,3)` with 64 bytes of pixel memory. -/
theorem test_header_too_large :
    (decOf (step (atHdr (hdr 5 5 3 0) false))).map (fun d => (d.err, d.w, d.pos)) = some (.bufferTooSmall, 5, 0) := by
  decide

/-- R316: N pixels out and three bytes left that are not the marker; the same with nine bytes. -/
theorem test_no_marker :
    (decOf (step (body 1 4 1 [0, 0, 0]))).map (·.err) = some .missingEndMarker ∧
    (decOf (step (body 1 4 1 [0xC0, 0, 0, 0, 0, 0, 0, 0, 0]))).map (·.err) = some .pixelCountMismatch := by decide

/-- 43_control.md R262: the stream ends at an opcode boundary. -/
theorem test_empty_body : (decOf (step (body 1 4 0 []))).map (·.err) = some .missingEndMarker := by decide

/-! ### One step of ENC: the examples of 42_encoder.md -/

/-- R200. -/
theorem test_enc_header :
    (encOf (step (encAt (image 2 4 []) .hdr 0 0))).map (fun e => (e.outQ, e.phase)) =
    some ([0x71, 0x6F, 0x69, 0x66, 0, 0, 0, 2, 0, 0, 0, 1, 4, 0], .pix) := by decide

/-- R202: the run reaches 62. -/
theorem test_enc_run_62 :
    (encOf (step (encAt (image 2 4 [0, 0, 0, 255]) .pix 61 0))).map (fun e => (e.outQ, e.run, e.k)) =
    some ([0xFD], 0, 1) := by decide

/-- R203: `C2` and then the DIFF byte `7F`. -/
theorem test_enc_flush :
    (encOf (step (encAt (image 2 4 [1, 1, 1, 255]) .pix 3 0))).map (fun e => (e.outQ, e.prev)) =
    some ([0xC2, 0x7F], ⟨1, 1, 1, 255⟩) := by decide

/-- R204: INDEX before DIFF. -/
theorem test_enc_index : selectItem (Cache.insert Cache.init ⟨1, 1, 1, 255⟩) ⟨1, 1, 1, 255⟩ Pixel.seed = .index 4 := by
  decide

/-- R205 to R208: the examples. -/
theorem test_enc_select :
    encode (selectItem Cache.init ⟨255, 0, 1, 255⟩ Pixel.seed) = [0x5B] ∧
    encode (selectItem Cache.init ⟨4, 5, 7, 255⟩ Pixel.seed) = [0xA5, 0x7A] ∧
    encode (selectItem Cache.init ⟨10, 20, 30, 255⟩ Pixel.seed) = [0xFE, 0x0A, 0x14, 0x1E] ∧
    encode (selectItem Cache.init ⟨16, 32, 48, 64⟩ Pixel.seed) = [0xFF, 0x10, 0x20, 0x30, 0x40] := by decide

/-- R210: run = 2 at FIN. -/
theorem test_enc_final :
    (encOf (step (encAt (image 2 4 []) .fin 2 2))).map (fun e => (e.outQ, e.state)) =
    some ([0xC1, 0, 0, 0, 0, 0, 0, 0, 1], .done) := by decide

/-! ### Control: the examples of 43_control.md -/

/-- R254: DEC_STATUS and DEC_IN_FREE after START. -/
theorem test_dec_start : decStatus (decStart t0).dec = 1 ∧ inFree tp (decStart t0).dec = 14 := by decide

/-- R253, 60_exceptions.md R316: the three refusals of ENC START. -/
theorem test_enc_start_errors :
    (encStart (image 1 2 [])).enc.err = .invalidChannelCount ∧ (encStart (image 0 4 [])).enc.err = .emptyImage ∧
    (encStart (image 25 3 [])).enc.err = .bufferTooSmall ∧ (encStart (image 16 4 [])).enc.state = .busy := by decide

/-- R256: 0x5 starts a session declared complete. -/
theorem test_dec_ctrl_5 :
    (decOf (hostWrite 0x100 .word 5 t0)).map (fun d => (d.state, d.inLast)) = some (.busy, true) := by decide

/-- 10_state.md R52: the pop, then an empty FIFO. -/
theorem test_out_data :
    (stateOf? (hostRead 0x24 .word { t0 with enc := { t0.enc with outQ := [0xAB] } })).map
      (fun t => (t.replies, t.enc.outQ)) = some ([0x1AB], []) ∧
    (stateOf? (hostRead 0x24 .word t0)).map (·.replies) = some [0] := by decide

/-- 10_state.md R53, R60: a count shown in 32 bits, up to the last one the spec states (log 15). -/
theorem test_count_word : countWord 14 = 14 ∧ countWord (2 ^ 32 - 1) = 0xFFFFFFFF := by decide

/-! ### Host programs: one access each (43_control.md R264 to R266) -/

/-- R264: a VALID byte is kept; VALID = 0 ends the program once ENC_STATUS showed DONE, and before that it goes on. -/
theorem test_encode_loop :
    EncodeAt.after 0x1AB (.pop 2 [7]) = .status [7, 0xAB] ∧ EncodeAt.after 0 (.pop 2 [7]) = .finished (.bytes [7]) ∧
    EncodeAt.after 0 (.pop 1 [7]) = .status [7] ∧ EncodeAt.after 0 (.pop 0x203 []) = .finished (.failed 2) := by decide

/-- R264: one access of the program on the block: ENC_OUT_DATA pops the byte. -/
theorem test_encode_turn :
    (progTurn (EncodeAt.act tp) EncodeAt.after (.pop 2 [], { t0 with enc := { t0.enc with outQ := [0xAB] } })).map
      (fun x => (x.1, x.2.enc.outQ)) = some (.status [0xAB], []) := by decide

/-- R265: with no room the host looks at STATE; BUSY, it waits; otherwise the bytes left over are not pushed. -/
theorem test_push_waits :
    Pushing.after 0 (.free 1 [2]) = some (.status 1 [2]) ∧ Pushing.after 3 (.free 1 [2]) = some (.write 1 [2]) ∧
    Pushing.after 1 (.status 1 [2]) = some (.free 1 [2]) ∧ Pushing.after 2 (.status 1 [2]) = none ∧
    Pushing.after 0 (.write 1 []) = none := by decide

/-- R265: the result is read out of PIX_D on DONE, and is the error code on ERROR. -/
theorem test_decode_result :
    DecodeAt.after 3 (.format 1 1) = .pixel 1 1 3 2 [] ∧
    DecodeAt.after 9 (.pixel 1 1 3 0 [7, 8]) = .finished (.image [7, 8, 9] 1 1 3) ∧
    DecodeAt.after 0x403 .status = .finished (.failed 4) ∧ DecodeAt.after 1 .status = .status := by decide

/-- R266: bytes_written counts the VALID reads, done needs STATE = DONE and an empty FIFO; pixels_written is the change
in DEC_PIXCNT. -/
theorem test_resumable_pair :
    EncodeIntoAt.after 0x107 (.pop 0 []) = .status [7] ∧ EncodeIntoAt.after 0 (.pop 1 []) = .pop 0 [] ∧
    EncodeIntoAt.after 2 (.status [7]) = .level true [7] ∧ EncodeIntoAt.after 3 (.level true [7]) = .finished [7] false ∧
    EncodeIntoAt.after 0 (.level true [7]) = .finished [7] true ∧
    DecodeFromAt.after 0 (.count 3 true (.check 0 10)) = .finished 7 true ∧
    DecodeFromAt.after 1 (.count 3 true (.check 0 10)) = .count 3 true .hi := by decide

/-- 20_memory.md R72 with the least significant byte first (log 7). -/
theorem test_wide_write :
    (stateOf? (hostWrite 0x1004 .half 0xBBAA t0)).map (·.pixE) = some [(4, 0xAA), (5, 0xBB)] := by decide

/-- 20_memory.md R61, R67: an address of no region, and a byte access of a register. -/
theorem test_host_stops :
    hostRead 0x4000 .byte t0 = .fault .unmappedAddress ∧ hostRead 0x01 .byte t0 = .refused .registerAccess := by
  exact ⟨rfl, rfl⟩

/-- 43_control.md R264 with 60_exceptions.md R316 (W = H = 5, CHANNELS = 3, PIX_MEM_BYTES = 64): 64 of the 75 bytes are
written before the four register writes (log 18). -/
theorem test_encode_too_large : (encodeProgram tp (List.replicate 75 0) 5 5 3 0).length = 68 := by decide

/-- 43_control.md R269: a run that ends right after reset is over; an engine that holds is not the end of one. -/
theorem test_run_over :
    RunOver (fun _ => State.reset) 0 ∧ (encAt t0 .hdr 0 0).quiet = false ∧ (atHdr [] false).holds .dec = true ∧
      (atHdr [] true).holds .dec = false :=
  ⟨⟨fun _ h => absurd h (Nat.not_lt_zero _), by decide⟩, by decide, by decide, by decide⟩

/-- 70_reset_and_hazards.md R340: after reset neither engine has a step, and HOST has (43_control.md R251). -/
theorem test_reset_idles : State.reset.enabledAgents = [.host] := by decide

/-- A placed table row is the first instruction after reset (log 8). -/
theorem test_placed_first :
    (decOf (step (State.reset.withFetchWord 8 0xC2))).map (·.k) = some 3 ∧
    (decOf (step (State.reset.withFetchWord 112 0x0004010000000200000066696F71))).map (·.w) = some 2 := by decide

/-! ### Witnesses: encoding -/

theorem witness_DecodeOfEncode :
    (Instr.header 2 1 4 0).wf = true ∧ (Instr.luma (-32) 7 (-8)).wf = true ∧
    (∀ w h ch cs, Instr.luma (-32) 7 (-8) ≠ .header w h ch cs) ∧
    isMarker (encode (.luma (-32) 7 (-8)) ++ [0]) = false ∧
    (Instr.index 0).wf = true ∧ isMarker (encode (.index 0) ++ [0, 0, 0, 0, 0, 0, 0]) = false := by
  refine ⟨by decide, by decide, fun _ _ _ _ h => (by cases h), by decide, by decide, by decide⟩

theorem witness_EncodeOfDecode :
    decodeBody [0xFD, 7] = .ok (.run 62, [7]) ∧ decodeHeader (hdr 2 1 4 0 ++ [7]) = .ok (.header 2 1 4 0, [7]) :=
  ⟨rfl, rfl⟩

theorem witness_TagRanges :
    isMarker [0, 0, 0, 0, 0, 0, 0, 1, 9] = true ∧ isMarker [0, 0, 0, 0, 0, 0, 0, 0] = false ∧
    (∀ t ∈ [(0x3F : Byte), 0x40, 0x7F, 0x80, 0xBF, 0xC0, 0xFD, 0xFE, 0xFF],
      isMarker [t, 1, 2, 3, 4] = false ∧ oplen t ≤ [t, 1, 2, 3, 4].length) := by decide

theorem witness_OpcodeLengthFromTag :
    decodeOp [0x80, 0x88, 5] = .ok (.luma (-32) 0 0, [5]) ∧ [(0xFF : Byte), 1, 2, 3].length < oplen 0xFF ∧
    [(0xBF : Byte)].length < oplen 0xBF := ⟨rfl, by decide, by decide⟩

theorem witness_OperandAssembly :
    (0x00#8).extractLsb' 6 2 = 0 ∧ isMarker [0, 0] = false ∧ (0x7F#8).extractLsb' 6 2 = 1 ∧
    (0x80#8).extractLsb' 6 2 = 2 ∧ (0xFD#8).extractLsb' 6 2 = 3 ∧ (0xFD : Byte) ≠ 0xFE ∧ (0xFD : Byte) ≠ 0xFF := by
  decide

theorem witness_EncoderFields :
    fitsDiff ⟨254, 1, 0, 255⟩ Pixel.seed = true ∧ fitsLuma ⟨24, 31, 38, 255⟩ Pixel.seed = true ∧
    (1 ≤ 62 ∧ 62 ≤ 62) := by decide

theorem witness_RunsExpansion : 1 ≤ 1 ∧ runs 63 = [.run 62, .run 1] := by decide

theorem witness_CacheOperations :
    (0 : BitVec 6) ≠ pixelHash Pixel.seed ∧ Cache.hit (Cache.insert Cache.init Pixel.seed) Pixel.seed = true := by decide

/-! ### Witnesses: the decoder -/

theorem witness_HeaderStepRule :
    ∀ s ∈ [atHdr (hdr 2 1 4 0) false, atHdr [0x71, 0x6F, 0x69] true, atHdr [] false, atHdr (hdr 5 5 3 0) true],
      s.dec.state = .busy ∧ s.dec.phase = .hdr ∧ s.dec.pos = 0 := by decide

theorem witness_HeaderItem :
    imageOk t0.params.pixMemBytes 16 1 4 ∧ ((5 : Byte) ≠ 3 ∧ (5 : Byte) ≠ 4) ∧
    (((4 : Byte) = 3 ∨ (4 : Byte) = 4) ∧ (0 : Word).toNat * (7 : Word).toNat = 0) ∧
    (((3 : Byte) = 3 ∨ (3 : Byte) = 4) ∧
      t0.params.pixMemBytes < (22 : Word).toNat * (1 : Word).toNat * (3 : Byte).toNat) := by
  refine ⟨⟨.inr rfl, by decide, by decide⟩, by decide, by decide, by decide⟩

theorem witness_BodyStepOrder :
    ∀ s ∈ [body 1 4 0 [], body 1 4 1 [0, 0, 0], body 1 4 0 [0xFE, 10], body 2 4 2 marker], inBody s.dec := by decide

theorem witness_RgbaRule :
    pixelFits (body 16 4 15 []) ∧ inBody (body 1 4 0 [0xFF, 1, 2, 3]).dec ∧
    (body 1 4 0 [0xFF, 1, 2, 3]).dec.inLast = true ∧
    (body 1 4 0 [0xFF, 1, 2, 3]).dec.k.toNat ≠ (body 1 4 0 [0xFF, 1, 2, 3]).dec.n ∧
    (body 1 4 0 [0xFF, 1, 2, 3]).dec.fifo = [0xFF, 1, 2, 3] := by decide

theorem witness_RgbRule :
    pixelFits (body 21 3 20 []) ∧ inBody (body 1 4 0 [0xFE, 10]).dec ∧ (body 1 4 0 [0xFE, 10]).dec.inLast = true ∧
    (body 1 4 0 [0xFE, 10]).dec.k.toNat ≠ (body 1 4 0 [0xFE, 10]).dec.n ∧
    (body 1 4 0 [0xFE, 10]).dec.fifo = [0xFE, 10] := by decide

theorem witness_IndexRule :
    pixelFits (body 16 4 15 []) ∧ isMarker ((63 : BitVec 6).setWidth 8 :: [1]) = false ∧
    isMarker ((0 : BitVec 6).setWidth 8 :: [0, 0, 0, 0, 0, 0, 0]) = false := by decide

theorem witness_DiffRule :
    (0x40#8).extractLsb' 6 2 = 1 ∧ (0x7F#8).extractLsb' 6 2 = 1 ∧ pixelFits (body 16 4 15 []) := by decide

theorem witness_LumaRule :
    (0x80#8).extractLsb' 6 2 = 2 ∧ (0xBF#8).extractLsb' 6 2 = 2 ∧ pixelFits (body 16 4 15 []) ∧
    inBody (body 1 4 0 [0xA5]).dec ∧ (body 1 4 0 [0xA5]).dec.inLast = true ∧
    (body 1 4 0 [0xA5]).dec.k.toNat ≠ (body 1 4 0 [0xA5]).dec.n ∧ (body 1 4 0 [0xA5]).dec.fifo = [0xA5] := by decide

theorem witness_RunRule :
    (body 3 4 1 []).dec.n < (body 3 4 1 []).dec.k.toNat + 3 ∧
    (1 ≤ 3 ∧ (body 3 4 0 []).dec.k.toNat + 3 ≤ (body 3 4 0 []).dec.n ∧
      ((body 3 4 0 []).dec.k.toNat + 3) * pixelSize (body 3 4 0 []).dec.ch ≤ (body 3 4 0 []).params.pixMemBytes) ∧
    (0xC0#8).extractLsb' 6 2 = 3 := by decide

theorem witness_EndRule :
    (body 2 4 2 []).dec.k.toNat = (body 2 4 2 []).dec.w.toNat * (body 2 4 2 []).dec.h.toNat ∧
    (body 2 4 1 []).dec.k.toNat ≠ (body 2 4 1 []).dec.w.toNat * (body 2 4 1 []).dec.h.toNat := by decide

theorem witness_PixelOutOfRangeStops :
    ¬ pixelFits (body 17 4 16 []) ∧
    (1 ≤ 1 ∧ (body 17 4 16 []).dec.k.toNat + 1 ≤ (body 17 4 16 []).dec.n ∧
      (body 17 4 16 []).params.pixMemBytes <
        ((body 17 4 16 []).dec.k.toNat + 1) * pixelSize (body 17 4 16 []).dec.ch) := by decide

theorem witness_SinglePixelFrame :
    (∃ t, exec (.rgba 1 2 3 4) (body 1 4 0 []) = .next t) ∧ (∃ t, exec (.rgb 1 2 3) (body 1 4 0 []) = .next t) ∧
    (∃ t, exec (.index 5) (body 1 4 0 []) = .next t) ∧ (∃ t, exec (.diff 1 1 1) (body 1 4 0 []) = .next t) ∧
    (∃ t, exec (.luma 1 1 1) (body 1 4 0 []) = .next t) :=
  ⟨⟨_, rfl⟩, ⟨_, rfl⟩, ⟨_, rfl⟩, ⟨_, rfl⟩, ⟨_, rfl⟩⟩

theorem witness_RunFrame :
    (∃ t, exec (.run 3) (body 3 4 0 []) = .next t) ∧ (∃ t, exec (.run 4) (body 3 4 0 []) = .next t) :=
  ⟨⟨_, rfl⟩, ⟨_, rfl⟩⟩

theorem witness_FramingFrame :
    (∃ t, exec .endMark (body 3 4 3 []) = .next t) ∧ (∃ t, exec (.header 2 1 4 0) (atHdr [] false) = .next t) :=
  ⟨⟨_, rfl⟩, ⟨_, rfl⟩⟩

/-- DEC waiting, IN_LAST clear. -/
def waiting (bs : List Byte) : State := { body 1 4 0 bs with dec := { (body 1 4 0 bs).dec with inLast := false } }

theorem witness_DecHoldRule :
    ((waiting [0xFE, 1, 2]).dec.avail - (waiting [0xFE, 1, 2]).dec.pos.toNat < decNeed (waiting [0xFE, 1, 2]).dec ∧
      (waiting [0xFE, 1, 2]).dec.inLast = false) ∧
    (t0.params.wf ∧ (waiting (List.replicate 14 0)).dec.state = .busy ∧
      occupancy (waiting (List.replicate 14 0)).dec = (waiting (List.replicate 14 0)).params.inDepth) ∧
    ((body 1 4 0 []).dec.state = .busy ∧ (body 1 4 0 []).dec.inLast = true) := by decide

theorem witness_DecOutcomeFinal :
    ∀ d ∈ [(waiting [0xFE, 1, 2, 3]).dec, (atHdr (hdr 2 1 4 0) false).dec],
      d.state = .busy ∧ d.pos.toNat ≤ d.avail ∧ (d.phase = .hdr → d.pos = 0) ∧
      decNeed d ≤ d.avail - d.pos.toNat := by decide

theorem witness_DecErrorPrecise :
    (∃ t, decTurn (body 2 4 0 [0xC2]) = .next t ∧ (body 2 4 0 [0xC2]).dec.state = .busy ∧
      (body 2 4 0 [0xC2]).dec.phase = .body ∧ t.dec.state = .error) ∧
    (∃ t, decTurn (atHdr (hdr 0 7 4 0) true) = .next t ∧ (atHdr (hdr 0 7 4 0) true).dec.state = .busy ∧
      (atHdr (hdr 0 7 4 0) true).dec.phase = .hdr ∧ t.dec.state = .error) :=
  ⟨⟨_, rfl, rfl, rfl, rfl⟩, ⟨_, rfl, rfl, rfl, rfl⟩⟩

theorem witness_DecodeTerminates : t0.params.pixMemBytes ≤ 2 ^ 48 := by decide

theorem witness_DecodeIsFunctionOfStream :
    t0.params.pixMemBytes ≤ 2 ^ 48 ∧ (withCur (body 3 4 2 []) Pixel.zero).params.pixMemBytes = t0.params.pixMemBytes ∧
    ∃ t, decodeStream [0x71] t0 = .next t :=
  ⟨by decide, rfl, ⟨_, rfl⟩⟩

/-! ### Witnesses: the encoder -/

/-- ENC BUSY before pixel 0 of a 2 × 1 image. -/
def pixStep : State := encAt (image 2 4 [1, 2, 3, 4, 5, 6, 7, 8]) .pix 0 0

/-- The same with bytes waiting in OUTQ. -/
def full (n : Nat) : State := { pixStep with enc := { pixStep.enc with outQ := List.replicate n 0 } }

theorem witness_EncRoomRule :
    (full 9).params.outDepth - (full 9).enc.outQ.length < encRoom (full 9).enc.phase ∧
    (t0.params.wf ∧ pixStep.enc.state = .busy ∧ pixStep.enc.outQ = []) ∧ (∃ t, encTurn (full 8) = .next t) :=
  ⟨by decide, by decide, ⟨_, rfl⟩⟩

theorem witness_EncIndependentOfFifo :
    encEnabled pixStep.params pixStep.enc = true ∧
    encEnabled { pixStep.params with outDepth := 15 } { pixStep.enc with outQ := List.replicate 9 0 } = true ∧
    ∃ t, encTurn pixStep = .next t :=
  ⟨by decide, by decide, ⟨_, rfl⟩⟩

theorem witness_EncFramingSteps :
    (∀ s ∈ [encAt (image 2 4 []) .hdr 0 0], s.enc.state = .busy ∧ s.enc.phase = .hdr ∧
      14 ≤ s.params.outDepth - s.enc.outQ.length) ∧
    (∀ s ∈ [encAt (image 2 4 []) .fin 61 2, encAt (image 2 4 []) .fin 0 2], s.enc.state = .busy ∧ s.enc.phase = .fin ∧
      9 ≤ s.params.outDepth - s.enc.outQ.length) := by decide

theorem witness_EncPixelRead :
    (pixStep.enc.state = .busy ∧ pixStep.enc.phase = .pix ∧ 6 ≤ pixStep.params.outDepth - pixStep.enc.outQ.length) ∧
    Memory.lookup pixStep.pixE 0 = some 1 ∧ Memory.lookup pixStep.pixE 1 = some 2 ∧
    Memory.lookup pixStep.pixE 2 = some 3 ∧ Memory.lookup pixStep.pixE 3 = some 4 ∧ pixStep.enc.channels = 4 ∧
    pixStep.enc.k.toNat * 4 + 4 ≤ pixStep.params.pixMemBytes ∧
    (encAt (image 2 3 [1, 2, 3]) .pix 0 0).enc.channels = 3 ∧
    Memory.lookup (encAt (image 2 4 []) .pix 0 0).pixE 0 = none ∧
    Memory.lookup (encAt (image 2 4 []) .pix 0 0).pixE 3 = none := by decide

theorem witness_EncPixelRule :
    (pixStep.enc.prev = Pixel.seed ∧ pixStep.enc.run + 1 ≠ 62) ∧
    (encAt (image 2 4 []) .pix 61 0).enc.run + 1 = 62 ∧ (⟨1, 2, 3, 4⟩ : Pixel) ≠ pixStep.enc.prev := by decide

theorem witness_SelectionOrder :
    Cache.read Cache.init (pixelHash Pixel.zero) = Pixel.zero ∧
    (∀ p ∈ [(⟨254, 1, 0, 255⟩ : Pixel), ⟨0, 31, 38, 255⟩, ⟨24, 31, 38, 255⟩, ⟨10, 20, 30, 255⟩],
      ¬ Cache.read Cache.init (pixelHash p) = p ∧ p.a = Pixel.seed.a) ∧
    (¬ Cache.read Cache.init (pixelHash ⟨0, 0, 0, 64⟩) = ⟨0, 0, 0, 64⟩ ∧ (64 : Byte) ≠ Pixel.seed.a) := by decide

theorem witness_SelectionInverts :
    pixelFits (body 16 4 15 []) ∧ Cache.read Cache.init (pixelHash Pixel.zero) = Pixel.zero ∧
    Cache.read (body 16 4 15 []).dec.cache (pixelHash Pixel.zero) = Pixel.zero := by decide

theorem witness_RunBlockIsRuns : pixStep.enc.run = 0 := by decide

theorem witness_EncodeTerminates :
    encodable (image 16 4 []) ∧ encodable (image 1 3 []) ∧ (image 1 2 []).enc.state ≠ .busy ∧
    imageError? (image 1 2 []).params.pixMemBytes 1 1 2 = some .invalidChannelCount ∧
    imageError? (image 0 4 []).params.pixMemBytes 0 1 4 = some .emptyImage ∧
    imageError? (image 17 4 []).params.pixMemBytes 17 1 4 = some .bufferTooSmall :=
  ⟨⟨by decide, by decide, by decide, .inr rfl, by decide, by decide⟩,
    ⟨by decide, by decide, by decide, .inl rfl, by decide, by decide⟩, by decide, by decide, by decide, by decide⟩

theorem witness_RoundTrip :
    encodable (image 1 3 [7, 8, 9]) ∧ t0.params.pixMemBytes = (image 1 3 [7, 8, 9]).params.pixMemBytes ∧
    ∀ a, a < (image 1 3 [7, 8, 9]).enc.n * (image 1 3 [7, 8, 9]).enc.channels.toNat →
      ∃ v, Memory.lookup (image 1 3 [7, 8, 9]).pixE a = some v := by
  refine ⟨⟨by decide, by decide, by decide, .inl rfl, by decide, by decide⟩, rfl, fun a h => ?_⟩
  match a, (show a < 3 from h) with
  | 0, _ => exact ⟨7, rfl⟩
  | 1, _ => exact ⟨8, rfl⟩
  | 2, _ => exact ⟨9, rfl⟩

theorem witness_CachesAgree :
    encodable (image 1 4 [0, 0, 0, 255]) ∧ t0.params.pixMemBytes = (image 1 4 [0, 0, 0, 255]).params.pixMemBytes :=
  ⟨⟨by decide, by decide, by decide, .inr rfl, by decide, by decide⟩, rfl⟩

/-! ### Witnesses: control and registers -/

theorem witness_EncStartRule :
    (image 16 4 []).enc.state ≠ .busy ∧ (image 17 4 []).enc.state ≠ .busy ∧ (image 0 4 []).enc.state ≠ .busy ∧
    (image 1 2 []).enc.state ≠ .busy := by decide

theorem witness_DecStartRule :
    t0.dec.state ≠ .busy ∧ ({ tp with inDepth := 2 ^ 32 - 1 } : Config.Params).inDepth < 2 ^ 32 := by decide

theorem witness_CommandPrecedence :
    t0.params.wf ∧ (3 : BitVec 64).getLsbD 1 = true ∧ (5 : BitVec 64).getLsbD 1 = false := by decide

theorem witness_PushRule :
    t0.params.wf ∧
    ((waiting (List.replicate 13 0)).dec.state = .busy ∧ (waiting (List.replicate 13 0)).dec.inLast = false ∧
      (waiting (List.replicate 13 0)).dec.avail - (waiting (List.replicate 13 0)).dec.pos.toNat < 14) ∧
    t0.dec.state ≠ .busy ∧ (body 1 4 0 []).dec.inLast = true ∧
    14 ≤ (waiting (List.replicate 14 0)).dec.avail - (waiting (List.replicate 14 0)).dec.pos.toNat := by decide

theorem witness_EncRegisterReads :
    t0.params.wf ∧ t0.enc.outQ = [] ∧ (full 1).enc.outQ = 0 :: [] ∧
    (0x2C ≤ 0x2C ∧ 0x2C < 256 ∧ 0x2C % 4 = 0) ∧ (0x2C ≤ 0xFC ∧ 0xFC < 256 ∧ 0xFC % 4 = 0) := by decide

theorem witness_DecRegisterReads :
    t0.params.wf ∧ (0x2C ≤ 0x2C ∧ 0x2C < 256 ∧ 0x2C % 4 = 0) ∧ (0x2C ≤ 0xFC ∧ 0xFC < 256 ∧ 0xFC % 4 = 0) := by decide

theorem witness_RegisterWrites :
    t0.params.wf ∧ pixStep.enc.state = .busy ∧ t0.enc.state ≠ .busy ∧
    (∀ off ∈ [0x04, 0x14, 0x24, 0xFC], off < 256 ∧ off % 4 = 0 ∧ (off = 0x04 ∨ 0x14 ≤ off)) ∧
    (∀ off ∈ [0x04, 0x20, 0x28, 0xFC], off < 256 ∧ off % 4 = 0 ∧ 0x04 ≤ off ∧ off ≠ 0x24) := by decide

theorem witness_RegisterAccessRefused :
    t0.params.wf ∧ (0 < 256 ∧ Width.byte ≠ Width.word) ∧ (255 < 256 ∧ 255 % 4 ≠ 0) := by decide

theorem witness_PixelMemoryAccess :
    t0.params.wf ∧ 0 < t0.params.pixMemBytes ∧ 63 < t0.params.pixMemBytes ∧
    56 + Width.dword.bytes ≤ t0.params.pixMemBytes ∧ 63 + Width.byte.bytes ≤ t0.params.pixMemBytes ∧
    unmapped t0.params 0xFFF ∧ unmapped t0.params 0x1040 ∧ unmapped t0.params 0x200 := by decide

theorem witness_PixelMemoryAccess_pastEnd : t0.params.wf ∧ pastEnd t0.params 0x203F .half :=
  ⟨by decide, 0x3F, by decide, by decide, by decide⟩

theorem witness_PixelReadsAndDraws :
    t0.params.wf ∧ 3 < t0.params.pixMemBytes ∧ 4 < t0.params.pixMemBytes ∧
    3 < (body 2 4 1 []).dec.k.toNat * (body 2 4 1 []).dec.ch.toNat ∧
    Memory.lookup { body 2 4 1 [] with pixD := [(3, 9)] }.pixD 3 = some 9 ∧
    (body 2 4 1 []).dec.k.toNat * (body 2 4 1 []).dec.ch.toNat ≤ 4 ∧ Memory.lookup t0.pixE 0 = none := by decide

/-! ### Witnesses: the whole machine -/

/-- A 2 × 1 image of three channels in ENC's registers, both engines idle. -/
def idle3 : State := image 2 3 []

theorem idle3_inv : idle3.Inv where
  params := by decide
  pixE_wf := by decide
  pixD_wf := by decide
  pixE_below := fun _ h => (by cases h)
  pixD_below := fun _ h => (by cases h)
  enc := ⟨by decide, by decide, fun h => absurd h (by decide)⟩
  dec := ⟨by decide, by decide, by decide, by decide, fun h => absurd h (by decide), fun h => absurd h (by decide)⟩

theorem witness_ThreeChannelsNoRgba :
    (encStart idle3).Inv ∧ (encStart idle3).enc.state = .busy ∧ (encStart idle3).enc.channels = 3 :=
  ⟨encStart_keeps idle3_inv, by decide, by decide⟩

theorem witness_InvAtReset : tp.wf ∧ Config.Params.default.wf := by decide

theorem witness_InvKept : (encStart idle3).Inv ∧ ∃ t, step (encStart idle3) = .next t :=
  ⟨encStart_keeps idle3_inv, ⟨_, rfl⟩⟩

theorem witness_EngineNeverOutOfRange : (encStart idle3).Inv := encStart_keeps idle3_inv

/-- The host's two stops, each from a state of the invariant. -/
theorem witness_EngineNeverOutOfRange_stops :
    (step { t0 with hostQ := [.read 0x103E .word], sched := [.host] } = .fault .unmappedAddress ∧
      pastEnd tp 0x103E .word) ∧
    (step { t0 with hostQ := [.write 0x4000 .byte 1], sched := [.host] } = .fault .unmappedAddress ∧
      unmapped tp 0x4000) ∧
    (step { t0 with hostQ := [.read 0x1FF .word], sched := [.host] } = .refused .registerAccess ∧
      unsupported tp 0x1FF .word) :=
  ⟨⟨rfl, 0x3E, by decide, by decide, by decide⟩, ⟨rfl, by decide⟩, ⟨rfl, 0xFF, by decide, by decide, by decide⟩⟩

theorem witness_EnginesIndependent :
    (∃ t, decTurn (body 1 4 0 [0xC0]) = .next t) ∧ (∃ t, encTurn (encStart idle3) = .next t) :=
  ⟨⟨_, rfl⟩, ⟨_, rfl⟩⟩

theorem witness_StepRunsDecoded :
    ((body 1 4 0 [0xC0]).turn = .dec ∧ decEnabled (body 1 4 0 [0xC0]).dec = true ∧
      (body 1 4 0 [0xC0]).dec.phase = .body ∧
      (body 1 4 0 [0xC0]).dec.k.toNat ≠ (body 1 4 0 [0xC0]).dec.n ∧
      decodeBody (body 1 4 0 [0xC0]).dec.fifo = .ok (.run 1, [])) ∧
    ((body 1 4 1 marker).turn = .dec ∧ decEnabled (body 1 4 1 marker).dec = true ∧
      decodeBody (body 1 4 1 marker).dec.fifo = .ok (.endMark, [])) ∧
    ((atHdr (hdr 2 1 4 0) false).turn = .dec ∧ decEnabled (atHdr (hdr 2 1 4 0) false).dec = true ∧
      (atHdr (hdr 2 1 4 0) false).dec.phase = .hdr ∧
      decodeHeader (atHdr (hdr 2 1 4 0) false).dec.input = .ok (.header 2 1 4 0, [])) :=
  ⟨⟨rfl, by decide, rfl, by decide, rfl⟩, ⟨rfl, by decide, rfl⟩, ⟨rfl, by decide, rfl, rfl⟩⟩

theorem witness_AnyAgentMayMove :
    (body 1 4 0 [0xC0]).sched = .dec :: [] ∧
    (t0.sched = [] ∧ encEnabled t0.params t0.enc = false ∧ decEnabled t0.dec = false) ∧ t0.hostQ = [] ∧
    ({ t0 with hostQ := [.reset] } : State).hostQ = .reset :: [] := by decide

/-- A host that starts DEC. -/
def starter : State := { t0 with hostQ := [.write 0x100 .word 1], sched := [.host] }

theorem witness_LifeCycle :
    (∃ t, step (body 2 4 2 marker) = .next t ∧ t.dec.state = .done) ∧
    (∃ t, step starter = .next t ∧ t.dec.state = .busy) ∧
    (∃ t, step { t0 with sched := [.dec] } = .next t ∧ ({ t0 with sched := [.dec] } : State).turn = .dec ∧
      ({ t0 with sched := [.dec] } : State).dec.state ≠ .busy) :=
  ⟨⟨_, rfl, rfl⟩, ⟨_, rfl, rfl⟩, ⟨_, rfl, rfl, by decide⟩⟩

/-- A host that starts ENC on a 2 × 1 image. -/
def encStarter : State := { idle3 with hostQ := [.write 0x000 .word 1], sched := [.host] }

theorem witness_OnlyStartMakesBusy :
    (∃ t, step starter = .next t ∧ starter.dec.state ≠ .busy ∧ t.dec.state = .busy) ∧
    (∃ t, step encStarter = .next t ∧ encStarter.enc.state ≠ .busy ∧ t.enc.state = .busy) :=
  ⟨⟨_, rfl, by decide, rfl⟩, ⟨_, rfl, by decide, rfl⟩⟩

end Sys2Proof.Tests
end

section
/-!
PROOFS. The rules of scope (spec/00_scope.md): the machine's invariant at reset and in every step (R9, R11), the order
of ENC's selection (R14; spec/42_encoder.md R204 to R208), and that the two engines share nothing (R3).
-/

open Sys2Proof Sys2Proof.Machine Sys2Proof.Claims

namespace Sys2Proof.Machine

/-! ### The invariant -/

/-- Any agent's turn answers a state of the invariant; only a host access can stop it. -/
theorem agentTurn_keeps {s : State} (hi : s.Inv) (a : Agent) : hostOutcome (agentTurn a s) := by
  cases a with
  | host => exact hostTurn_keeps hi
  | enc => exact .inl (encTurn_keeps hi)
  | dec => exact .inl (decTurn_keeps hi)

theorem step_keeps {s : State} (hi : s.Inv) : hostOutcome (step s) := agentTurn_keeps (beginTurn_keeps hi) s.turn

/-- An outcome of the invariant that is a next state is one of the invariant. -/
theorem hostOutcome.inv {r : Result} {t : State} (h : hostOutcome r) (ht : r = .next t) : t.Inv := by
  subst ht
  obtain ⟨u, hu, hinv⟩ | hf | hr := h
  · cases hu; exact hinv
  · cases hf
  · cases hr

/-- Settles O54: each agent's turn keeps the invariant, and a step is the turn of one agent. -/
theorem invKept : Obligations.InvKept := fun _ _ hi h => (step_keeps hi).inv h

theorem Enc.reset_ok (p : Config.Params) : Enc.reset.Ok p where
  outQ_le := Nat.zero_le _
  err_iff := by simp [Enc.reset]
  session := fun h => by cases h

theorem Dec.reset_ok (p : Config.Params) : Dec.reset.Ok p where
  pos_le := Nat.zero_le _
  fifo_le := Nat.zero_le _
  err_iff := by simp [Dec.reset]
  last := fun h => by cases h
  atHdr := fun h => by cases h
  atBody := fun h => by cases h

theorem Memory.below_nil (n : Nat) : Memory.below [] n := fun _ hc => absurd hc List.not_mem_nil

/-- Settles O53: after reset both engines are idle and nothing is written. -/
theorem invAtReset : Obligations.InvAtReset := fun p hp =>
  { params := hp
    pixE_wf := (State.resetOf_memories_wf p).1
    pixD_wf := (State.resetOf_memories_wf p).2
    pixE_below := Memory.below_nil _
    pixD_below := Memory.below_nil _
    enc := Enc.reset_ok p
    dec := Dec.reset_ok p }

/-! ### The selection -/

theorem inRange_iff (lo hi d : Int) : inRange lo hi d = true ↔ lo ≤ d ∧ d ≤ hi := decide_eq_true_iff

/-- The condition of DIFF on the wrapped deltas (42_encoder.md R205). -/
theorem fitsDiff_iff (p prev : Pixel) : fitsDiff p prev = true ↔ p.a = prev.a ∧
    (-2 ≤ deltaR p prev ∧ deltaR p prev ≤ 1) ∧ (-2 ≤ deltaG p prev ∧ deltaG p prev ≤ 1) ∧
    (-2 ≤ deltaB p prev ∧ deltaB p prev ≤ 1) := by
  simp only [fitsDiff, diffOf, Instr.wf, Bool.and_eq_true, decide_eq_true_eq, inRange_iff, and_assoc]

/-- The condition of LUMA on the wrapped deltas (R206). -/
theorem fitsLuma_iff (p prev : Pixel) : fitsLuma p prev = true ↔ p.a = prev.a ∧
    (-32 ≤ deltaG p prev ∧ deltaG p prev ≤ 31) ∧
    (-8 ≤ deltaR p prev - deltaG p prev ∧ deltaR p prev - deltaG p prev ≤ 7) ∧
    (-8 ≤ deltaB p prev - deltaG p prev ∧ deltaB p prev - deltaG p prev ≤ 7) := by
  simp only [fitsLuma, lumaOf, Instr.wf, Bool.and_eq_true, decide_eq_true_eq, inRange_iff, and_assoc]

/-- Settles O35: each clause decides the selection's tests from the first to the one that it takes. -/
theorem selectionOrder : Obligations.SelectionOrder := by
  intro c p prev dr dg db hit small luma
  have hhit : Cache.hit c p = true ↔ hit := Cache.hit_iff c p
  have hdiff : fitsDiff p prev = true ↔ p.a = prev.a ∧ small := fitsDiff_iff p prev
  have hluma : fitsLuma p prev = true ↔ p.a = prev.a ∧ luma := fitsLuma_iff p prev
  simp only [selectItem, hhit, hdiff, hluma]
  refine ⟨fun h => ?index, fun h ha hs => ?diff, fun h ha hs hl => ?luma, fun h ha hs hl => ?rgb, fun h ha => ?rgba⟩
  case index => rw [if_pos h]
  case diff => rw [if_neg h, if_pos ⟨ha, hs⟩]; rfl
  case luma => rw [if_neg h, if_neg (fun x => hs x.2), if_pos ⟨ha, hl⟩]; rfl
  case rgb => rw [if_neg h, if_neg (fun x => hs x.2), if_neg (fun x => hl x.2), if_pos ha]
  case rgba => rw [if_neg h, if_neg (fun x => ha x.1), if_neg (fun x => ha x.1), if_neg ha]

/-! ### The engines share nothing -/

/-- A turn neither reads nor writes what `g` replaces: replacing before it is replacing after it. -/
def Ignores (f : State → Result) (g : State → State) : Prop := ∀ s, f (g s) = mapNext g (f s)

theorem mapNext_andThen {f : State → Result} {g : State → State} (hf : Ignores f g) (r : Result) :
    andThen (mapNext g r) f = mapNext g (andThen r f) := by
  cases r with
  | next s => exact hf s
  | fault e => rfl
  | refused e => rfl

/-- A next state of a turn that ignores `g` is unchanged by `g` where the state before it is. -/
theorem Ignores.fixed {f : State → Result} {g : State → State} (hf : Ignores f g) {s t : State} (hs : g s = s)
    (h : f s = .next t) : g t = t := by
  have e := hf s
  rw [hs, h] at e
  injection e with e
  exact e.symm

/-- The state with another ENC and PIX_E. -/
def State.swapEnc (e : Enc) (m : Memory) (s : State) : State := { s with enc := e, pixE := m }

/-- The state with another DEC and PIX_D. -/
def State.swapDec (d : Dec) (m : Memory) (s : State) : State := { s with dec := d, pixD := m }

/-! Each lemma follows one operation of DEC. Where the operation tests, both branches commute with the replacement and
the test does not see it, so the equation is `apply_ite` of the replacement. -/

section Decoder

variable (e : Enc) (m : Memory)

theorem putPixel_ignores (p : Pixel) : Ignores (putPixel p) (State.swapEnc e m) := fun s =>
  (apply_ite (mapNext (State.swapEnc e m)) (s.dec.pixelAddr + pixelSize s.dec.ch ≤ s.params.pixMemBytes)
    (.next (s.storePixel p)) (.fault .engineOutOfRange)).symm

theorem putRun_ignores (n : Nat) : Ignores (putRun n) (State.swapEnc e m) := by
  induction n with
  | zero => exact fun _ => rfl
  | succ n ih =>
    intro s
    change andThen (putPixel s.dec.cur (s.swapEnc e m)) (putRun n) = _
    rw [putPixel_ignores, mapNext_andThen ih]
    rfl

theorem resolve_ignores (p : Pixel) (n : Nat) : Ignores (resolve p n) (State.swapEnc e m) := fun s => by
  change andThen (putPixel p ((s.setCur p).swapEnc e m)) _ = _
  rw [putPixel_ignores, mapNext_andThen fun _ => rfl]
  rfl

theorem execRun_ignores (len : Nat) : Ignores (execRun len) (State.swapEnc e m) := fun s => by
  have h : andThen (putRun len (s.swapEnc e m)) (fun t => .next (t.advance 1)) =
      mapNext (State.swapEnc e m) (andThen (putRun len s) fun t => .next (t.advance 1)) := by
    rw [putRun_ignores, mapNext_andThen fun _ => rfl]
  simp only [execRun, h]
  exact (apply_ite (mapNext (State.swapEnc e m)) _ (.next (s.raiseDec _)) _).symm

theorem execEndMark_ignores : Ignores execEndMark (State.swapEnc e m) := fun s =>
  (apply_ite (mapNext (State.swapEnc e m)) _ (.next s.finishDec) (.next (s.raiseDec _))).symm

theorem execHeader_ignores (w h : Word) (ch cs : Byte) : Ignores (execHeader w h ch cs) (State.swapEnc e m) := by
  intro s
  simp only [execHeader, State.swapEnc]
  cases imageError? s.params.pixMemBytes w h ch with
  | none => rfl
  | some c => rfl

/-- An item neither reads nor writes ENC and PIX_E. -/
theorem exec_ignores (i : Instr) : Ignores (exec i) (State.swapEnc e m) := fun s => by
  cases i with
  | rgba r g b a => exact resolve_ignores e m _ 5 s
  | rgb r g b => exact resolve_ignores e m _ 4 s
  | index j => exact resolve_ignores e m _ 1 s
  | diff dr dg db => exact resolve_ignores e m _ 1 s
  | luma dg x y => exact resolve_ignores e m _ 2 s
  | run len => exact execRun_ignores e m len s
  | endMark => exact execEndMark_ignores e m s
  | header w h ch cs => exact execHeader_ignores e m w h ch cs s

theorem decTurn_ignores : Ignores decTurn (State.swapEnc e m) := fun s => by
  have hd : (s.swapEnc e m).dec = s.dec := rfl
  simp only [decTurn, hd]
  cases decEnabled s.dec with
  | false => rfl
  | true =>
    cases decAct s.dec with
    | fail c => rfl
    | run i => exact exec_ignores e m i s

end Decoder

section Encoder

variable (d : Dec) (m : Memory)

theorem encRunStep_swapDec (s : State) : encRunStep (s.swapDec d m) = (encRunStep s).swapDec d m :=
  (apply_ite (State.swapDec d m) _ ((s.emit _).setRun _) (s.setRun _)).symm

theorem encFlush_swapDec (s : State) : encFlush (s.swapDec d m) = (encFlush s).swapDec d m :=
  (apply_ite (State.swapDec d m) _ ((s.emit _).setRun _) s).symm

theorem encCodeStep_swapDec (p : Pixel) (s : State) :
    encCodeStep p (s.swapDec d m) = (encCodeStep p s).swapDec d m := by
  rw [encCodeStep, encFlush_swapDec]
  rfl

theorem encPixel_swapDec (p : Pixel) (s : State) : encPixel p (s.swapDec d m) = (encPixel p s).swapDec d m := by
  have h := apply_ite (State.swapDec d m) (p = s.enc.prev) (encRunStep s) (encCodeStep p s)
  rw [encPixel, encRunStep_swapDec, encCodeStep_swapDec]
  exact congrArg State.encNext h.symm

theorem encPixelStep_ignores : Ignores encPixelStep (State.swapDec d m) := fun s => by
  have h : encPixel (s.swapDec d m).readPixel (s.swapDec d m).drawPixel =
      (encPixel s.readPixel s.drawPixel).swapDec d m := encPixel_swapDec d m s.readPixel s.drawPixel
  simp only [encPixelStep, h]
  exact (apply_ite (mapNext (State.swapDec d m))
    (s.enc.pixelAddr + pixelSize s.enc.channels ≤ s.params.pixMemBytes)
    (.next (encPixel s.readPixel s.drawPixel)) (.fault .engineOutOfRange)).symm

theorem encFinalStep_ignores : Ignores encFinalStep (State.swapDec d m) := fun s => by
  simp only [encFinalStep, encFlush_swapDec]
  rfl

theorem encTurn_ignores : Ignores encTurn (State.swapDec d m) := fun s => by
  have he : (s.swapDec d m).enc = s.enc := rfl
  have hp : (s.swapDec d m).params = s.params := rfl
  simp only [encTurn, he, hp]
  cases encEnabled s.params s.enc with
  | false => rfl
  | true =>
    cases s.enc.phase with
    | hdr => rfl
    | pix => exact encPixelStep_ignores d m s
    | fin => exact encFinalStep_ignores d m s

end Encoder

/-- DEC's turn leaves PIX_E alone. -/
theorem decTurn_pixE {s t : State} (h : decTurn s = .next t) : t.pixE = s.pixE := by
  rw [← (decTurn_ignores s.enc s.pixE).fixed rfl h, State.swapEnc]

/-- ENC's turn changes only ENC and the draws: PIX_E is read and not written (43_control.md R267). -/
theorem encTurn_frame {s t : State} (h : encTurn s = .next t) : ∃ e n, t = { s with enc := e, draws := n } := by
  simp only [encTurn] at h
  split at h
  · split at h
    · cases h; exact ⟨_, _, rfl⟩
    · simp only [encPixelStep] at h
      split at h
      · obtain ⟨e, he⟩ := encPixel_frame s.readPixel s.drawPixel
        cases h
        exact ⟨_, _, he⟩
      · cases h
    · obtain ⟨e, he⟩ := encFlush_frame s
      cases h
      exact ⟨_, _, by rw [he]; rfl⟩
  · cases h; exact ⟨_, _, rfl⟩

/-- Settles O56: each engine's turn commutes with replacing the other's side, and so leaves that side as it was. -/
theorem enginesIndependent : Obligations.EnginesIndependent :=
  ⟨fun s e m => decTurn_ignores e m s, fun s d m => encTurn_ignores d m s,
    fun _ _ h => ⟨decTurn_enc h, decTurn_pixE h⟩,
    fun _ _ h => by obtain ⟨e, n, rfl⟩ := encTurn_frame h; exact ⟨rfl, rfl, rfl⟩⟩

end Sys2Proof.Machine
end

section
/-!
PROOFS. The rules of state (spec/10_state.md): what each item leaves unchanged (R42), what makes an engine BUSY (R45,
R54; spec/43_control.md R252), and what a read and a write of every register do (R46 to R60).
-/

open Sys2Proof Sys2Proof.Machine Sys2Proof.Claims

namespace Sys2Proof.Machine

/-! ### What an item leaves unchanged -/

/-- Settles O22: the five items are one `resolve`, whose next state writes the pixel's bytes and one cache slot. -/
theorem singlePixelFrame : Obligations.SinglePixelFrame := by
  intro i s t hi h
  have hop : i.isOpcode = true ∧ ∀ len, i ≠ .run len := by
    rcases hi with ⟨r, g, b, a, rfl⟩ | ⟨r, g, b, rfl⟩ | ⟨j, rfl⟩ | ⟨dr, dg, db, rfl⟩ | ⟨dg, u, v, rfl⟩ <;>
      exact ⟨rfl, fun _ => Instr.noConfusion⟩
  obtain ⟨p, hp⟩ := exec_single s hop.1 hop.2
  rw [hp] at h
  obtain ⟨-, rfl⟩ := resolve_next h
  refine ⟨⟨rfl, rfl, rfl, rfl, rfl, rfl, rfl⟩, ⟨rfl, rfl, rfl, rfl, rfl, rfl, rfl, rfl, rfl, rfl⟩,
    fun j hj => ?cache, fun a ha => ?memory, rfl, rfl⟩
  case cache => exact (Cache.read_insert s.dec.cache p j).trans (if_neg hj)
  case memory => exact Memory.lookup_writeBytes_outside s.pixD (by rw [pixelBytes_length]; exact ha)

/-- N is below 2^64, so the sum that RUN compares with it does not wrap (00_scope.md R18). -/
theorem Dec.n_lt (d : Dec) : d.n < 2 ^ 64 :=
  (Nat.mul_lt_mul'' d.w.isLt d.h.isLt).trans_eq (by norm_num)

/-- A run of putPixels that completes has room for its last pixel, hence for all of them. -/
theorem putRun_room {n : Nat} {s t : State} (hk : s.dec.k.toNat + n < 2 ^ 64) (h : putRun n s = .next t) :
    n = 0 ∨ (s.dec.k.toNat + n) * pixelSize s.dec.ch ≤ s.params.pixMemBytes := by
  induction n generalizing s with
  | zero => exact .inl rfl
  | succ n ih =>
    obtain ⟨u, hu, hrest⟩ := andThen_eq_next h
    obtain ⟨hroom, rfl⟩ := putPixel_next hu
    have hk1 : (s.storePixel s.dec.cur).dec.k.toNat = s.dec.k.toNat + 1 := count_succ (by omega)
    refine .inr ?_
    rcases ih (by rw [hk1]; omega) hrest with rfl | hlast
    · rw [Nat.add_mul, Nat.one_mul]; exact hroom
    · rw [hk1] at hlast
      rw [Nat.add_comm n 1, ← Nat.add_assoc]
      exact hlast

/-- A run of putPixels that completes leaves the state of `storeRun`. -/
theorem putRun_next {n : Nat} {s t : State} (hk : s.dec.k.toNat + n < 2 ^ 64) (h : putRun n s = .next t) :
    t = s.storeRun n := by
  rcases putRun_room hk h with rfl | hroom
  · rw [putRun] at h
    cases h
    simp [State.storeRun, Memory.writeBytes]
  · rw [putRun_of_room hk hroom] at h
    cases h
    rfl

/-- What RUN can do (41_decoder.md R159): raise the error past N, or write its copies and advance. -/
theorem execRun_next {len : Nat} {s t : State} (h : execRun len s = .next t) :
    (s.dec.n < s.dec.k.toNat + len ∧ t = s.raiseDec .pixelCountMismatch) ∨
    (s.dec.k.toNat + len ≤ s.dec.n ∧ t = (s.storeRun len).advance 1) := by
  rw [execRun] at h
  split at h
  case isTrue hlt => cases h; exact .inl ⟨hlt, rfl⟩
  case isFalse hle =>
    have hle := Nat.le_of_not_lt hle
    obtain ⟨u, hu, hadv⟩ := andThen_eq_next h
    cases hadv
    rw [putRun_next (hle.trans_lt s.dec.n_lt) hu]
    exact .inr ⟨hle, rfl⟩

theorem runBytes_length (n : Nat) (ch : Byte) (p : Pixel) :
    (List.replicate n (pixelBytes ch p)).flatten.length = n * pixelSize ch := by
  simp only [List.length_flatten, List.map_replicate, pixelBytes_length, List.sum_replicate, smul_eq_mul]

/-- A run inserts the predictor and nothing else. -/
theorem storeRun_read (s : State) (n : Nat) {j : BitVec 6} (hj : j ≠ pixelHash s.dec.cur) :
    Cache.read (s.storeRun n).dec.cache j = Cache.read s.dec.cache j := by
  simp only [State.storeRun]
  split
  · rfl
  · rw [Cache.read_insert, if_neg hj]

/-- A run of n pixels writes nothing outside the bytes of n pixels from DEC.k. -/
theorem storeRun_lookup (s : State) (n : Nat) {a : Nat}
    (ha : a < s.dec.pixelAddr ∨ s.dec.pixelAddr + n * pixelSize s.dec.ch ≤ a) :
    Memory.lookup (s.storeRun n).pixD a = Memory.lookup s.pixD a :=
  Memory.lookup_writeBytes_outside s.pixD (by rw [runBytes_length]; exact ha)

/-- Settles O23: the error is `raiseDec`, and otherwise the run is `storeRun`, whose frame is the predictor's slot and
the bytes of its pixels. -/
theorem runFrame : Obligations.RunFrame := by
  intro len s t h
  rcases execRun_next h with ⟨-, rfl⟩ | ⟨-, rfl⟩
  · exact ⟨⟨rfl, rfl, rfl, rfl, rfl, rfl, rfl⟩, rfl, .inl ⟨rfl, rfl⟩⟩
  · exact ⟨⟨rfl, rfl, rfl, rfl, rfl, rfl, rfl⟩, rfl, .inr ⟨⟨rfl, rfl, rfl, rfl, rfl, rfl, rfl, rfl, rfl, rfl⟩,
      fun _ hj => storeRun_read s len hj, fun _ ha => storeRun_lookup s len ha⟩⟩

/-- What END can do (41_decoder.md R160). -/
theorem execEndMark_next {s t : State} (h : execEndMark s = .next t) :
    (s.dec.k.toNat = s.dec.n ∧ t = s.finishDec) ∨ (s.dec.k.toNat ≠ s.dec.n ∧ t = s.raiseDec .pixelCountMismatch) := by
  rw [execEndMark] at h
  split at h
  case isTrue hk => cases h; exact .inl ⟨hk, rfl⟩
  case isFalse hk => cases h; exact .inr ⟨hk, rfl⟩

/-- What HEADER can do (41_decoder.md R151). -/
theorem execHeader_next {w h : Word} {ch cs : Byte} {s t : State} (hx : execHeader w h ch cs s = .next t) :
    (∃ c, imageError? s.params.pixMemBytes w h ch = some c ∧ t = (s.setHeader w h ch cs).raiseDec c) ∨
    (imageError? s.params.pixMemBytes w h ch = none ∧ t = (s.setHeader w h ch cs).beginBody) := by
  rw [execHeader] at hx
  cases he : imageError? s.params.pixMemBytes w h ch with
  | some c => rw [he] at hx; cases hx; exact .inl ⟨c, rfl, rfl⟩
  | none => rw [he] at hx; cases hx; exact .inr ⟨rfl, rfl⟩

/-- Settles O24: each of the four next states of END and HEADER updates none of the fields named. -/
theorem framingFrame : Obligations.FramingFrame := by
  rintro i s t (rfl | ⟨w, h, ch, cs, rfl⟩) hx
  · rcases execEndMark_next hx with ⟨-, rfl⟩ | ⟨-, rfl⟩ <;>
      exact ⟨⟨rfl, rfl, rfl, rfl, rfl, rfl, rfl⟩, rfl, rfl, rfl, rfl, rfl, rfl, rfl,
        fun _ => ⟨rfl, rfl, rfl, rfl, rfl⟩⟩
  · rcases execHeader_next hx with ⟨c, -, rfl⟩ | ⟨-, rfl⟩ <;>
      exact ⟨⟨rfl, rfl, rfl, rfl, rfl, rfl, rfl⟩, rfl, rfl, rfl, rfl, rfl, rfl, rfl, Instr.noConfusion⟩

/-! ### The register map -/

theorem regionOf_eq_regE {p : Config.Params} {a off : Nat} (h : regionOf p a = some (.regE off)) :
    a = p.encBase + off := by
  rw [regionOf] at h
  split_ifs at h with hin <;> cases h
  exact (Nat.add_sub_cancel' hin.1).symm

theorem regionOf_eq_regD {p : Config.Params} {a off : Nat} (h : regionOf p a = some (.regD off)) :
    a = p.decBase + off := by
  rw [regionOf] at h
  split_ifs at h with _ hin <;> cases h
  exact (Nat.add_sub_cancel' hin.1).symm

theorem registerAccess_iff {w : Width} {off : Nat} : registerAccess w off = true ↔ w = .word ∧ off % 4 = 0 :=
  decide_eq_true_iff

theorem encRegAt_eq_ctrl {off : Nat} (h : encRegAt off = .ctrl) : off = 0 := by
  unfold encRegAt at h
  split at h
  case h_1 => rfl
  all_goals cases h

theorem decRegAt_eq_ctrl {off : Nat} (h : decRegAt off = .ctrl) : off = 0 := by
  unfold decRegAt at h
  split at h
  case h_1 => rfl
  all_goals cases h

theorem encRegAt_reserved {off : Nat} (h : 0x2C ≤ off) : encRegAt off = .reserved := by
  unfold encRegAt
  split
  case h_12 => rfl
  all_goals omega

theorem decRegAt_reserved {off : Nat} (h : 0x2C ≤ off) : decRegAt off = .reserved := by
  unfold decRegAt
  split
  case h_12 => rfl
  all_goals omega

/-- A supported read of ENC's block answers the register's value and leaves what the register's read leaves. -/
theorem hostRead_regE (s : State) {off : Nat} (h : off < 256) (h4 : off % 4 = 0) :
    hostRead (s.params.encBase + off) .word s =
      .next { s.reply ((encRegValue s.enc (encRegAt off)).setWidth 64) with
        enc := encAfterRead (encRegAt off) s.enc } := by
  rw [hostRead, regionOf_regE off h]
  exact if_pos (registerAccess_iff.2 ⟨rfl, h4⟩)

/-- A supported read of DEC's block answers the register's value. -/
theorem hostRead_regD {s : State} (hp : s.params.wf) {off : Nat} (h : off < 256) (h4 : off % 4 = 0) :
    hostRead (s.params.decBase + off) .word s =
      .next (s.reply ((decRegValue s.params s.dec (decRegAt off)).setWidth 64)) := by
  rw [hostRead, regionOf_regD hp off h]
  exact if_pos (registerAccess_iff.2 ⟨rfl, h4⟩)

/-- A supported write of ENC's block is the register's write of the low 32 bits. -/
theorem hostWrite_regE (s : State) (v : BitVec 64) {off : Nat} (h : off < 256) (h4 : off % 4 = 0) :
    hostWrite (s.params.encBase + off) .word v s = .next (encRegWrite (encRegAt off) (v.setWidth 32) s) := by
  rw [hostWrite, regionOf_regE off h]
  exact if_pos (registerAccess_iff.2 ⟨rfl, h4⟩)

/-- A supported write of DEC's block is the register's write of the low 32 bits. -/
theorem hostWrite_regD {s : State} (hp : s.params.wf) (v : BitVec 64) {off : Nat} (h : off < 256) (h4 : off % 4 = 0) :
    hostWrite (s.params.decBase + off) .word v s = .next (decRegWrite (decRegAt off) (v.setWidth 32) s) := by
  rw [hostWrite, regionOf_regD hp off h]
  exact if_pos (registerAccess_iff.2 ⟨rfl, h4⟩)

/-! ### What a host access can do -/

/-- A host read that completes gives a reply, may use up draws, and changes ENC as the read of some register does
(20_memory.md R68); any other read changes ENC as that of a reserved register, not at all. -/
theorem hostRead_next {a : Nat} {w : Width} {s t : State} (h : hostRead a w s = .next t) :
    ∃ r v n, t = { (s.reply v).spend n with enc := encAfterRead r s.enc } := by
  rw [hostRead] at h
  split at h
  next off _ =>
    split at h
    · cases h; exact ⟨encRegAt off, _, 0, rfl⟩
    · cases h
  next =>
    split at h
    · cases h; exact ⟨.reserved, _, 0, rfl⟩
    · cases h
  next =>
    split at h
    · cases h; exact ⟨.reserved, _, w.bytes, rfl⟩
    · cases h
  next =>
    split at h
    · cases h; exact ⟨.reserved, _, w.bytes, rfl⟩
    · cases h
  next => cases h

/-- A host write that completes is a supported write of one register block, or changes the pixel memories alone. -/
theorem hostWrite_next {a : Nat} {w : Width} {v : BitVec 64} {s t : State} (h : hostWrite a w v s = .next t) :
    (∃ off, regionOf s.params a = some (.regE off) ∧ registerAccess w off = true ∧
      t = encRegWrite (encRegAt off) (v.setWidth 32) s) ∨
    (∃ off, regionOf s.params a = some (.regD off) ∧ registerAccess w off = true ∧
      t = decRegWrite (decRegAt off) (v.setWidth 32) s) ∨
    ∃ e d, t = { s with pixE := e, pixD := d } := by
  rw [hostWrite] at h
  split at h
  next off hr =>
    split at h
    · rename_i hw; cases h; exact .inl ⟨off, hr, hw, rfl⟩
    · cases h
  next off hr =>
    split at h
    · rename_i hw; cases h; exact .inr (.inl ⟨off, hr, hw, rfl⟩)
    · cases h
  next =>
    split at h
    · cases h; exact .inr (.inr ⟨_, s.pixD, rfl⟩)
    · cases h
  next =>
    split at h
    · cases h; exact .inr (.inr ⟨s.pixE, _, rfl⟩)
    · cases h
  next => cases h

/-! ### What a register write does to the STATE of the engines -/

@[simp] theorem encAfterRead_state (r : EncReg) (e : Enc) : (encAfterRead r e).state = e.state := by
  cases r <;> rfl

theorem encStart_dec (s : State) : (encStart s).dec = s.dec := by
  rw [encStart]
  split
  · rfl
  · split <;> rfl

theorem encCommand_dec (v : Word) (s : State) : (encCommand v s).dec = s.dec := by
  rw [encCommand]
  split_ifs
  · rfl
  · exact encStart_dec s
  · rfl

theorem encConfigure_dec (f : Enc → Enc) (s : State) : (encConfigure f s).dec = s.dec := by
  rw [encConfigure]
  split <;> rfl

theorem encConfigure_state {f : Enc → Enc} (hf : ∀ e, (f e).state = e.state) (s : State) :
    (encConfigure f s).enc.state = s.enc.state := by
  rw [encConfigure]
  split
  · rfl
  · exact hf s.enc

/-- A write of ENC's block leaves DEC alone. -/
theorem encRegWrite_dec (r : EncReg) (v : Word) (s : State) : (encRegWrite r v s).dec = s.dec := by
  cases r with
  | ctrl => exact encCommand_dec v s
  | width | height | format => exact encConfigure_dec _ s
  | status | pixposLo | pixposHi | outcntLo | outcntHi | outData | outLevel | reserved => rfl

/-- Only a write of ENC_CTRL writes ENC.STATE. -/
theorem encRegWrite_state {r : EncReg} (hr : r ≠ .ctrl) (v : Word) (s : State) :
    (encRegWrite r v s).enc.state = s.enc.state := by
  cases r with
  | ctrl => exact absurd rfl hr
  | width | height | format =>
    rw [encRegWrite]
    refine encConfigure_state ?_ s
    exact fun _ => rfl
  | status | pixposLo | pixposHi | outcntLo | outcntHi | outData | outLevel | reserved => rfl

theorem decStart_enc (s : State) : (decStart s).enc = s.enc := by
  rw [decStart]
  split <;> rfl

theorem decInLast_enc (s : State) : (decInLast s).enc = s.enc := by
  rw [decInLast]
  split <;> rfl

theorem decInLast_state (s : State) : (decInLast s).dec.state = s.dec.state := by
  rw [decInLast]
  split <;> rfl

theorem decCommand_enc (v : Word) (s : State) : (decCommand v s).enc = s.enc := by
  simp only [decCommand]
  split_ifs <;> simp only [decAbort, decInLast_enc, decStart_enc]

theorem decPush_enc (v : Byte) (s : State) : (decPush v s).enc = s.enc := by
  rw [decPush]
  split <;> rfl

theorem decPush_state (v : Byte) (s : State) : (decPush v s).dec.state = s.dec.state := by
  rw [decPush]
  split <;> rfl

/-- A write of DEC's block leaves ENC alone. -/
theorem decRegWrite_enc (r : DecReg) (v : Word) (s : State) : (decRegWrite r v s).enc = s.enc := by
  cases r with
  | ctrl => exact decCommand_enc v s
  | inData => exact decPush_enc _ s
  | status | width | height | format | pixcntLo | pixcntHi | incntLo | incntHi | inFree | reserved => rfl

/-- Only a write of DEC_CTRL writes DEC.STATE. -/
theorem decRegWrite_state {r : DecReg} (hr : r ≠ .ctrl) (v : Word) (s : State) :
    (decRegWrite r v s).dec.state = s.dec.state := by
  cases r with
  | ctrl => exact absurd rfl hr
  | inData => exact decPush_state _ s
  | status | width | height | format | pixcntLo | pixcntHi | incntLo | incntHi | inFree | reserved => rfl

/-! ### What makes an engine BUSY -/

/-- A command that takes ENC to BUSY has START and not ABORT (43_control.md R252, R256). -/
theorem encCommand_makes_busy {v : Word} {s : State} (hs : s.enc.state ≠ .busy)
    (ht : (encCommand v s).enc.state = .busy) : v.getLsbD 0 = true ∧ v.getLsbD 1 = false := by
  rw [encCommand] at ht
  split_ifs at ht with habort hstart
  · cases ht
  · exact ⟨hstart, by simpa using habort⟩
  · exact absurd ht hs

/-- A command that takes DEC to BUSY has START and not ABORT; IN_LAST alone does not (R252, R256, R262). -/
theorem decCommand_makes_busy {v : Word} {s : State} (hs : s.dec.state ≠ .busy)
    (ht : (decCommand v s).dec.state = .busy) : v.getLsbD 0 = true ∧ v.getLsbD 1 = false := by
  simp only [decCommand] at ht
  split_ifs at ht with habort hlast hstart hstart
  · cases ht
  · exact ⟨hstart, by simpa using habort⟩
  · exact absurd ((decInLast_state s).symm.trans ht) hs
  · exact ⟨hstart, by simpa using habort⟩
  · exact absurd ht hs

/-- The two command bits of the 32-bit register are those of the bus value. -/
theorem command_bits {v : BitVec 64} (h : (v.setWidth 32).getLsbD 0 = true ∧ (v.setWidth 32).getLsbD 1 = false) :
    v.getLsbD 0 = true ∧ v.getLsbD 1 = false := by
  simpa [BitVec.getLsbD_setWidth] using h

/-- A host act that takes ENC to BUSY is a START. -/
theorem hostAct_makes_enc_busy {a : HostAct} {s t : State} (h : hostAct a s = .next t) (hs : s.enc.state ≠ .busy)
    (ht : t.enc.state = .busy) :
    ∃ v, a = .write s.params.encBase .word v ∧ v.getLsbD 0 = true ∧ v.getLsbD 1 = false := by
  cases a with
  | reset => cases h; cases ht
  | read x w =>
    obtain ⟨r, v, n, rfl⟩ := hostRead_next h
    exact absurd ((encAfterRead_state r s.enc).symm.trans ht) hs
  | write x w v =>
    rcases hostWrite_next h with ⟨off, hreg, hacc, rfl⟩ | ⟨off, -, -, rfl⟩ | ⟨e, d, rfl⟩
    · have hctrl : encRegAt off = .ctrl := by
        by_contra hne
        exact hs ((encRegWrite_state hne _ s).symm.trans ht)
      rw [hctrl] at ht
      obtain ⟨rfl, -⟩ := registerAccess_iff.1 hacc
      refine ⟨v, ?_, command_bits (encCommand_makes_busy hs ht)⟩
      rw [regionOf_eq_regE hreg, encRegAt_eq_ctrl hctrl, Nat.add_zero]
    · rw [decRegWrite_enc] at ht; exact absurd ht hs
    · exact absurd ht hs

/-- A host act that takes DEC to BUSY is a START. -/
theorem hostAct_makes_dec_busy {a : HostAct} {s t : State} (h : hostAct a s = .next t) (hs : s.dec.state ≠ .busy)
    (ht : t.dec.state = .busy) :
    ∃ v, a = .write s.params.decBase .word v ∧ v.getLsbD 0 = true ∧ v.getLsbD 1 = false := by
  cases a with
  | reset => cases h; cases ht
  | read x w =>
    obtain ⟨r, v, n, rfl⟩ := hostRead_next h
    exact absurd ht hs
  | write x w v =>
    rcases hostWrite_next h with ⟨off, -, -, rfl⟩ | ⟨off, hreg, hacc, rfl⟩ | ⟨e, d, rfl⟩
    · rw [encRegWrite_dec] at ht; exact absurd ht hs
    · have hctrl : decRegAt off = .ctrl := by
        by_contra hne
        exact hs ((decRegWrite_state hne _ s).symm.trans ht)
      rw [hctrl] at ht
      obtain ⟨rfl, -⟩ := registerAccess_iff.1 hacc
      refine ⟨v, ?_, command_bits (decCommand_makes_busy hs ht)⟩
      rw [regionOf_eq_regD hreg, decRegAt_eq_ctrl hctrl, Nat.add_zero]
    · exact absurd ht hs

/-- An ENC that is not BUSY takes no step (43_control.md R250). -/
theorem encTurn_of_not_busy {s : State} (h : s.enc.state ≠ .busy) : encTurn s = .next s :=
  if_neg (by simp [encEnabled, h])

/-- A DEC that is not BUSY takes no step (R250). -/
theorem decTurn_of_not_busy {s : State} (h : s.dec.state ≠ .busy) : decTurn s = .next s :=
  if_neg (by simp [decEnabled, h])

/-- No turn of an engine takes ENC to BUSY. -/
theorem agentTurn_makes_enc_busy {a : Agent} {s t : State} (h : agentTurn a s = .next t) (hs : s.enc.state ≠ .busy)
    (ht : t.enc.state = .busy) :
    a = .host ∧ ∃ v, s.nextAct = .write s.params.encBase .word v ∧ v.getLsbD 0 = true ∧ v.getLsbD 1 = false := by
  cases a with
  | host => exact ⟨rfl, hostAct_makes_enc_busy (s := s.takeAct) h hs ht⟩
  | enc => cases (encTurn_of_not_busy hs).symm.trans h; exact absurd ht hs
  | dec => rw [decTurn_enc h] at ht; exact absurd ht hs

/-- No turn of an engine takes DEC to BUSY. -/
theorem agentTurn_makes_dec_busy {a : Agent} {s t : State} (h : agentTurn a s = .next t) (hs : s.dec.state ≠ .busy)
    (ht : t.dec.state = .busy) :
    a = .host ∧ ∃ v, s.nextAct = .write s.params.decBase .word v ∧ v.getLsbD 0 = true ∧ v.getLsbD 1 = false := by
  cases a with
  | host => exact ⟨rfl, hostAct_makes_dec_busy (s := s.takeAct) h hs ht⟩
  | enc => rw [encTurn_dec h] at ht; exact absurd ht hs
  | dec => cases (decTurn_of_not_busy hs).symm.trans h; exact absurd ht hs

/-- Settles O60: an engine's turn makes no engine BUSY, and of the host's acts only a START does. -/
theorem onlyStartMakesBusy : Obligations.OnlyStartMakesBusy := fun s _ h =>
  ⟨fun hs ht => agentTurn_makes_dec_busy (s := s.beginTurn) h hs ht,
    fun hs ht => agentTurn_makes_enc_busy (s := s.beginTurn) h hs ht⟩

/-! ### What the registers read -/

/-- Concatenation is the sum of the high part, shifted, and the low part. -/
theorem toNat_append_add {m n : Nat} (x : BitVec m) (y : BitVec n) : (x ++ y).toNat = x.toNat * 2 ^ n + y.toNat := by
  rw [BitVec.toNat_append, ← Nat.shiftLeft_add_eq_or_of_lt y.isLt, Nat.shiftLeft_eq]

theorem Session.code_toNat (x : Session) : x.code.toNat = stateCode x := by cases x <;> rfl

theorem ErrCode.code_toNat (c : ErrCode) : c.code.toNat = errorCode c := by cases c <;> rfl

theorem ofBool_toNat_ite (b : Bool) : (BitVec.ofBool b).toNat = if b then 1 else 0 := by cases b <;> rfl

theorem encStatus_toNat (e : Enc) : (encStatus e).toNat = stateCode e.state + 2 ^ 8 * errorCode e.err := by
  simp only [encStatus, toNat_append_add, Session.code_toNat, ErrCode.code_toNat, BitVec.toNat_ofNat]
  omega

theorem decStatus_toNat (d : Dec) : (decStatus d).toNat =
    stateCode d.state + 2 ^ 8 * errorCode d.err + 2 ^ 16 * (if d.inOvf then 1 else 0) +
      2 ^ 17 * (if d.inLast then 1 else 0) +
      2 ^ 18 * (if decide (d.phase = .body ∧ d.state ≠ .idle) then 1 else 0) := by
  simp only [decStatus, hdrValid, toNat_append_add, Session.code_toNat, ErrCode.code_toNat, ofBool_toNat_ite,
    BitVec.toNat_ofNat]
  omega

theorem encFormat_toNat (e : Enc) : (encFormat e).toNat = e.channels.toNat + 2 ^ 8 * e.colorspace.toNat := by
  simp only [encFormat, toNat_append_add, BitVec.toNat_ofNat]
  omega

theorem decFormat_toNat (d : Dec) : (decFormat d).toNat = d.ch.toNat + 2 ^ 8 * d.cs.toNat := by
  simp only [decFormat, toNat_append_add, BitVec.toNat_ofNat]
  omega

theorem loHalf_toNat (c : Count) : (loHalf c).toNat = c.toNat % 2 ^ 32 := by
  rw [loHalf, BitVec.extractLsb'_toNat, Nat.shiftRight_zero]

theorem hiHalf_toNat (c : Count) : (hiHalf c).toNat = c.toNat / 2 ^ 32 := by
  rw [hiHalf, BitVec.extractLsb'_toNat, Nat.shiftRight_eq_div_pow]
  exact Nat.mod_eq_of_lt (Nat.div_lt_of_lt_mul c.isLt)

theorem countWord_toNat (n : Nat) : (countWord n).toNat = countShown n := by
  rw [countWord, countShown]
  split
  case isTrue h => rw [BitVec.toNat_ofNat, Nat.mod_eq_of_lt h]
  case isFalse => rfl

theorem inFree_toNat (p : Config.Params) (d : Dec) : (inFree p d).toNat =
    if d.state = .busy ∧ d.inLast = false then countShown (p.inDepth - (d.avail - d.pos.toNat)) else 0 := by
  rw [inFree, apply_ite BitVec.toNat, countWord_toNat]
  rfl

theorem outData_nil {e : Enc} (h : e.outQ = []) : outData e = 0 := by rw [outData, h]

theorem outData_cons {e : Enc} {b : Byte} {q : List Byte} (h : e.outQ = b :: q) :
    (outData e).toNat = 2 ^ 8 + b.toNat := by
  simp only [outData, h, toNat_append_add, BitVec.toNat_ofNat]
  omega

/-- A read of ENC_OUT_DATA leaves the tail of OUTQ (10_state.md R52). -/
theorem encAfterRead_outData {e : Enc} {q : List Byte} (h : e.outQ.tail = q) :
    encAfterRead .outData e = { e with outQ := q } := by rw [encAfterRead, h]

/-- An ENC register reads a value and leaves an ENC: what the bus shows of it. -/
theorem readsReg_enc {s : State} {off v : Nat} {e : Enc} (h : off < 256) (h4 : off % 4 = 0)
    (hv : (encRegValue s.enc (encRegAt off)).toNat = v) (he : encAfterRead (encRegAt off) s.enc = e) :
    readsReg s (s.params.encBase + off) v { s with enc := e } := by
  rw [readsReg, hostRead_regE s h h4, ← hv, he, BitVec.ofNat_toNat, State.reply]

/-- A DEC register reads a value and changes nothing. -/
theorem readsReg_dec {s : State} (hp : s.params.wf) {off v : Nat} (h : off < 256) (h4 : off % 4 = 0)
    (hv : (decRegValue s.params s.dec (decRegAt off)).toNat = v) : readsReg s (s.params.decBase + off) v s := by
  rw [readsReg, hostRead_regD hp h h4, ← hv, BitVec.ofNat_toNat, State.reply]

/-- Settles O46: each register by its value lemma; OUT_DATA alone leaves another ENC. -/
theorem encRegisterReads : Obligations.EncRegisterReads := by
  intro s _ e base
  refine ⟨?ctrl, ?status, ?width, ?height, ?format, ?kLo, ?kHi, ?outCntLo, ?outCntHi, fun hq => ?empty,
    fun b q hq => ?pop, ?level, fun off hlo hhi h4 => ?reserved⟩
  case ctrl => exact readsReg_enc (off := 0x00) (by decide) (by decide) rfl rfl
  case status => exact readsReg_enc (off := 0x04) (by decide) (by decide) (encStatus_toNat e) rfl
  case width => exact readsReg_enc (off := 0x08) (by decide) (by decide) rfl rfl
  case height => exact readsReg_enc (off := 0x0C) (by decide) (by decide) rfl rfl
  case format => exact readsReg_enc (off := 0x10) (by decide) (by decide) (encFormat_toNat e) rfl
  case kLo => exact readsReg_enc (off := 0x14) (by decide) (by decide) (loHalf_toNat e.k) rfl
  case kHi => exact readsReg_enc (off := 0x18) (by decide) (by decide) (hiHalf_toNat e.k) rfl
  case outCntLo => exact readsReg_enc (off := 0x1C) (by decide) (by decide) (loHalf_toNat e.outCnt) rfl
  case outCntHi => exact readsReg_enc (off := 0x20) (by decide) (by decide) (hiHalf_toNat e.outCnt) rfl
  case empty =>
    exact readsReg_enc (off := 0x24) (by decide) (by decide) (congrArg BitVec.toNat (outData_nil hq))
      (encAfterRead_outData (q := e.outQ) (by rw [hq]; rfl))
  case pop =>
    exact readsReg_enc (off := 0x24) (by decide) (by decide) (outData_cons hq)
      (encAfterRead_outData (by rw [hq]; rfl))
  case level => exact readsReg_enc (off := 0x28) (by decide) (by decide) (countWord_toNat e.outQ.length) rfl
  case reserved =>
    exact readsReg_enc hhi h4 (by rw [encRegAt_reserved hlo]; rfl) (by rw [encRegAt_reserved hlo]; rfl)

/-- Settles O47: each register by its value lemma. -/
theorem decRegisterReads : Obligations.DecRegisterReads := by
  intro s hp d base bit
  refine ⟨?ctrl, ?status, ?width, ?height, ?format, ?kLo, ?kHi, ?posLo, ?posHi, ?inData, ?free,
    fun off hlo hhi h4 => ?reserved⟩
  case ctrl => exact readsReg_dec hp (off := 0x00) (by decide) (by decide) rfl
  case status => exact readsReg_dec hp (off := 0x04) (by decide) (by decide) (decStatus_toNat d)
  case width => exact readsReg_dec hp (off := 0x08) (by decide) (by decide) rfl
  case height => exact readsReg_dec hp (off := 0x0C) (by decide) (by decide) rfl
  case format => exact readsReg_dec hp (off := 0x10) (by decide) (by decide) (decFormat_toNat d)
  case kLo => exact readsReg_dec hp (off := 0x14) (by decide) (by decide) (loHalf_toNat d.k)
  case kHi => exact readsReg_dec hp (off := 0x18) (by decide) (by decide) (hiHalf_toNat d.k)
  case posLo => exact readsReg_dec hp (off := 0x1C) (by decide) (by decide) (loHalf_toNat d.pos)
  case posHi => exact readsReg_dec hp (off := 0x20) (by decide) (by decide) (hiHalf_toNat d.pos)
  case inData => exact readsReg_dec hp (off := 0x24) (by decide) (by decide) rfl
  case free => exact readsReg_dec hp (off := 0x28) (by decide) (by decide) (inFree_toNat s.params d)
  case reserved => exact readsReg_dec hp hhi h4 (by rw [decRegAt_reserved hlo]; rfl)

/-! ### What the register writes do -/

/-- An ENC register's write leaves a state: what the bus write leaves. -/
theorem writesReg_enc {s t : State} {v : BitVec 64} {off : Nat} (h : off < 256) (h4 : off % 4 = 0)
    (ht : encRegWrite (encRegAt off) (v.setWidth 32) s = t) : writesReg s (s.params.encBase + off) v t := by
  rw [writesReg, hostWrite_regE s v h h4, ht]

/-- The offsets of ENC's block whose writes are ignored (10_state.md R46, R50 to R53; 20_memory.md R68). -/
theorem encRegWrite_ignored {off : Nat} (h : off = 0x04 ∨ 0x14 ≤ off) (v : Word) (s : State) :
    encRegWrite (encRegAt off) v s = s := by
  unfold encRegAt
  split
  case h_1 | h_3 | h_4 | h_5 => omega
  all_goals rfl

/-- The offsets of DEC's block whose writes are ignored (10_state.md R55 to R58, R60; 20_memory.md R68). -/
theorem decRegWrite_ignored {off : Nat} (h : 0x04 ≤ off) (hd : off ≠ 0x24) (v : Word) (s : State) :
    decRegWrite (decRegAt off) v s = s := by
  unfold decRegAt
  split
  case h_1 | h_10 => omega
  all_goals rfl

/-- The FORMAT fields of the 32-bit register are those of the bus value (10_state.md R49). -/
theorem format_fields (v : BitVec 64) : (v.setWidth 32).extractLsb' 0 8 = v.extractLsb' 0 8 ∧
    (v.setWidth 32).extractLsb' 8 1 = v.extractLsb' 8 1 :=
  ⟨BitVec.extractLsb'_setWidth_of_le (by decide), BitVec.extractLsb'_setWidth_of_le (by decide)⟩

/-- Settles O48: a configuration write is `encConfigure`, which tests BUSY; at the other offsets the write is the
identity. -/
theorem registerWrites : Obligations.RegisterWrites := by
  intro s v hp base
  refine ⟨fun hb => ⟨?width, ?height, ?format⟩, fun hb => ⟨?width', ?height', ?format'⟩,
    fun off hlt h4 h => ?encIgnored, fun off hlt h4 hlo hne => ?decIgnored⟩
  case width => exact writesReg_enc (off := 0x08) (by decide) (by decide) (if_pos hb)
  case height => exact writesReg_enc (off := 0x0C) (by decide) (by decide) (if_pos hb)
  case format => exact writesReg_enc (off := 0x10) (by decide) (by decide) (if_pos hb)
  case width' => exact writesReg_enc (off := 0x08) (by decide) (by decide) (if_neg hb)
  case height' => exact writesReg_enc (off := 0x0C) (by decide) (by decide) (if_neg hb)
  case format' =>
    obtain ⟨hch, hcs⟩ := format_fields v
    rw [← hch, ← hcs]
    exact writesReg_enc (off := 0x10) (by decide) (by decide) (if_neg hb)
  case encIgnored => exact writesReg_enc hlt h4 (encRegWrite_ignored h _ s)
  case decIgnored => rw [writesReg, hostWrite_regD hp v hlt h4, decRegWrite_ignored hlo hne]

end Sys2Proof.Machine
end

section
/-!
PROOFS. The rules of memory (spec/20_memory.md): what an engine's step needs of its FIFO, and that nothing else of the
FIFO decides it (R65, R66, R82); that DEC writes inside PIX_D or stops, and what it writes follows from the stream alone
(R62, R82; spec/41_decoder.md R161); what the host reads and writes in the pixel memories and where an access stops
(R61, R67, R72 to R76).
-/

open Sys2Proof Sys2Proof.Machine Sys2Proof.Claims

namespace Sys2Proof.Machine

/-! ### Where a host access stops -/

theorem not_within_iff {base size a : Nat} : ¬ within base size a ↔ a < base ∨ base + size ≤ a := by
  rw [within]
  omega

theorem within_offset {base size a : Nat} (h : within base size a) : a - base < size ∧ a = base + (a - base) := by
  obtain ⟨hlo, hhi⟩ := h
  omega

theorem regionOf_none {p : Config.Params} {a : Nat} (h : unmapped p a) : regionOf p a = none := by
  obtain ⟨hE, hD, hpE, hpD⟩ := h
  rw [regionOf, if_neg (not_within_iff (size := Config.regBlockBytes).2 hE),
    if_neg (not_within_iff (size := Config.regBlockBytes).2 hD), if_neg (not_within_iff.2 hpE),
    if_neg (not_within_iff.2 hpD)]

/-- The address map (20_memory.md R61): an address lies in a register block, in a pixel memory, or nowhere. -/
theorem regionOf_cases (p : Config.Params) (a : Nat) :
    (∃ off, off < 256 ∧ regionOf p a = some (.regE off) ∧ a = p.encBase + off) ∨
    (∃ off, off < 256 ∧ regionOf p a = some (.regD off) ∧ a = p.decBase + off) ∨
    (∃ x, x < p.pixMemBytes ∧ regionOf p a = some (.pixE x) ∧ a = p.pixeBase + x) ∨
    (∃ x, x < p.pixMemBytes ∧ regionOf p a = some (.pixD x) ∧ a = p.pixdBase + x) ∨
    (regionOf p a = none ∧ unmapped p a) := by
  rw [regionOf]
  split_ifs with hE hD hpE hpD
  · obtain ⟨hlt, ha⟩ := within_offset hE; exact .inl ⟨_, hlt, rfl, ha⟩
  · obtain ⟨hlt, ha⟩ := within_offset hD; exact .inr (.inl ⟨_, hlt, rfl, ha⟩)
  · obtain ⟨hlt, ha⟩ := within_offset hpE; exact .inr (.inr (.inl ⟨_, hlt, rfl, ha⟩))
  · obtain ⟨hlt, ha⟩ := within_offset hpD; exact .inr (.inr (.inr (.inl ⟨_, hlt, rfl, ha⟩)))
  · exact .inr (.inr (.inr (.inr ⟨rfl, not_within_iff.1 hE, not_within_iff.1 hD, not_within_iff.1 hpE,
      not_within_iff.1 hpD⟩)))

/-- What an access of width `w` at `a` may answer: a next state, or one of the two stops, each only where the map
(20_memory.md R61; log 7) or R67 makes it. -/
def StopsOnlyAt (p : Config.Params) (a : Nat) (w : Width) (r : Result) : Prop :=
  (∃ t, r = .next t) ∨ (r = .fault .unmappedAddress ∧ (unmapped p a ∨ pastEnd p a w)) ∨
  (r = .refused .registerAccess ∧ unsupported p a w)

/-- The answer of a register block, from whether R67 supports the access. -/
theorem StopsOnlyAt.register {p : Config.Params} {a off : Nat} {w : Width} (t : State) (hlt : off < 256)
    (ha : a = p.encBase + off ∨ a = p.decBase + off) :
    StopsOnlyAt p a w (if registerAccess w off then .next t else .refused .registerAccess) := by
  split
  case isTrue => exact .inl ⟨t, rfl⟩
  case isFalse h =>
    rw [registerAccess_iff, not_and_or] at h
    exact .inr (.inr ⟨rfl, off, hlt, h, ha⟩)

/-- The answer of a pixel memory, from whether the access ends inside it. -/
theorem StopsOnlyAt.pixel {p : Config.Params} {a x : Nat} {w : Width} (t : State) (hlt : x < p.pixMemBytes)
    (ha : a = p.pixeBase + x ∨ a = p.pixdBase + x) :
    StopsOnlyAt p a w (if x + w.bytes ≤ p.pixMemBytes then .next t else .fault .unmappedAddress) := by
  split
  case isTrue => exact .inl ⟨t, rfl⟩
  case isFalse h => exact .inr (.inl ⟨rfl, .inr ⟨x, hlt, Nat.not_le.1 h, ha⟩⟩)

theorem StopsOnlyAt.nowhere {p : Config.Params} {a : Nat} {w : Width} (h : unmapped p a) :
    StopsOnlyAt p a w (.fault .unmappedAddress) := .inr (.inl ⟨rfl, .inl h⟩)

theorem hostRead_stops (a : Nat) (w : Width) (s : State) : StopsOnlyAt s.params a w (hostRead a w s) := by
  rw [hostRead]
  obtain ⟨off, hlt, hr, ha⟩ | ⟨off, hlt, hr, ha⟩ | ⟨x, hlt, hr, ha⟩ | ⟨x, hlt, hr, ha⟩ | ⟨hr, hu⟩ :=
    regionOf_cases s.params a <;> rw [hr]
  · exact .register _ hlt (.inl ha)
  · exact .register _ hlt (.inr ha)
  · exact .pixel _ hlt (.inl ha)
  · exact .pixel _ hlt (.inr ha)
  · exact .nowhere hu

theorem hostWrite_stops (a : Nat) (w : Width) (v : BitVec 64) (s : State) :
    StopsOnlyAt s.params a w (hostWrite a w v s) := by
  rw [hostWrite]
  obtain ⟨off, hlt, hr, ha⟩ | ⟨off, hlt, hr, ha⟩ | ⟨x, hlt, hr, ha⟩ | ⟨x, hlt, hr, ha⟩ | ⟨hr, hu⟩ :=
    regionOf_cases s.params a <;> rw [hr]
  · exact .register _ hlt (.inl ha)
  · exact .register _ hlt (.inr ha)
  · exact .pixel _ hlt (.inl ha)
  · exact .pixel _ hlt (.inr ha)
  · exact .nowhere hu

/-- A host act is the reset, which answers a next state, or an access, which stops only where the map and R67 say. -/
theorem hostAct_stops (act : HostAct) (s : State) :
    (∃ t, hostAct act s = .next t) ∨ ∃ a w, accesses act a w ∧ StopsOnlyAt s.params a w (hostAct act s) := by
  cases act with
  | read a w => exact .inr ⟨a, w, .inl rfl, hostRead_stops a w s⟩
  | write a w v => exact .inr ⟨a, w, .inr ⟨v, rfl⟩, hostWrite_stops a w v s⟩
  | reset => exact .inl ⟨_, rfl⟩

theorem inRangeOutcome_of_host {r : Result} (h : hostOutcome r) : inRangeOutcome r := by
  rintro rfl
  obtain ⟨t, ht, -⟩ | hf | hr := h
  · cases ht
  · cases hf
  · cases hr

/-- Settles O55: an engine's turn keeps the invariant and so answers a next state; the host's turn stops only where the
address map or R67 stops its access. -/
theorem engineNeverOutOfRange : Obligations.EngineNeverOutOfRange := by
  intro s hi
  refine ⟨inRangeOutcome_of_host (step_keeps hi), ?_⟩
  have hb := beginTurn_keeps hi
  rw [step]
  cases hturn : s.turn with
  | enc => obtain ⟨t, ht, -⟩ := encTurn_keeps hb; exact .inl ⟨t, ht⟩
  | dec => obtain ⟨t, ht, -⟩ := decTurn_keeps hb; exact .inl ⟨t, ht⟩
  | host =>
    rcases hostAct_stops s.beginTurn.nextAct s.beginTurn.takeAct with hnext | ⟨a, w, hacc, hnext | hstop⟩
    · exact .inl hnext
    · exact .inl hnext
    · exact .inr ⟨rfl, a, w, hacc, hstop⟩

/-! ### Register accesses that are refused -/

theorem registerAccess_unsupported {w : Width} {off : Nat} (h : w ≠ .word ∨ off % 4 ≠ 0) :
    ¬ registerAccess w off = true := by
  rw [registerAccess_iff, not_and_or]
  exact h

/-- Settles O49: the offset lies in its block, and the block answers by `registerAccess`. -/
theorem registerAccessRefused : Obligations.RegisterAccessRefused := by
  intro s off w v hp hlt hbad
  have hno := registerAccess_unsupported hbad
  rw [hostRead, hostWrite, regionOf_regE off hlt, hostRead, hostWrite, regionOf_regD hp off hlt]
  exact ⟨if_neg hno, if_neg hno, if_neg hno, if_neg hno⟩

/-! ### What the host reads and writes in the pixel memories -/

/-- An access that ends inside a memory starts inside it. -/
theorem start_lt_of_access {x n : Nat} {w : Width} (h : x + w.bytes ≤ n) : x < n :=
  (Nat.lt_add_of_pos_right w.bytes_pos).trans_le h

theorem hostRead_pixE {s : State} (hp : s.params.wf) {x : Nat} {w : Width} (h : x + w.bytes ≤ s.params.pixMemBytes) :
    hostRead (s.params.pixeBase + x) w s =
      .next ((s.reply (busValue s.params.busOrder (Memory.bytesAt s.pixE s.draws x w.bytes))).spend w.bytes) := by
  rw [hostRead, regionOf_pixE hp x (start_lt_of_access h)]
  exact if_pos h

theorem hostRead_pixD {s : State} (hp : s.params.wf) {x : Nat} {w : Width} (h : x + w.bytes ≤ s.params.pixMemBytes) :
    hostRead (s.params.pixdBase + x) w s =
      .next ((s.reply (busValue s.params.busOrder (s.pixDBytes x w.bytes))).spend w.bytes) := by
  rw [hostRead, regionOf_pixD hp x (start_lt_of_access h)]
  exact if_pos h

theorem hostWrite_pixE {s : State} (hp : s.params.wf) (v : BitVec 64) {x : Nat} {w : Width}
    (h : x + w.bytes ≤ s.params.pixMemBytes) :
    hostWrite (s.params.pixeBase + x) w v s =
      .next { s with pixE := Memory.writeBytes s.pixE x (busBytes s.params.busOrder w.bytes v) } := by
  rw [hostWrite, regionOf_pixE hp x (start_lt_of_access h)]
  exact if_pos h

theorem hostWrite_pixD {s : State} (hp : s.params.wf) (v : BitVec 64) {x : Nat} {w : Width}
    (h : x + w.bytes ≤ s.params.pixMemBytes) :
    hostWrite (s.params.pixdBase + x) w v s =
      .next { s with pixD := Memory.writeBytes s.pixD x (busBytes s.params.busOrder w.bytes v) } := by
  rw [hostWrite, regionOf_pixD hp x (start_lt_of_access h)]
  exact if_pos h

/-- An access that runs past the end of its pixel memory stops, and so does one at no region's address. -/
theorem hostAccess_unmapped {s : State} {a : Nat} {w : Width} (v : BitVec 64)
    (h : unmapped s.params a ∨ s.params.wf ∧ pastEnd s.params a w) :
    hostRead a w s = .fault .unmappedAddress ∧ hostWrite a w v s = .fault .unmappedAddress := by
  rw [hostRead, hostWrite]
  obtain hu | ⟨hp, x, hlt, hend, rfl | rfl⟩ := h
  · rw [regionOf_none hu]
    exact ⟨rfl, rfl⟩
  · rw [regionOf_pixE hp x hlt]
    exact ⟨if_neg (Nat.not_le.2 hend), if_neg (Nat.not_le.2 hend)⟩
  · rw [regionOf_pixD hp x hlt]
    exact ⟨if_neg (Nat.not_le.2 hend), if_neg (Nat.not_le.2 hend)⟩

theorem Width.bytes_le (w : Width) : w.bytes ≤ 8 := by cases w <;> decide

/-- The j-th byte a wide write stores is the j-th of the bus order (20_memory.md R72). -/
theorem busBytes_getElem? (o : ByteOrder) (w : Width) (v : BitVec 64) {j : Nat} (hj : j < w.bytes) :
    (busBytes o w.bytes v)[j]? = some (busByte o w v j) := by
  cases o with
  | little => simp [busBytes, busByte, hj]
  | big => simp [busBytes, busByte, hj]

/-- The written bytes of a wide write, each in the bus order, and no other byte. -/
theorem lookup_write_bus (m : Memory) (o : ByteOrder) (x : Nat) (w : Width) (v : BitVec 64) (y : Nat) :
    Memory.lookup (Memory.writeBytes m x (busBytes o w.bytes v)) y =
      if x ≤ y ∧ y < x + w.bytes then some (busByte o w v (y - x)) else Memory.lookup m y := by
  rw [Memory.lookup_writeBytes, busBytes_length]
  refine ite_congr rfl (fun h => ?_) fun _ => rfl
  exact busBytes_getElem? o w v (by omega)

/-! A bus value holds its bytes. -/

theorem valueOf_lt (bs : List Byte) : (valueOf bs).toNat < 2 ^ (8 * bs.length) := by
  induction bs with
  | nil => exact Nat.one_pos
  | cons b bs ih =>
    have hb : (b.setWidth 64).toNat < 2 ^ (8 * (bs.length + 1)) := by
      rw [BitVec.toNat_setWidth]
      exact (Nat.mod_le _ _).trans_lt (b.isLt.trans_le (Nat.pow_le_pow_right Nat.two_pos (by omega)))
    have hbs : (valueOf bs <<< 8).toNat < 2 ^ (8 * (bs.length + 1)) := by
      rw [BitVec.toNat_shiftLeft, Nat.shiftLeft_eq, Nat.mul_add_one 8, Nat.pow_add]
      exact (Nat.mod_le _ _).trans_lt (Nat.mul_lt_mul_of_pos_right ih (by decide))
    rw [valueOf, BitVec.toNat_or, List.length_cons]
    exact Nat.or_lt_two_pow hb hbs

theorem valueOf_byte (bs : List Byte) {j : Nat} (hj : j < bs.length) (h8 : bs.length ≤ 8) :
    (valueOf bs).extractLsb' (8 * j) 8 = bs[j] := by
  induction bs generalizing j with
  | nil => cases hj
  | cons b bs ih =>
    rw [List.length_cons] at hj h8
    cases j with
    | zero =>
      ext i hi
      simp [valueOf, hi, show i < 64 by omega]
    | succ j =>
      have hj' : j < bs.length := by omega
      rw [List.getElem_cons_succ, ← ih hj' (by omega)]
      ext i hi
      have hb : b.getLsbD (8 * (j + 1) + i) = false := BitVec.getLsbD_of_ge b _ (by omega)
      have hbs : 8 * (j + 1) + i - 8 = 8 * j + i := by omega
      have hlo : ¬ 8 * (j + 1) + i < 8 := by omega
      have hin : 8 * j + i < 64 := by omega
      simp [valueOf, hb, hbs, hlo, show 8 * (j + 1) + i < 64 by omega, BitVec.getLsbD_eq_getElem hin]

theorem busValue_lt (o : ByteOrder) (bs : List Byte) : (busValue o bs).toNat < 2 ^ (8 * bs.length) := by
  cases o with
  | little => exact valueOf_lt bs
  | big => rw [← List.length_reverse]; exact valueOf_lt bs.reverse

/-- A value read holds, at the j-th place of the bus order, the j-th byte read. -/
theorem busByte_busValue (o : ByteOrder) {w : Width} {bs : List Byte} (hlen : bs.length = w.bytes) {j : Nat}
    (hj : j < w.bytes) : busByte o w (busValue o bs) j = bs[j] := by
  have h8 := w.bytes_le
  cases o with
  | little => exact valueOf_byte bs (hlen ▸ hj) (hlen ▸ h8)
  | big =>
    have hj' : w.bytes - 1 - j < bs.reverse.length := by rw [List.length_reverse]; omega
    refine (valueOf_byte bs.reverse hj' (by rw [List.length_reverse]; omega)).trans ?_
    rw [List.getElem_reverse]
    congr 1
    omega

@[simp] theorem busValue_singleton (o : ByteOrder) (b : Byte) : busValue o [b] = b.setWidth 64 := by
  cases o <;> simp [busValue, valueOf]

@[simp] theorem busByte_byte (o : ByteOrder) (v : BitVec 64) : busByte o .byte v 0 = v.extractLsb' 0 8 := by
  cases o <;> rfl

@[simp] theorem State.pixDBytes_length (s : State) (a n : Nat) : (s.pixDBytes a n).length = n := by
  simp [State.pixDBytes]

/-- The state a host read of n bytes of a pixel memory leaves (20_memory.md R76; log 2). -/
theorem reply_spend (s : State) (r : BitVec 64) (n : Nat) :
    (s.reply r).spend n = { s with replies := s.replies ++ [r], draws := s.draws + n } := rfl

theorem hostRead_pixE_byte {s : State} (hp : s.params.wf) {x : Nat} (hx : x < s.params.pixMemBytes) :
    hostRead (s.params.pixeBase + x) .byte s = .next { s with
      replies := s.replies ++ [(Memory.byteAt s.pixE s.draws x).setWidth 64]
      draws := s.draws + 1 } := by
  rw [hostRead_pixE hp (w := .byte) hx]
  change Host.Outcome.next ((s.reply (busValue _ [Memory.byteAt s.pixE s.draws x])).spend 1) = _
  rw [busValue_singleton, reply_spend]

theorem hostRead_pixD_byte {s : State} (hp : s.params.wf) {x : Nat} (hx : x < s.params.pixMemBytes) :
    hostRead (s.params.pixdBase + x) .byte s = .next { s with
      replies := s.replies ++ [(s.pixDByte s.draws x).setWidth 64]
      draws := s.draws + 1 } := by
  rw [hostRead_pixD hp (w := .byte) hx]
  change Host.Outcome.next ((s.reply (busValue _ [s.pixDByte s.draws x])).spend 1) = _
  rw [busValue_singleton, reply_spend]

theorem Memory.byteAt_of_unwritten {m : Memory} {d a : Nat} (h : Memory.lookup m a = none) :
    Memory.byteAt m d a = Config.freeByte d := by
  simp [Memory.byteAt, h]

/-- A byte of PIX_D the host sees: below DEC.k·CH what is stored, at or above it a draw (20_memory.md R73). -/
theorem State.pixDByte_below {s : State} {d a : Nat} (h : a < s.dec.k.toNat * s.dec.ch.toNat) :
    s.pixDByte d a = Memory.byteAt s.pixD d a := if_pos h

theorem State.pixDByte_above {s : State} {d a : Nat} (h : s.dec.k.toNat * s.dec.ch.toNat ≤ a) :
    s.pixDByte d a = Config.freeByte d := if_neg (Nat.not_lt.2 h)

/-- A byte that nothing has written is a draw wherever it lies (R341). -/
theorem State.pixDByte_of_unwritten {s : State} {d a : Nat} (h : Memory.lookup s.pixD a = none) :
    s.pixDByte d a = Config.freeByte d := by
  rcases Nat.lt_or_ge a (s.dec.k.toNat * s.dec.ch.toNat) with hlt | hge
  · rw [State.pixDByte_below hlt, Memory.byteAt_of_unwritten h]
  · exact State.pixDByte_above hge

/-- Settles O51: a one-byte read answers the byte its memory shows, stored or drawn. -/
theorem pixelReadsAndDraws : Obligations.PixelReadsAndDraws := by
  intro s x hp hx
  rw [hostRead_pixD_byte hp hx, hostRead_pixE_byte hp hx]
  refine ⟨fun v hlt hv => ?_, fun hfree => ?_, fun hnone => ?_⟩
  · rw [State.pixDByte_below hlt, Memory.byteAt_of_lookup _ hv]
  · rw [hfree.elim State.pixDByte_above State.pixDByte_of_unwritten]
  · rw [Memory.byteAt_of_unwritten hnone]

/-- A read of PIX_E gives each written byte, in the bus order. -/
theorem busByte_read_pixE {s : State} {x : Nat} {w : Width} {j : Nat} {b : Byte} (hj : j < w.bytes)
    (hb : Memory.lookup s.pixE (x + j) = some b) :
    busByte s.params.busOrder w (busValue s.params.busOrder (Memory.bytesAt s.pixE s.draws x w.bytes)) j = b := by
  rw [busByte_busValue _ (Memory.bytesAt_length _ _ _ _) hj]
  simp [Memory.bytesAt, hb]

/-- A read of PIX_D gives each written byte below DEC.k·CH, in the bus order. -/
theorem busByte_read_pixD {s : State} {x : Nat} {w : Width} {j : Nat} {b : Byte} (hj : j < w.bytes)
    (hlt : x + j < s.dec.k.toNat * s.dec.ch.toNat) (hb : Memory.lookup s.pixD (x + j) = some b) :
    busByte s.params.busOrder w (busValue s.params.busOrder (s.pixDBytes x w.bytes)) j = b := by
  rw [busByte_busValue _ (s.pixDBytes_length _ _) hj]
  simp [State.pixDBytes, State.pixDByte_below hlt, hb]

/-- A one-byte write changes its byte alone. -/
theorem lookup_write_byte (m : Memory) (o : ByteOrder) (x : Nat) (v : BitVec 64) (y : Nat) :
    Memory.lookup (Memory.writeBytes m x (busBytes o Width.byte.bytes v)) y =
      if y = x then some (v.extractLsb' 0 8) else Memory.lookup m y := by
  rw [lookup_write_bus]
  by_cases h : y = x
  · subst h
    rw [if_pos ⟨le_rfl, Nat.lt_succ_self y⟩, if_pos rfl, Nat.sub_self, busByte_byte]
  · rw [if_neg h, if_neg (by rw [Width.bytes]; omega)]

/-- Settles O50: inside its memory an access completes, a write being `lookup_write_bus` and a read the bytes of the bus
order; past the end, and outside the map, it stops. -/
theorem pixelMemoryAccess : Obligations.PixelMemoryAccess := by
  refine ⟨fun s x v hp hx => ⟨⟨_, hostWrite_pixE hp v hx, lookup_write_byte _ _ x v, ?readBack⟩,
      ⟨_, hostWrite_pixD hp v hx, lookup_write_byte _ _ x v⟩⟩,
    fun s x w v hp h => ⟨⟨_, hostWrite_pixE hp v h, lookup_write_bus _ _ x w v⟩,
      ⟨_, hostWrite_pixD hp v h, lookup_write_bus _ _ x w v⟩,
      ⟨_, hostRead_pixE hp h, ?widthE, fun _ _ hj hb => busByte_read_pixE hj hb⟩,
      ⟨_, hostRead_pixD hp h, ?widthD, fun _ _ hj hlt hb => busByte_read_pixD hj hlt hb⟩⟩,
    fun s a w v h => hostAccess_unmapped v h⟩
  case readBack =>
    have hback := lookup_write_byte s.pixE s.params.busOrder x v x
    rw [if_pos rfl] at hback
    rw [← Memory.byteAt_of_lookup (d := s.draws) _ hback]
    exact hostRead_pixE_byte (s := { s with pixE := Memory.writeBytes s.pixE x _ }) hp hx
  case widthE => exact (busValue_lt _ _).trans_eq (by rw [Memory.bytesAt_length])
  case widthD => exact (busValue_lt _ _).trans_eq (by rw [State.pixDBytes_length])

/-! ### What ENC's step needs of its FIFO, and what it appends -/

theorem encEnabled_iff {p : Config.Params} {e : Enc} : encEnabled p e = true ↔
    e.state = .busy ∧ encRoom e.phase ≤ p.outDepth - e.outQ.length := decide_eq_true_iff

theorem encTurn_of_disabled {s : State} (h : encEnabled s.params s.enc = false) : encTurn s = .next s := by
  rw [encTurn, h]
  rfl

theorem encRoom_le (ph : EncPhase) : encRoom ph ≤ 14 := by cases ph <;> decide

/-- The state on a platform of another OUT_DEPTH, with other bytes waiting in OUTQ. -/
def State.refit (s : State) (depth : Nat) (q : List Byte) : State :=
  { s with params := { s.params with outDepth := depth }, enc := { s.enc with outQ := q } }

/-- At `s` the update appends `bs` to OUTQ and counts them, and it does the same whatever OUT_DEPTH is and whatever
bytes wait. -/
structure Appends (s : State) (f : State → State) (bs : List Byte) : Prop where
  outQ : (f s).enc.outQ = s.enc.outQ ++ bs
  outCnt : (f s).enc.outCnt = s.enc.outCnt + BitVec.ofNat 64 bs.length
  refit : ∀ depth q, f (s.refit depth q) = (f s).refit depth (q ++ bs)

theorem Appends.emit (s : State) (bs : List Byte) : Appends s (fun x => x.emit bs) bs := ⟨rfl, rfl, fun _ _ => rfl⟩

/-- An update that neither reads nor writes OUTQ, OUTCNT and OUT_DEPTH appends nothing. -/
theorem Appends.nothing {s : State} {f : State → State} (hq : (f s).enc.outQ = s.enc.outQ)
    (hc : (f s).enc.outCnt = s.enc.outCnt) (hr : ∀ depth q, f (s.refit depth q) = (f s).refit depth q) :
    Appends s f [] where
  outQ := by rw [hq, List.append_nil]
  outCnt := by rw [hc]; exact (BitVec.add_zero _).symm
  refit := fun depth q => by rw [hr, List.append_nil]

theorem Appends.comp {s : State} {f g : State → State} {bs cs : List Byte} (hf : Appends s f bs)
    (hg : Appends (f s) g cs) : Appends s (fun x => g (f x)) (bs ++ cs) where
  outQ := by rw [hg.outQ, hf.outQ, List.append_assoc]
  outCnt := by rw [hg.outCnt, hf.outCnt, List.length_append, BitVec.ofNat_add, BitVec.add_assoc]
  refit := fun depth q => by rw [hf.refit, hg.refit, List.append_assoc]

/-- An update that is another one at `s`, whatever OUT_DEPTH is and whatever bytes wait. -/
theorem Appends.congr {s : State} {f g : State → State} {bs : List Byte} (hg : Appends s g bs)
    (h : ∀ depth q, f (s.refit depth q) = g (s.refit depth q)) : Appends s f bs := by
  have hs : f s = g s := h s.params.outDepth s.enc.outQ
  exact ⟨hs ▸ hg.outQ, hs ▸ hg.outCnt, fun depth q => by rw [h, hs, hg.refit]⟩

theorem Appends.setRun (s : State) (n : BitVec 6) : Appends s (fun x => x.setRun n) [] :=
  .nothing rfl rfl fun _ _ => rfl

theorem Appends.encUpdate (s : State) (p : Pixel) : Appends s (fun x => x.encUpdate p) [] :=
  .nothing rfl rfl fun _ _ => rfl

theorem Appends.encNext (s : State) : Appends s State.encNext [] := .nothing rfl rfl fun _ _ => rfl

theorem encFlush_appends (s : State) : ∃ bs, bs.length ≤ 1 ∧ Appends s encFlush bs := by
  by_cases h : 0 < s.enc.run.toNat
  · have hflush := (Appends.emit s (encode (.run s.enc.run.toNat))).comp (Appends.setRun _ 0)
    exact ⟨_, le_rfl, hflush.congr fun _ _ => if_pos h⟩
  · have hnone : Appends s id [] := .nothing rfl rfl fun _ _ => rfl
    exact ⟨_, Nat.zero_le _, hnone.congr fun _ _ => if_neg h⟩

theorem encRunStep_appends (s : State) : ∃ bs, bs.length ≤ 1 ∧ Appends s encRunStep bs := by
  by_cases h : s.enc.run + 1 = 62
  · have hemit := (Appends.emit s (encode (.run 62))).comp (Appends.setRun _ 0)
    exact ⟨_, le_rfl, hemit.congr fun _ _ => if_pos h⟩
  · exact ⟨_, Nat.zero_le _, (Appends.setRun s (s.enc.run + 1)).congr fun _ _ => if_neg h⟩

theorem encCodeStep_appends (p : Pixel) (s : State) : ∃ bs, bs.length ≤ 6 ∧ Appends s (encCodeStep p) bs := by
  obtain ⟨fl, hfl, hflush⟩ := encFlush_appends s
  have hsize := (selectItem_size s.enc.cache p s.enc.prev).2
  have hcode := (hflush.comp (.emit _ (encode (selectItem s.enc.cache p s.enc.prev)))).comp (.encUpdate _ p)
  refine ⟨_, ?_, hcode.congr fun _ _ => rfl⟩
  simp only [List.length_append, encode_length, List.length_nil]
  omega

theorem encPixel_appends (p : Pixel) (s : State) : ∃ bs, bs.length ≤ 6 ∧ Appends s (encPixel p) bs := by
  by_cases h : p = s.enc.prev
  · obtain ⟨bs, hlen, happ⟩ := encRunStep_appends s
    exact ⟨_, by rw [List.append_nil]; omega,
      (happ.comp (.encNext _)).congr fun _ _ => congrArg State.encNext (if_pos h)⟩
  · obtain ⟨bs, hlen, happ⟩ := encCodeStep_appends p s
    exact ⟨_, by rw [List.append_nil]; omega,
      (happ.comp (.encNext _)).congr fun _ _ => congrArg State.encNext (if_neg h)⟩

/-- The pixel step's update (42_encoder.md R201). -/
def encReadPixel (s : State) : State := encPixel s.readPixel s.drawPixel

theorem encReadPixel_appends (s : State) : ∃ bs, bs.length ≤ 6 ∧ Appends s encReadPixel bs := by
  obtain ⟨bs, hlen, happ⟩ := encPixel_appends s.readPixel s.drawPixel
  have hdraw : Appends s State.drawPixel [] := .nothing rfl rfl fun _ _ => rfl
  exact ⟨_, hlen, (hdraw.comp happ).congr fun _ _ => rfl⟩

/-- The header step's update (R200). -/
def encHeader (s : State) : State :=
  let t := s.emit (encode (.header s.enc.width s.enc.height s.enc.channels (s.enc.colorspace.setWidth 8)))
  { t with enc := { t.enc with phase := .pix } }

theorem encHeader_appends (s : State) : ∃ bs, bs.length ≤ 14 ∧ Appends s encHeader bs :=
  ⟨encode (.header s.enc.width s.enc.height s.enc.channels (s.enc.colorspace.setWidth 8)), le_rfl, rfl, rfl,
    fun _ _ => rfl⟩

/-- The final step's update (R210). -/
def encFinal (s : State) : State :=
  let t := (encFlush s).emit (encode .endMark)
  { t with enc := { t.enc with state := .done } }

theorem encFinal_appends (s : State) : ∃ bs, bs.length ≤ 9 ∧ Appends s encFinal bs := by
  obtain ⟨fl, hfl, hflush⟩ := encFlush_appends s
  have hmark := hflush.comp (.emit _ (encode .endMark))
  refine ⟨_, ?_, hmark.outQ, hmark.outCnt, fun depth q => ?_⟩
  · simp only [List.length_append, encode_length, Instr.size]
    omega
  · rw [encFinal, hmark.refit depth q]
    rfl

/-- ENC's enabled turn: the update of its phase, and in the pixel phase the test that the pixel lies in PIX_E. -/
theorem encTurn_hdr {s : State} (he : encEnabled s.params s.enc = true) (hph : s.enc.phase = .hdr) :
    encTurn s = .next (encHeader s) := by
  rw [encTurn, if_pos he, hph]
  rfl

theorem encTurn_pix {s : State} (he : encEnabled s.params s.enc = true) (hph : s.enc.phase = .pix) :
    encTurn s = if s.enc.pixelAddr + pixelSize s.enc.channels ≤ s.params.pixMemBytes then .next (encReadPixel s)
      else .fault .engineOutOfRange := by
  rw [encTurn, if_pos he, hph]
  rfl

theorem encTurn_fin {s : State} (he : encEnabled s.params s.enc = true) (hph : s.enc.phase = .fin) :
    encTurn s = .next (encFinal s) := by
  rw [encTurn, if_pos he, hph]
  rfl

/-- ENC's enabled turn is an update that appends at most the room of its phase (20_memory.md R65), the same one wherever
it is enabled. -/
theorem encTurn_appends {s t : State} (he : encEnabled s.params s.enc = true) (h : encTurn s = .next t) :
    ∃ f bs, t = f s ∧ Appends s f bs ∧ bs.length ≤ encRoom s.enc.phase ∧
      ∀ depth q, encEnabled (s.refit depth q).params (s.refit depth q).enc = true →
        encTurn (s.refit depth q) = .next (f (s.refit depth q)) := by
  cases hph : s.enc.phase with
  | hdr =>
    rw [encTurn_hdr he hph] at h
    cases h
    obtain ⟨bs, hlen, happ⟩ := encHeader_appends s
    exact ⟨encHeader, bs, rfl, happ, hlen, fun _ _ hu => encTurn_hdr hu hph⟩
  | pix =>
    rw [encTurn_pix he hph] at h
    split at h
    case isTrue hfit =>
      cases h
      obtain ⟨bs, hlen, happ⟩ := encReadPixel_appends s
      exact ⟨encReadPixel, bs, rfl, happ, hlen, fun _ _ hu => (encTurn_pix hu hph).trans (if_pos hfit)⟩
    case isFalse => cases h
  | fin =>
    rw [encTurn_fin he hph] at h
    cases h
    obtain ⟨bs, hlen, happ⟩ := encFinal_appends s
    exact ⟨encFinal, bs, rfl, happ, hlen, fun _ _ hu => encTurn_fin hu hph⟩

/-- Settles O30: below its room ENC is not enabled, an empty FIFO has the largest room, and an enabled turn is an update
that appends. -/
theorem encRoomRule : Obligations.EncRoomRule := by
  refine ⟨⟨rfl, rfl, rfl⟩, fun s hlt => ?hold, fun s hp hb hq => ?empty, fun s t h => ?appends⟩
  case hold =>
    exact encTurn_of_disabled (Bool.eq_false_iff.2 fun he => absurd hlt (Nat.not_lt.2 (encEnabled_iff.1 he).2))
  case empty =>
    obtain ⟨-, -, hout, -⟩ := hp
    exact encEnabled_iff.2 ⟨hb, by rw [hq]; exact (encRoom_le _).trans hout⟩
  case appends =>
    cases he : encEnabled s.params s.enc with
    | false =>
      rw [encTurn_of_disabled he] at h
      cases h
      exact ⟨[], (List.append_nil _).symm, Nat.zero_le _, (BitVec.add_zero _).symm⟩
    | true =>
      obtain ⟨f, bs, rfl, happ, hlen, -⟩ := encTurn_appends he h
      exact ⟨bs, happ.outQ, hlen, happ.outCnt⟩

/-- Settles O31: the turn is one update in both states, and that update commutes with refitting. -/
theorem encIndependentOfFifo : Obligations.EncIndependentOfFifo := by
  intro s t q depth u he hu h
  obtain ⟨e, n, rfl⟩ := encTurn_frame h
  obtain ⟨f, bs, ht, happ, -, hturn⟩ := encTurn_appends he h
  refine ⟨bs, by rw [ht]; exact happ.outQ, ?_⟩
  rw [show u = s.refit depth q from rfl, hturn depth q hu, happ.refit, ← ht]
  rfl

/-! ### What ENC's pixel step reads -/

theorem Memory.byteAt_of_reads {m : Memory} {d a : Nat} {v : Byte}
    (h : Memory.lookup m a = some v ∨ Memory.lookup m a = none ∧ v = Config.freeByte d) : Memory.byteAt m d a = v := by
  rcases h with hv | ⟨hnone, rfl⟩
  · exact Memory.byteAt_of_lookup m hv
  · exact Memory.byteAt_of_unwritten hnone

/-- The pixel read where the bytes at its place are known: alpha is 255 with three channels (20_memory.md R69). -/
theorem readPixel_four {s : State} (hch : s.enc.channels = 4) : s.readPixel =
    ⟨Memory.byteAt s.pixE s.draws s.enc.pixelAddr, Memory.byteAt s.pixE (s.draws + 1) (s.enc.pixelAddr + 1),
      Memory.byteAt s.pixE (s.draws + 2) (s.enc.pixelAddr + 2),
      Memory.byteAt s.pixE (s.draws + 3) (s.enc.pixelAddr + 3)⟩ := by
  rw [State.readPixel, hch]
  rfl

theorem readPixel_three {s : State} (hch : s.enc.channels = 3) : s.readPixel =
    ⟨Memory.byteAt s.pixE s.draws s.enc.pixelAddr, Memory.byteAt s.pixE (s.draws + 1) (s.enc.pixelAddr + 1),
      Memory.byteAt s.pixE (s.draws + 2) (s.enc.pixelAddr + 2), 255⟩ := by
  rw [State.readPixel, hch]
  rfl

/-- Settles O33: the read of the pixel's bytes gives each as it was written, or drawn. -/
theorem encPixelRead : Obligations.EncPixelRead := by
  intro s r g b a hb hph hroom reads hr hg hbl
  have he : encEnabled s.params s.enc = true := encEnabled_iff.2 ⟨hb, by rw [hph]; exact hroom⟩
  have hr : Memory.byteAt s.pixE s.draws s.enc.pixelAddr = r := Memory.byteAt_of_reads hr
  have hg : Memory.byteAt s.pixE (s.draws + 1) (s.enc.pixelAddr + 1) = g := Memory.byteAt_of_reads hg
  have hbl : Memory.byteAt s.pixE (s.draws + 2) (s.enc.pixelAddr + 2) = b := Memory.byteAt_of_reads hbl
  refine ⟨fun hch ha hfit => ?four, fun hch hfit => ?three⟩
  case four =>
    have ha : Memory.byteAt s.pixE (s.draws + 3) (s.enc.pixelAddr + 3) = a := Memory.byteAt_of_reads ha
    rw [encTurn_pix he hph, if_pos (by rw [Enc.pixelAddr, hch]; exact hfit), encReadPixel, readPixel_four hch, hr, hg,
      hbl, ha, State.drawPixel, hch]
    rfl
  case three =>
    rw [encTurn_pix he hph, if_pos (by rw [Enc.pixelAddr, hch]; exact hfit), encReadPixel, readPixel_three hch, hr, hg,
      hbl, State.drawPixel, hch]
    rfl

/-! ### A pixel outside PIX_D -/

theorem putPixel_of_no_room {p : Pixel} {s : State}
    (h : ¬ s.dec.pixelAddr + pixelSize s.dec.ch ≤ s.params.pixMemBytes) :
    putPixel p s = .fault .engineOutOfRange := if_neg h

theorem resolve_of_no_room {p : Pixel} {n : Nat} {s : State}
    (h : ¬ s.dec.pixelAddr + pixelSize s.dec.ch ≤ s.params.pixMemBytes) :
    resolve p n s = .fault .engineOutOfRange := by
  have h' : ¬ (s.setCur p).dec.pixelAddr + pixelSize (s.setCur p).dec.ch ≤ (s.setCur p).params.pixMemBytes := h
  rw [resolve, putPixel_of_no_room h', andThen_fault]

/-- A run of putPixels whose last pixel does not fit stops at the first one that does not. -/
theorem putRun_of_no_room {n : Nat} {s : State} (hk : s.dec.k.toNat + n < 2 ^ 64) (hn : 1 ≤ n)
    (h : s.params.pixMemBytes < (s.dec.k.toNat + n) * pixelSize s.dec.ch) :
    putRun n s = .fault .engineOutOfRange := by
  induction n generalizing s with
  | zero => cases hn
  | succ n ih =>
    rw [putRun]
    by_cases hfit : s.dec.pixelAddr + pixelSize s.dec.ch ≤ s.params.pixMemBytes
    · have hk1 : (s.storePixel s.dec.cur).dec.k.toNat = s.dec.k.toNat + 1 := count_succ (by omega)
      have hn0 : n ≠ 0 := by
        rintro rfl
        rw [Nat.add_mul, Nat.one_mul] at h
        exact absurd hfit (Nat.not_le.2 h)
      rw [putPixel_of_room hfit, andThen_next]
      refine ih (by rw [hk1]; omega) (by omega) ?_
      rw [hk1, Nat.add_assoc, Nat.add_comm 1]
      exact h
    · rw [putPixel_of_no_room hfit, andThen_fault]

/-- Settles O21: the five items are one `resolve`, and a RUN is `putRun`; both stop at a pixel without room. -/
theorem pixelOutOfRangeStops : Obligations.PixelOutOfRangeStops := by
  refine ⟨fun s h => ?single, fun s len h1 hle hroom => ?run⟩
  case single =>
    exact ⟨fun _ _ _ _ => resolve_of_no_room h, fun _ _ _ => resolve_of_no_room h, fun _ => resolve_of_no_room h,
      fun _ _ _ => resolve_of_no_room h, fun _ _ _ => resolve_of_no_room h⟩
  case run =>
    rw [exec, execRun, if_neg (Nat.not_lt.2 hle), putRun_of_no_room (hle.trans_lt s.dec.n_lt) h1 hroom, andThen_fault]

/-! ### What DEC's step needs of its FIFO -/

theorem decEnabled_iff {d : Dec} : decEnabled d = true ↔
    d.state = .busy ∧ (decNeed d ≤ d.avail - d.pos.toNat ∨ d.inLast = true) := decide_eq_true_iff

theorem decTurn_of_disabled {s : State} (h : decEnabled s.dec = false) : decTurn s = .next s := by
  rw [decTurn, h]
  rfl

theorem decNeed_hdr {d : Dec} (h : d.phase = .hdr) : decNeed d = 14 := by
  rw [decNeed, h]
  rfl

theorem decNeed_full {d : Dec} (h : d.phase = .body) (hk : d.k.toNat = d.n) : decNeed d = 8 := by
  rw [decNeed, h]
  exact if_pos hk

theorem decNeed_nil {d : Dec} (h : d.phase = .body) (hk : d.k.toNat ≠ d.n) (hf : d.fifo = []) : decNeed d = 1 := by
  rw [decNeed, h, hf]
  exact if_neg hk

theorem decNeed_cons {d : Dec} (h : d.phase = .body) (hk : d.k.toNat ≠ d.n) {t : Byte} {tl : List Byte}
    (hf : d.fifo = t :: tl) : decNeed d = if t = 0x00 then 8 else oplen t := by
  rw [decNeed, h, hf]
  exact if_neg hk

theorem decNeed_le (d : Dec) : decNeed d ≤ 14 := by
  cases hph : d.phase with
  | hdr => exact (decNeed_hdr hph).le
  | body =>
    by_cases hk : d.k.toNat = d.n
    · rw [decNeed_full hph hk]; decide
    · cases hf : d.fifo with
      | nil => rw [decNeed_nil hph hk hf]; decide
      | cons t tl =>
        have := oplen_le t
        rw [decNeed_cons hph hk hf]
        split <;> omega

/-- Settles O25: an engine below its need with IN_LAST clear is not enabled, and a full FIFO holds the 14 bytes that are
the largest need. -/
theorem decHoldRule : Obligations.DecHoldRule := by
  refine ⟨fun s hlt hlast => ?hold, decNeed_le, fun s hp hb hfull => ?full, fun s hb hlast => ?last⟩
  case hold =>
    refine decTurn_of_disabled (Bool.eq_false_iff.2 fun he => ?_)
    obtain ⟨-, hneed | hl⟩ := decEnabled_iff.1 he
    · exact absurd hlt (Nat.not_lt.2 hneed)
    · rw [hlast] at hl; cases hl
  case full =>
    obtain ⟨-, -, -, hin, -⟩ := hp
    have hocc : s.dec.avail - s.dec.pos.toNat = s.params.inDepth := hfull
    exact decEnabled_iff.2 ⟨hb, .inl (by rw [hocc]; exact (decNeed_le _).trans hin)⟩
  case last => exact decEnabled_iff.2 ⟨hb, .inr hlast⟩

/-! ### Bytes pushed after those a step needs -/

/-- DEC with more bytes pushed and IN_LAST set or not. -/
def Dec.push (d : Dec) (more : List Byte) (l : Bool) : Dec := { d with input := d.input ++ more, inLast := l }

theorem Dec.push_fifo {d : Dec} (h : d.pos.toNat ≤ d.avail) (more : List Byte) (l : Bool) :
    (d.push more l).fifo = d.fifo ++ more := List.drop_append_of_le_length h

/-- The need of the step depends only on bytes that are present once it is met (20_memory.md R66). -/
theorem Dec.push_need {d : Dec} (h : d.pos.toNat ≤ d.avail) (hneed : decNeed d ≤ d.avail - d.pos.toNat)
    (more : List Byte) (l : Bool) : decNeed (d.push more l) = decNeed d := by
  cases hph : d.phase with
  | hdr => rw [decNeed_hdr hph, decNeed_hdr (d := d.push more l) hph]
  | body =>
    by_cases hk : d.k.toNat = d.n
    · rw [decNeed_full hph hk, decNeed_full (d := d.push more l) hph hk]
    · have hfifo := Dec.push_fifo h more l
      cases hf : d.fifo with
      | nil =>
        rw [decNeed_nil hph hk hf, ← fifo_length, hf] at hneed
        cases hneed
      | cons t tl =>
        rw [hf] at hfifo
        rw [decNeed_cons hph hk hf, decNeed_cons (d := d.push more l) hph hk hfifo]

theorem isMarker_append {bs : List Byte} (h : 8 ≤ bs.length) (more : List Byte) :
    isMarker (bs ++ more) = isMarker bs := by
  rw [isMarker, isMarker, List.take_append_of_le_length h]

theorem isMarker_of_tag {t : Byte} (h : t ≠ 0) (tl : List Byte) : isMarker (t :: tl) = false :=
  Bool.eq_false_iff.2 fun hm => by
    obtain ⟨rest, hr⟩ := (isMarker_iff _).1 hm
    exact h (List.cons.inj hr).1

/-- An opcode's operands are within its own length (30_encoding.md R94, R95). -/
theorem assemble_append {t : Byte} {tl : List Byte} (h : oplen t ≤ tl.length + 1) (more : List Byte) :
    assemble t (tl ++ more) = assemble t tl := by
  have hget {j : Nat} (hj : j + 1 < oplen t) : (tl ++ more).getD j 0 = tl.getD j 0 :=
    List.getD_append _ _ _ _ (by omega)
  simp only [assemble]
  split_ifs with hff hfe hindex hdiff hluma
  · have hlen : oplen t = 5 := if_pos hff
    rw [hget (j := 0) (by omega), hget (j := 1) (by omega), hget (j := 2) (by omega), hget (j := 3) (by omega)]
  · have hlen : oplen t = 4 := (if_neg hff).trans (if_pos hfe)
    rw [hget (j := 0) (by omega), hget (j := 1) (by omega), hget (j := 2) (by omega)]
  · rfl
  · rfl
  · have hlen : oplen t = 2 := (if_neg hff).trans ((if_neg hfe).trans (if_pos hluma))
    rw [hget (j := 0) (by omega)]
  · rfl

theorem decodeOp_of_length {t : Byte} {tl : List Byte} (h : oplen t ≤ tl.length + 1) :
    decodeOp (t :: tl) = .ok (assemble t tl, tl.drop (oplen t - 1)) := if_neg (Nat.not_lt.2 h)

/-! The body step's tests (41_decoder.md R153), each by what decides it. -/

theorem bodyAct_marker {d : Dec} (hm : isMarker d.fifo = true) : bodyAct d = .run .endMark := if_pos hm

theorem bodyAct_full {d : Dec} (hm : isMarker d.fifo = false) (hk : d.k.toNat = d.n) (hlen : 8 ≤ d.fifo.length) :
    bodyAct d = .fail .pixelCountMismatch := by
  rw [bodyAct, hm, if_neg Bool.false_ne_true, if_pos hk, if_neg (Nat.not_lt.2 hlen)]

theorem bodyAct_opcode {d : Dec} {t : Byte} {tl : List Byte} (hm : isMarker d.fifo = false) (hk : d.k.toNat ≠ d.n)
    (hf : d.fifo = t :: tl) (hlen : oplen t ≤ tl.length + 1) : bodyAct d = .run (assemble t tl) := by
  rw [bodyAct, hm, if_neg Bool.false_ne_true, if_neg hk, hf, decodeOp_of_length hlen]

/-- Once the need is met, the bytes present already tell whether the marker comes next. -/
theorem Dec.push_marker {d : Dec} (hph : d.phase = .body) (h : d.pos.toNat ≤ d.avail)
    (hneed : decNeed d ≤ d.fifo.length) (more : List Byte) (l : Bool) :
    isMarker (d.push more l).fifo = isMarker d.fifo := by
  rw [Dec.push_fifo h]
  by_cases hk : d.k.toNat = d.n
  · exact isMarker_append ((decNeed_full hph hk).symm.trans_le hneed) more
  · cases hf : d.fifo with
    | nil => rw [decNeed_nil hph hk hf, hf] at hneed; cases hneed
    | cons t tl =>
      rw [decNeed_cons hph hk hf, hf] at hneed
      by_cases ht : t = 0x00
      · rw [if_pos ht] at hneed
        exact isMarker_append hneed more
      · rw [List.cons_append, isMarker_of_tag ht, isMarker_of_tag ht]

theorem Dec.push_bodyAct {d : Dec} (hph : d.phase = .body) (h : d.pos.toNat ≤ d.avail)
    (hneed : decNeed d ≤ d.fifo.length) (more : List Byte) (l : Bool) : bodyAct (d.push more l) = bodyAct d := by
  have hfifo := Dec.push_fifo h more l
  have hmark := Dec.push_marker hph h hneed more l
  cases hm : isMarker d.fifo with
  | true => rw [bodyAct_marker hm, bodyAct_marker (hmark.trans hm)]
  | false =>
    by_cases hk : d.k.toNat = d.n
    · have hlen : 8 ≤ d.fifo.length := (decNeed_full hph hk).symm.trans_le hneed
      rw [bodyAct_full hm hk hlen, bodyAct_full (hmark.trans hm) hk]
      rw [hfifo, List.length_append]
      exact Nat.le_add_right_of_le hlen
    · cases hf : d.fifo with
      | nil => rw [decNeed_nil hph hk hf, hf] at hneed; cases hneed
      | cons t tl =>
        have hlen : oplen t ≤ tl.length + 1 := by
          rw [decNeed_cons hph hk hf, hf, List.length_cons] at hneed
          have := oplen_le t
          split at hneed <;> omega
        rw [hf, List.cons_append] at hfifo
        rw [bodyAct_opcode hm hk hf hlen, bodyAct_opcode (hmark.trans hm) hk hfifo, assemble_append hlen]
        rw [List.length_append]
        omega

/-- A header that is present whole is read from its 14 bytes (30_encoding.md R92). -/
theorem decodeHeader_append {bs : List Byte} (h : 14 ≤ bs.length) (more : List Byte) :
    decodeHeader (bs ++ more) = (decodeHeader bs).map fun x => (x.1, x.2 ++ more) := by
  obtain ⟨w0, w1, w2, w3, h0, h1, h2, h3, ch, cs, rest, hd⟩ :
      ∃ w0 w1 w2 w3 h0 h1 h2 h3 ch cs rest,
        bs.drop 4 = w0 :: w1 :: w2 :: w3 :: h0 :: h1 :: h2 :: h3 :: ch :: cs :: rest :=
    ⟨bs[4], bs[5], bs[6], bs[7], bs[8], bs[9], bs[10], bs[11], bs[12], bs[13], bs.drop 14, by
      simp only [List.getElem_cons_drop]⟩
  have htake : (bs ++ more).take 4 = bs.take 4 := List.take_append_of_le_length (by omega)
  have hdrop : (bs ++ more).drop 4 = bs.drop 4 ++ more := List.drop_append_of_le_length (by omega)
  rw [decodeHeader, decodeHeader, htake, hdrop, hd]
  split <;> rfl

theorem Dec.push_headerAct {d : Dec} (h : 14 ≤ d.input.length) (more : List Byte) (l : Bool) :
    headerAct (d.push more l) = headerAct d := by
  rw [headerAct, headerAct, Dec.push, decodeHeader_append h]
  cases decodeHeader d.input with
  | ok x => rfl
  | error e => rfl

/-- Settles O26: the need, and with it the step, is that of the bytes already present. -/
theorem decOutcomeFinal : Obligations.DecOutcomeFinal := by
  intro d more l hb hpos hhdr hneed
  change decEnabled (d.push more l) = true ∧ decAct (d.push more l) = decAct d
  constructor
  · refine decEnabled_iff.2 ⟨hb, .inl ?_⟩
    rw [Dec.push_need hpos hneed, ← fifo_length, Dec.push_fifo hpos, List.length_append, fifo_length]
    exact Nat.le_add_right_of_le hneed
  · have hphase : (d.push more l).phase = d.phase := rfl
    rw [decAct, decAct, hphase]
    cases hph : d.phase with
    | hdr =>
      rw [decNeed_hdr hph, hhdr hph] at hneed
      exact Dec.push_headerAct hneed more l
    | body => exact Dec.push_bodyAct hph hpos (by rw [fifo_length]; exact hneed) more l

/-! ### What DEC computes from the stream alone -/

/-- Bytes written from `a` on, over memories that agree below `a`, leave memories that agree below their end. -/
theorem Memory.writeBytes_agree {m m' : Memory} {a : Nat} (h : ∀ x, x < a → Memory.lookup m' x = Memory.lookup m x)
    (bs : List Byte) (x : Nat) (hx : x < a + bs.length) :
    Memory.lookup (Memory.writeBytes m' a bs) x = Memory.lookup (Memory.writeBytes m a bs) x := by
  rw [Memory.lookup_writeBytes, Memory.lookup_writeBytes]
  split
  case isTrue => rfl
  case isFalse hout => exact h x (by omega)

/-- An opcode that resolves one pixel resolves the same pixel in every state with the same DEC. -/
theorem exec_single_of_dec (d : Dec) {i : Instr} (ho : i.isOpcode = true) (hr : ∀ len, i ≠ .run len) :
    ∃ p, ∀ s : State, s.dec = d → exec i s = resolve p i.size s := by
  cases i with
  | rgba r g b a => exact ⟨pixelRgba r g b a, fun _ _ => rfl⟩
  | rgb r g b => exact ⟨pixelRgb d.cur r g b, by rintro s rfl; rfl⟩
  | index j => exact ⟨Cache.read d.cache j, by rintro s rfl; rfl⟩
  | diff dr dg db => exact ⟨pixelDiff d.cur dr dg db, by rintro s rfl; rfl⟩
  | luma dg x y => exact ⟨pixelLuma d.cur dg x y, by rintro s rfl; rfl⟩
  | run len => exact absurd rfl (hr len)
  | endMark => cases ho
  | header w h ch cs => cases ho

/-- A RUN not past N that completes has room for its pixels. -/
theorem execRun_room {len : Nat} {s t : State} (hle : s.dec.k.toNat + len ≤ s.dec.n) (h : execRun len s = .next t) :
    len = 0 ∨ (s.dec.k.toNat + len) * pixelSize s.dec.ch ≤ s.params.pixMemBytes := by
  rw [execRun, if_neg (Nat.not_lt.2 hle)] at h
  obtain ⟨u, hu, -⟩ := andThen_eq_next h
  exact putRun_room (hle.trans_lt s.dec.n_lt) hu

/-- A RUN not past N writes its copies where they have room. -/
theorem execRun_of_room {len : Nat} {s : State} (hle : s.dec.k.toNat + len ≤ s.dec.n)
    (hroom : len = 0 ∨ (s.dec.k.toNat + len) * pixelSize s.dec.ch ≤ s.params.pixMemBytes) :
    execRun len s = .next ((s.storeRun len).advance 1) := by
  rw [execRun, if_neg (Nat.not_lt.2 hle)]
  rcases hroom with rfl | hroom
  · simp [putRun, State.storeRun, Memory.writeBytes]
  · rw [putRun_of_room (hle.trans_lt s.dec.n_lt) hroom, andThen_next]

/-- Two states of one session: the same DEC, the same PIX_MEM_BYTES and the same decoded pixels. Before the header is
read no pixel is out, and after it a pixel takes DEC.CH bytes. -/
structure SameDecode (s u : State) : Prop where
  dec : u.dec = s.dec
  room : u.params.pixMemBytes = s.params.pixMemBytes
  atHdr : s.dec.phase = .hdr → s.dec.k = 0
  atBody : s.dec.phase = .body → s.dec.ch = 3 ∨ s.dec.ch = 4
  pixels : ∀ a, a < s.dec.k.toNat * s.dec.ch.toNat → Memory.lookup u.pixD a = Memory.lookup s.pixD a

/-- Both states answer a next state, and the two are again of one session. -/
def SameAnswer (r r' : Result) : Prop := ∀ t, r = .next t → ∃ v, r' = .next v ∧ SameDecode t v

/-- While no pixel is out the pixel memories need not agree anywhere. -/
theorem SameDecode.of_no_pixel {s u : State} (hd : u.dec = s.dec) (hm : u.params.pixMemBytes = s.params.pixMemBytes)
    (hk : s.dec.k = 0) (hb : s.dec.phase = .body → s.dec.ch = 3 ∨ s.dec.ch = 4) : SameDecode s u :=
  ⟨hd, hm, fun _ => hk, hb, fun a ha => absurd ha (by simp [hk])⟩

section
variable {s u : State} (h : SameDecode s u)
include h

/-- An update of the fields of DEC that the session's pixels do not depend on. -/
theorem SameDecode.update {t v : State} (hd : v.dec = t.dec) (hp : t.params = s.params) (hp' : v.params = u.params)
    (hm : t.pixD = s.pixD) (hm' : v.pixD = u.pixD) (hk : t.dec.k = s.dec.k) (hc : t.dec.ch = s.dec.ch)
    (hph : t.dec.phase = s.dec.phase) : SameDecode t v where
  dec := hd
  room := by rw [hp, hp']; exact h.room
  atHdr := by rw [hph, hk]; exact h.atHdr
  atBody := by rw [hph, hc]; exact h.atBody
  pixels := by rw [hm, hm', hk, hc]; exact h.pixels

theorem SameDecode.raiseDec (c : ErrCode) : SameDecode (s.raiseDec c) (u.raiseDec c) :=
  h.update (by simp only [State.raiseDec_dec, h.dec]) rfl rfl rfl rfl rfl rfl rfl

/-- The bytes of n pixels written at DEC.k, in the body. -/
theorem SameDecode.write {t v : State} {n : Nat} {bs : List Byte} (hb : s.dec.phase = .body) (hd : v.dec = t.dec)
    (hp : t.params = s.params) (hp' : v.params = u.params)
    (hm : t.pixD = Memory.writeBytes s.pixD s.dec.pixelAddr bs)
    (hm' : v.pixD = Memory.writeBytes u.pixD s.dec.pixelAddr bs)
    (hlen : bs.length = n * pixelSize s.dec.ch) (hk : t.dec.k = s.dec.k + BitVec.ofNat 64 n)
    (hc : t.dec.ch = s.dec.ch) (hph : t.dec.phase = s.dec.phase) : SameDecode t v where
  dec := hd
  room := by rw [hp, hp']; exact h.room
  atHdr := fun e => by rw [hph, hb] at e; cases e
  atBody := by rw [hph, hc]; exact h.atBody
  pixels := fun a ha => by
    have hsize := pixelSize_of_legal (h.atBody hb)
    have hcount : t.dec.k.toNat ≤ s.dec.k.toNat + n := by
      rw [hk, BitVec.toNat_add, BitVec.toNat_ofNat]
      exact (Nat.mod_le _ _).trans (Nat.add_le_add_left (Nat.mod_le _ _) _)
    rw [hm, hm']
    refine Memory.writeBytes_agree (fun x hx => h.pixels x (hsize ▸ hx)) bs a ?_
    calc a < t.dec.k.toNat * t.dec.ch.toNat := ha
      _ ≤ (s.dec.k.toNat + n) * s.dec.ch.toNat := by rw [hc]; exact Nat.mul_le_mul_right _ hcount
      _ = s.dec.pixelAddr + bs.length := by rw [hlen, Dec.pixelAddr, hsize, Nat.add_mul]

theorem SameDecode.resolve_answer (hb : s.dec.phase = .body) (p : Pixel) (n : Nat) :
    SameAnswer (resolve p n s) (resolve p n u) := by
  intro t ht
  obtain ⟨hroom, rfl⟩ := resolve_next ht
  refine ⟨u.resolved p n, resolve_of_room (by rw [h.dec, h.room]; exact hroom), ?_⟩
  refine h.write (n := 1) (bs := pixelBytes s.dec.ch p) hb ?dec rfl rfl rfl ?mem ?len rfl rfl rfl
  case dec => simp only [State.resolved, State.advance_dec, State.storePixel_dec, State.setCur_dec, h.dec]
  case mem => rw [← h.dec]; rfl
  case len => rw [pixelBytes_length, Nat.one_mul]

theorem SameDecode.execRun_answer (hb : s.dec.phase = .body) (len : Nat) :
    SameAnswer (execRun len s) (execRun len u) := by
  intro t ht
  rcases execRun_next ht with ⟨hpast, rfl⟩ | ⟨hle, rfl⟩
  · exact ⟨u.raiseDec .pixelCountMismatch, by rw [execRun, h.dec, if_pos hpast], h.raiseDec _⟩
  · have hroom := execRun_room hle ht
    refine ⟨(u.storeRun len).advance 1, execRun_of_room (by rw [h.dec]; exact hle)
      (by rw [h.dec, h.room]; exact hroom), ?_⟩
    refine h.write (n := len) hb ?dec rfl rfl rfl ?mem (runBytes_length len s.dec.ch s.dec.cur) rfl rfl rfl
    case dec => simp only [State.storeRun, State.advance_dec, h.dec]
    case mem => rw [← h.dec]; rfl

theorem SameDecode.execEndMark_answer : SameAnswer (execEndMark s) (execEndMark u) := by
  intro t ht
  rcases execEndMark_next ht with ⟨hk, rfl⟩ | ⟨hk, rfl⟩
  · exact ⟨u.finishDec, by rw [execEndMark, h.dec, if_pos hk],
      h.update (by simp only [State.finishDec_dec, h.dec]) rfl rfl rfl rfl rfl rfl rfl⟩
  · exact ⟨u.raiseDec .pixelCountMismatch, by rw [execEndMark, h.dec, if_neg hk], h.raiseDec _⟩

/-- HEADER is executed before any pixel is out, so the channel count it writes measures none. -/
theorem SameDecode.execHeader_answer (hb : s.dec.phase = .hdr) (w hh : Word) (ch cs : Byte) :
    SameAnswer (execHeader w hh ch cs s) (execHeader w hh ch cs u) := by
  intro t ht
  have hk : s.dec.k = 0 := h.atHdr hb
  rcases execHeader_next ht with ⟨c, he, rfl⟩ | ⟨he, rfl⟩
  · refine ⟨(u.setHeader w hh ch cs).raiseDec c, by rw [execHeader, h.room, he],
      .of_no_pixel ?_ h.room hk fun e => ?_⟩
    · simp only [State.raiseDec_dec, State.setHeader_dec, h.dec]
    · rw [State.raiseDec_dec, State.setHeader_dec, hb] at e; cases e
  · refine ⟨(u.setHeader w hh ch cs).beginBody, by rw [execHeader, h.room, he],
      .of_no_pixel ?_ h.room hk fun _ => ?_⟩
    · simp only [State.beginBody_dec, State.setHeader_dec, h.dec]
    · exact ((imageError_none_iff _ _ _ _).1 he).1

/-- An item that DEC's next step runs: HEADER in the header phase, END or an opcode in the body. -/
theorem SameDecode.exec_answer {i : Instr} (ha : decAct s.dec = .run i) : SameAnswer (exec i s) (exec i u) := by
  rw [decAct] at ha
  split at ha
  next hph =>
    obtain ⟨⟨w, hh, ch, cs, rfl⟩, -⟩ := headerAct_run ha
    exact h.execHeader_answer hph w hh ch cs
  next hph =>
    rcases bodyAct_run ha with ⟨rfl, -⟩ | ⟨-, hop, -⟩
    · exact h.execEndMark_answer
    · by_cases hr : ∃ len, i = .run len
      · obtain ⟨len, rfl⟩ := hr
        exact h.execRun_answer hph len
      · obtain ⟨p, hp⟩ := exec_single_of_dec s.dec hop (not_exists.1 hr)
        rw [hp s rfl, hp u h.dec]
        exact h.resolve_answer hph p i.size

theorem SameDecode.decTurn_answer : SameAnswer (decTurn s) (decTurn u) := by
  intro t ht
  rw [decTurn] at ht
  rw [decTurn, h.dec]
  split at ht
  next he =>
    rw [if_pos he]
    split at ht
    next c hc => cases ht; exact ⟨_, rfl, h.raiseDec c⟩
    next i hi => exact h.exec_answer hi t ht
  next he => cases ht; exact ⟨u, if_neg he, h⟩

end

theorem SameDecode.decTurns_answer (n : Nat) {s u : State} (h : SameDecode s u) :
    SameAnswer (decTurns n s) (decTurns n u) := by
  induction n generalizing s u with
  | zero => intro t ht; cases ht; exact ⟨u, rfl, h⟩
  | succ n ih =>
    intro t ht
    obtain ⟨s', hs, hrest⟩ := andThen_eq_next ht
    obtain ⟨u', hu, h'⟩ := h.decTurn_answer s' hs
    obtain ⟨v, hv, hsame⟩ := ih h' t hrest
    exact ⟨v, by rw [decTurns, hu]; exact hv, hsame⟩

/-- START makes every field of DEC anew, so the two sessions begin alike. -/
theorem decSession_same (bs : List Byte) {s u : State} (hm : u.params.pixMemBytes = s.params.pixMemBytes) :
    SameDecode (decSession bs s) (decSession bs u) := .of_no_pixel rfl hm rfl fun e => by cases e

/-- Settles O29: the two sessions begin alike, and each turn of DEC keeps them alike. -/
theorem decodeIsFunctionOfStream : Obligations.DecodeIsFunctionOfStream := by
  intro bs s u t _ hm ht
  obtain ⟨v, hv, hsame⟩ := (decSession_same bs hm).decTurns_answer (bs.length + 1) t ht
  exact ⟨v, hv, hsame.dec, hsame.pixels⟩

end Sys2Proof.Machine
end

section
/-!
PROOFS. The rules of encoding (spec/30_encoding.md): each opcode's bytes as the fields they hold (R85 to R92, R95, R96),
the tag's ranges and length (R93, R94), decoder and encoder as inverses of one another (R97, R100), and RUNS with the
encoder's run block that it stands for (R103; spec/42_encoder.md R202, R203, R216). DIFF's meaning (spec/41_decoder.md
R157) stands here with its fields.
-/

open Sys2Proof Sys2Proof.Machine Sys2Proof.Claims

namespace Sys2Proof.Machine

/-! ### Bytes by their fields -/

/-- A byte with a 2-bit tag (30_encoding.md R84): t[7:6] and t[5:0]. -/
def tagByte (top : BitVec 2) (f : BitVec 6) : Byte := top ++ f

/-- The low six bits of a DIFF tag: t[5:4], t[3:2] and t[1:0] (R88). -/
def diffFields (r g b : BitVec 2) : BitVec 6 := r ++ g ++ b

/-- The second byte of LUMA: x[7:4] and x[3:0] (R89). -/
def nibbles (u v : BitVec 4) : Byte := u ++ v

section

variable (t : Byte) (top r g b : BitVec 2) (f : BitVec 6) (u v : BitVec 4)

@[simp] theorem tagByte_top : (tagByte top f).extractLsb' 6 2 = top := BitVec.extractLsb'_append_eq_left

@[simp] theorem tagByte_field : (tagByte top f).extractLsb' 0 6 = f := BitVec.extractLsb'_append_eq_right

@[simp] theorem tagByte_red : (tagByte top (diffFields r g b)).extractLsb' 4 2 = r := by
  rw [tagByte, BitVec.extractLsb'_append_eq_of_add_le (by decide), diffFields,
    BitVec.extractLsb'_append_eq_of_le (by decide)]
  exact BitVec.extractLsb'_append_eq_left

@[simp] theorem tagByte_green : (tagByte top (diffFields r g b)).extractLsb' 2 2 = g := by
  rw [tagByte, BitVec.extractLsb'_append_eq_of_add_le (by decide), diffFields,
    BitVec.extractLsb'_append_eq_of_le (by decide)]
  exact BitVec.extractLsb'_append_eq_right

@[simp] theorem tagByte_blue : (tagByte top (diffFields r g b)).extractLsb' 0 2 = b := by
  rw [tagByte, BitVec.extractLsb'_append_eq_of_add_le (by decide), diffFields]
  exact BitVec.extractLsb'_append_eq_right

@[simp] theorem nibbles_high : (nibbles u v).extractLsb' 4 4 = u := BitVec.extractLsb'_append_eq_left

@[simp] theorem nibbles_low : (nibbles u v).extractLsb' 0 4 = v := BitVec.extractLsb'_append_eq_right

/-- A tag byte is its top two bits and its field. -/
theorem tagByte_eta : tagByte (t.extractLsb' 6 2) (t.extractLsb' 0 6) = t :=
  (BitVec.extractLsb'_append_extractLsb'_eq_extractLsb' rfl).trans BitVec.extractLsb'_eq_self

theorem diffFields_eta :
    diffFields (t.extractLsb' 4 2) (t.extractLsb' 2 2) (t.extractLsb' 0 2) = t.extractLsb' 0 6 := by
  rw [diffFields, BitVec.extractLsb'_append_extractLsb'_eq_extractLsb' (by rfl)]
  exact BitVec.extractLsb'_append_extractLsb'_eq_extractLsb' rfl

theorem nibbles_eta : nibbles (t.extractLsb' 4 4) (t.extractLsb' 0 4) = t :=
  (BitVec.extractLsb'_append_extractLsb'_eq_extractLsb' rfl).trans BitVec.extractLsb'_eq_self

theorem tagByte_toNat : (tagByte top f).toNat = top.toNat * 64 + f.toNat := toNat_append_add top f

theorem diffFields_toNat : (diffFields r g b).toNat = r.toNat * 16 + g.toNat * 4 + b.toNat := by
  rw [diffFields, toNat_append_add, toNat_append_add]
  omega

theorem nibbles_toNat : (nibbles u v).toNat = u.toNat * 16 + v.toNat := toNat_append_add u v

end

/-- The top two bits of a byte are its quotient by 64, so they split the bytes into ranges (R93). -/
theorem top_eq_iff {t : Byte} {n : BitVec 2} : t.extractLsb' 6 2 = n ↔ t.toNat / 64 = n.toNat := by
  rw [← BitVec.toNat_inj]
  conv_rhs => rw [← tagByte_eta t, tagByte_toNat]
  have := (t.extractLsb' 0 6).isLt
  omega

/-! ### Signed operands and their fields -/

section

variable {n : Nat} (bias : Int) (f : BitVec n)

theorem biased_add : biased bias f + bias = f.toNat := Int.sub_add_cancel _ _

/-- The encoder's bias undoes the decoder's (R95, R96). -/
@[simp] theorem ofInt_biased_add : BitVec.ofInt 8 (biased bias f + bias) = f.setWidth 8 := by
  rw [biased_add, BitVec.ofInt_natCast, BitVec.ofNat_toNat]

/-- Subtracting a bias in the integers and then reducing is subtracting it modulo 256 (R95). -/
theorem ofInt_biased : BitVec.ofInt 8 (biased bias f) = f.setWidth 8 - BitVec.ofInt 8 bias := by
  rw [← ofInt_biased_add bias f, BitVec.ofInt_add]
  exact (add_sub_cancel_right _ _).symm

end

/-- An operand in the range of an n-bit field is that field's reading (R88, R89). -/
theorem exists_field_of_inRange (n : Nat) {bias : Int} {lo hi d : Int} (h : inRange lo hi d = true) (hlo : lo = -bias)
    (hhi : hi = 2 ^ n - 1 - bias) : ∃ f : BitVec n, d = biased bias f := by
  obtain ⟨h1, h2⟩ := (inRange_iff lo hi d).1 h
  have hlt : (d + bias).toNat < 2 ^ n := by zify; omega
  refine ⟨BitVec.ofNat n (d + bias).toNat, ?_⟩
  rw [biased, BitVec.toNat_ofNat, Nat.mod_eq_of_lt hlt]
  omega

theorem diff_fields_exist {dr dg db : Int} (h : (Instr.diff dr dg db).wf = true) :
    ∃ r g b : BitVec 2, dr = biased 2 r ∧ dg = biased 2 g ∧ db = biased 2 b := by
  simp only [Instr.wf, Bool.and_eq_true] at h
  obtain ⟨⟨hr, hg⟩, hb⟩ := h
  obtain ⟨r, hr⟩ := exists_field_of_inRange 2 hr rfl rfl
  obtain ⟨g, hg⟩ := exists_field_of_inRange 2 hg rfl rfl
  obtain ⟨b, hb⟩ := exists_field_of_inRange 2 hb rfl rfl
  exact ⟨r, g, b, hr, hg, hb⟩

theorem luma_fields_exist {dg drDg dbDg : Int} (h : (Instr.luma dg drDg dbDg).wf = true) :
    ∃ (f : BitVec 6) (u v : BitVec 4), dg = biased 32 f ∧ drDg = biased 8 u ∧ dbDg = biased 8 v := by
  simp only [Instr.wf, Bool.and_eq_true] at h
  obtain ⟨⟨hg, hr⟩, hb⟩ := h
  obtain ⟨f, hg⟩ := exists_field_of_inRange 6 hg rfl rfl
  obtain ⟨u, hr⟩ := exists_field_of_inRange 4 hr rfl rfl
  obtain ⟨v, hb⟩ := exists_field_of_inRange 4 hb rfl rfl
  exact ⟨f, u, v, hg, hr, hb⟩

/-- A run's length less 1 fits the field of six bits (R90). -/
theorem run_field_exists {len : Nat} (h : 1 ≤ len ∧ len ≤ 62) : ∃ f : BitVec 6, len = f.toNat + 1 :=
  ⟨BitVec.ofNat 6 (len - 1), by rw [BitVec.toNat_ofNat]; omega⟩

/-! ### What a tag decodes to, and what its item encodes to -/

theorem assemble_rgba (rest : List Byte) :
    assemble 0xFF rest = .rgba (rest.getD 0 0) (rest.getD 1 0) (rest.getD 2 0) (rest.getD 3 0) := rfl

theorem assemble_rgb (rest : List Byte) :
    assemble 0xFE rest = .rgb (rest.getD 0 0) (rest.getD 1 0) (rest.getD 2 0) := rfl

section

variable {t : Byte} (rest : List Byte)

/-- The 8-bit tags begin with 0b11, so no other 2-bit tag is one of them. -/
theorem ne_of_top {n : BitVec 2} (h : t.extractLsb' 6 2 = n) (hn : n ≠ 3) : t ≠ 0xFF ∧ t ≠ 0xFE :=
  ⟨by rintro rfl; exact hn h.symm, by rintro rfl; exact hn h.symm⟩

theorem assemble_index (h : t.extractLsb' 6 2 = 0) : assemble t rest = .index (t.extractLsb' 0 6) := by
  obtain ⟨hff, hfe⟩ := ne_of_top h (by decide)
  rw [assemble, if_neg hff, if_neg hfe, h]
  rfl

theorem assemble_diff (h : t.extractLsb' 6 2 = 1) : assemble t rest =
    .diff (biased 2 (t.extractLsb' 4 2)) (biased 2 (t.extractLsb' 2 2)) (biased 2 (t.extractLsb' 0 2)) := by
  obtain ⟨hff, hfe⟩ := ne_of_top h (by decide)
  rw [assemble, if_neg hff, if_neg hfe, h]
  rfl

theorem assemble_luma (h : t.extractLsb' 6 2 = 2) : assemble t rest =
    .luma (biased 32 (t.extractLsb' 0 6)) (biased 8 ((rest.getD 0 0).extractLsb' 4 4))
      (biased 8 ((rest.getD 0 0).extractLsb' 0 4)) := by
  obtain ⟨hff, hfe⟩ := ne_of_top h (by decide)
  rw [assemble, if_neg hff, if_neg hfe, h]
  rfl

theorem assemble_run (h : t.extractLsb' 6 2 = 3) (hff : t ≠ 0xFF) (hfe : t ≠ 0xFE) :
    assemble t rest = .run ((t.extractLsb' 0 6).toNat + 1) := by
  rw [assemble, if_neg hff, if_neg hfe, h]
  rfl

end

theorem encode_index (i : BitVec 6) : encode (.index i) = [tagByte 0 i] := by
  revert i
  decide

theorem encode_diff (r g b : BitVec 2) :
    encode (.diff (biased 2 r) (biased 2 g) (biased 2 b)) = [tagByte 1 (diffFields r g b)] := by
  simp only [encode, ofInt_biased_add, List.cons.injEq, and_true]
  revert r g b
  decide

theorem encode_luma (f : BitVec 6) (u v : BitVec 4) :
    encode (.luma (biased 32 f) (biased 8 u) (biased 8 v)) = [tagByte 2 f, nibbles u v] := by
  have htag : ∀ f : BitVec 6, 0x80#8 ||| f.setWidth 8 = tagByte 2 f := by decide
  have hnib : ∀ u v : BitVec 4, u.setWidth 8 <<< 4 ||| v.setWidth 8 = nibbles u v := by decide
  simp only [encode, ofInt_biased_add, htag, hnib]

theorem encode_run (f : BitVec 6) : encode (.run (f.toNat + 1)) = [tagByte 3 f] := by
  rw [encode, Nat.add_sub_cancel, BitVec.ofNat_toNat]
  revert f
  decide

/-! ### Decoding what was encoded -/

theorem decodeBody_of_no_marker {bs : List Byte} (h : isMarker bs = false) : decodeBody bs = decodeOp bs := by
  rw [decodeBody, h, if_neg Bool.false_ne_true]

/-- An opcode's own bytes decode to it whatever follows them, the end marker apart (R94, R100). -/
theorem decodeBody_of_assemble {t : Byte} {tl rest : List Byte} {i : Instr} (ha : assemble t tl = i)
    (hlen : i.size = tl.length + 1) (hm : isMarker (t :: (tl ++ rest)) = false) :
    decodeBody (t :: (tl ++ rest)) = .ok (i, rest) := by
  have hop : oplen t = tl.length + 1 := by rw [← hlen, ← ha, assemble_size]
  rw [decodeBody_of_no_marker hm, decodeOp_of_length (by rw [hop, List.length_append]; omega),
    assemble_append hop.le, ha, hop, Nat.add_sub_cancel, List.drop_left]

/-- A run of at most 62 pixels has the tag of neither RGBA nor RGB (R97). -/
theorem run_tag_ne {f : BitVec 6} (h : f.toNat + 1 ≤ 62) : tagByte 3 f ≠ 0xFF ∧ tagByte 3 f ≠ 0xFE := by
  have hf : (tagByte 3 f).toNat ≠ 0xFF ∧ (tagByte 3 f).toNat ≠ 0xFE := by
    rw [tagByte_toNat, show (3 : BitVec 2).toNat = 3 from rfl]
    omega
  exact ⟨fun e => hf.1 (congrArg _ e), fun e => hf.2 (congrArg _ e)⟩

/-- The range of each operand is that of its field, so a well-formed opcode is what its own bytes assemble to. -/
theorem assemble_encode {i : Instr} (hwf : i.wf = true) (hop : i.isOpcode = true) :
    ∃ t tl, encode i = t :: tl ∧ assemble t tl = i := by
  cases i with
  | rgba r g b a => exact ⟨_, _, rfl, assemble_rgba [r, g, b, a]⟩
  | rgb r g b => exact ⟨_, _, rfl, assemble_rgb [r, g, b]⟩
  | index i => exact ⟨_, _, encode_index i, by rw [assemble_index _ (tagByte_top _ _), tagByte_field]⟩
  | diff dr dg db =>
    obtain ⟨r, g, b, rfl, rfl, rfl⟩ := diff_fields_exist hwf
    exact ⟨_, _, encode_diff r g b,
      by rw [assemble_diff _ (tagByte_top _ _), tagByte_red, tagByte_green, tagByte_blue]⟩
  | luma dg drDg dbDg =>
    obtain ⟨f, u, v, rfl, rfl, rfl⟩ := luma_fields_exist hwf
    refine ⟨_, _, encode_luma f u v, ?_⟩
    rw [assemble_luma _ (tagByte_top _ _), tagByte_field, List.getD_cons_zero, nibbles_high, nibbles_low]
  | run len =>
    simp only [Instr.wf, decide_eq_true_eq] at hwf
    obtain ⟨f, rfl⟩ := run_field_exists hwf
    obtain ⟨hff, hfe⟩ := run_tag_ne hwf.2
    exact ⟨_, _, encode_run f, by rw [assemble_run _ (tagByte_top _ _) hff hfe, tagByte_field]⟩
  | endMark => cases hop
  | header w h ch cs => cases hop

theorem word32BE_extract (v : Word) :
    word32BE (v.extractLsb' 24 8) (v.extractLsb' 16 8) (v.extractLsb' 8 8) (v.extractLsb' 0 8) = v := by
  rw [word32BE, BitVec.extractLsb'_append_extractLsb'_eq_extractLsb' (by rfl),
    BitVec.extractLsb'_append_extractLsb'_eq_extractLsb' (by rfl),
    BitVec.extractLsb'_append_extractLsb'_eq_extractLsb' (by rfl)]
  exact BitVec.extractLsb'_eq_self

theorem bytesBE_word32BE (b0 b1 b2 b3 : Byte) : bytesBE (word32BE b0 b1 b2 b3) = [b0, b1, b2, b3] := by
  simp (disch := decide) only [bytesBE, word32BE, BitVec.extractLsb'_append_eq_of_le, Nat.reduceSub,
    BitVec.extractLsb'_append_eq_right, BitVec.extractLsb'_eq_self]

/-- The header's two big-endian words are read back (R92). -/
theorem decodeHeader_hdr (w h : Word) (ch cs : Byte) (rest : List Byte) :
    decodeHeader (hdr w h ch cs ++ rest) = .ok (.header w h ch cs, rest) := by
  conv_rhs => rw [← word32BE_extract w, ← word32BE_extract h]
  rfl

theorem decodeBody_marker (rest : List Byte) : decodeBody (marker ++ rest) = .ok (.endMark, rest) := rfl

/-- Settles O2: a header is read back word by word, END by the marker's test, an opcode by its fields. -/
theorem decodeOfEncode : Obligations.DecodeOfEncode := by
  intro i rest hwf
  refine ⟨fun w h ch cs hi => ?header, fun hne hmark => ?body⟩
  case header => subst hi; exact decodeHeader_hdr w h ch cs rest
  case body =>
    by_cases hend : i = .endMark
    · subst hend
      exact decodeBody_marker rest
    · have hop : i.isOpcode = true := by
        cases i with
        | endMark => exact absurd rfl hend
        | header w h ch cs => exact absurd rfl (hne w h ch cs)
        | _ => rfl
      obtain ⟨t, tl, henc, ha⟩ := assemble_encode hwf hop
      have hlen : i.size = tl.length + 1 := by rw [← encode_length, henc, List.length_cons]
      have hm := hmark.resolve_left hend
      rw [henc] at hm ⊢
      exact decodeBody_of_assemble ha hlen hm

/-! ### Encoding what was decoded -/

/-- The priority of R93: the 8-bit tags, then the tags of two bits. -/
theorem tag_cases (t : Byte) : t = 0xFF ∨ t = 0xFE ∨ t.extractLsb' 6 2 = 0 ∨ t.extractLsb' 6 2 = 1 ∨
    t.extractLsb' 6 2 = 2 ∨ t.extractLsb' 6 2 = 3 ∧ t ≠ 0xFF ∧ t ≠ 0xFE := by
  have htop : ∀ n : BitVec 2, n = 0 ∨ n = 1 ∨ n = 2 ∨ n = 3 := by decide
  have := htop (t.extractLsb' 6 2)
  tauto

section

variable {t : Byte}

theorem oplen_index (h : t.extractLsb' 6 2 = 0) : oplen t = 1 := by rw [← assemble_size t [], assemble_index _ h]; rfl

theorem oplen_diff (h : t.extractLsb' 6 2 = 1) : oplen t = 1 := by rw [← assemble_size t [], assemble_diff _ h]; rfl

theorem oplen_luma (h : t.extractLsb' 6 2 = 2) : oplen t = 2 := by rw [← assemble_size t [], assemble_luma _ h]; rfl

theorem oplen_run (h : t.extractLsb' 6 2 = 3) (hff : t ≠ 0xFF) (hfe : t ≠ 0xFE) : oplen t = 1 := by
  rw [← assemble_size t [], assemble_run _ h hff hfe]; rfl

end

/-- What an opcode's bytes assemble to encodes to them again (R97: each of their values is legal). -/
theorem encode_assemble {t : Byte} {tl : List Byte} (h : oplen t ≤ tl.length + 1) :
    encode (assemble t tl) = (t :: tl).take (oplen t) := by
  rcases tag_cases t with rfl | rfl | htop | htop | htop | ⟨htop, hff, hfe⟩
  · match tl, h with
    | r :: g :: b :: a :: _, _ => rfl
  · match tl, h with
    | r :: g :: b :: _, _ => rfl
  · rw [assemble_index tl htop, encode_index, ← htop, tagByte_eta, oplen_index htop]
    rfl
  · rw [assemble_diff tl htop, encode_diff, diffFields_eta, ← htop, tagByte_eta, oplen_diff htop]
    rfl
  · rw [oplen_luma htop] at h ⊢
    match tl, h with
    | x :: _, _ =>
      rw [assemble_luma _ htop, encode_luma, List.getD_cons_zero, nibbles_eta, ← htop, tagByte_eta]
      rfl
  · rw [assemble_run tl htop hff hfe, encode_run, ← htop, tagByte_eta, oplen_run htop hff hfe]
    rfl

theorem decodeOp_encode {bs : List Byte} {i : Instr} {rest : List Byte} (h : decodeOp bs = .ok (i, rest)) :
    i.wf = true ∧ encode i ++ rest = bs := by
  obtain ⟨t, tl, rfl, hlen, rfl, rfl⟩ := decodeOp_ok h
  exact ⟨assemble_wf t tl, by rw [encode_assemble hlen, List.take_append_drop]⟩

/-- What the body's decode answers is the marker, at the marker, or an opcode. -/
theorem decodeBody_ok {bs : List Byte} {i : Instr} {rest : List Byte} (h : decodeBody bs = .ok (i, rest)) :
    (i = .endMark ∧ bs = marker ++ rest) ∨ decodeOp bs = .ok (i, rest) := by
  rw [decodeBody] at h
  split at h
  case isTrue hm =>
    obtain ⟨tl, rfl⟩ := (isMarker_iff bs).1 hm
    cases h
    exact .inl ⟨rfl, rfl⟩
  case isFalse => exact .inr h

/-- What the header's decode answers is the header whose fourteen bytes were read. -/
theorem decodeHeader_encode {bs : List Byte} {i : Instr} {rest : List Byte} (h : decodeHeader bs = .ok (i, rest)) :
    i.wf = true ∧ encode i ++ rest = bs := by
  rw [decodeHeader] at h
  split at h
  case isTrue hmagic =>
    split at h
    next w0 w1 w2 w3 h0 h1 h2 h3 ch cs tl hdrop =>
      cases h
      refine ⟨rfl, ?_⟩
      rw [encode, hdr, bytesBE_word32BE, bytesBE_word32BE, ← List.take_append_drop 4 bs, hmagic, hdrop]
      rfl
    next => cases h
  case isFalse => cases h

/-- Settles O3: the marker is its own encoding, an opcode's bytes and a header's are encoded from the fields read. -/
theorem encodeOfDecode : Obligations.EncodeOfDecode := by
  refine fun bs i rest => ⟨fun h => ?_, decodeHeader_encode⟩
  obtain ⟨rfl, rfl⟩ | hop := decodeBody_ok h
  · exact ⟨rfl, rfl⟩
  · exact decodeOp_encode hop

/-! ### Tag ranges and lengths -/

/-- Settles O4: a tag's range is its top two bits, or an 8-bit tag, and each decides what the bytes assemble to. -/
theorem tagRanges : Obligations.TagRanges := by
  refine fun t rest => ⟨fun hm => ?marker, fun hm hlen => ?opcode⟩
  case marker => rw [decodeBody, if_pos hm]
  case opcode =>
    have hdec : decodeBody (t :: rest) = .ok (assemble t rest, (t :: rest).drop (oplen t)) := by
      rw [decodeBody_of_no_marker hm, decodeOp_of_length hlen, List.drop_cons (oplen_pos t)]
    refine ⟨assemble t rest, hdec, fun hhi => ⟨_, assemble_index rest (top_eq_iff.2 ?index)⟩,
      fun hlo hhi => ⟨_, _, _, assemble_diff rest (top_eq_iff.2 ?diff)⟩,
      fun hlo hhi => ⟨_, _, _, assemble_luma rest (top_eq_iff.2 ?luma)⟩,
      fun hlo hhi => ⟨_, assemble_run rest (top_eq_iff.2 ?run) ?notRgba ?notRgb⟩, fun h => ?rgb, fun h => ?rgba⟩
    case index => exact (by omega : t.toNat / 64 = 0)
    case diff => exact (by omega : t.toNat / 64 = 1)
    case luma => exact (by omega : t.toNat / 64 = 2)
    case run => exact (by omega : t.toNat / 64 = 3)
    case notRgba => rintro rfl; exact absurd hhi (by decide)
    case notRgb => rintro rfl; exact absurd hhi (by decide)
    case rgb => obtain rfl : t = 0xFE := BitVec.eq_of_toNat_eq h; exact ⟨_, _, _, assemble_rgb rest⟩
    case rgba => obtain rfl : t = 0xFF := BitVec.eq_of_toNat_eq h; exact ⟨_, _, _, _, assemble_rgba rest⟩

/-- Settles O5: the length is read off the tag, and the decode drops that many bytes and assembles an item as long. -/
theorem opcodeLengthFromTag : Obligations.OpcodeLengthFromTag := by
  refine ⟨fun t => ?tag, fun t tl i rest h => ?decoded, fun t tl h => if_pos h⟩
  case tag =>
    simp only [oplen, top_eq_iff]
    rfl
  case decoded =>
    obtain ⟨_, _, hcons, -, rfl, rfl⟩ := decodeOp_ok h
    obtain ⟨rfl, rfl⟩ := List.cons.inj hcons
    exact ⟨by rw [encode_length, assemble_size], assemble_size t tl, rfl⟩

/-! ### Operands -/

section

variable {t : Byte} (rest : List Byte)

theorem isMarker_of_top {n : BitVec 2} (h : t.extractLsb' 6 2 = n) (hn : n ≠ 0) : isMarker (t :: rest) = false :=
  isMarker_of_tag (by rintro rfl; exact hn h.symm) rest

theorem decodeBody_index (h : t.extractLsb' 6 2 = 0) (hm : isMarker (t :: rest) = false) :
    decodeBody (t :: rest) = .ok (.index (t.extractLsb' 0 6), rest) :=
  decodeBody_of_assemble (assemble_index [] h) rfl hm

theorem decodeBody_diff (h : t.extractLsb' 6 2 = 1) : decodeBody (t :: rest) =
    .ok (.diff (biased 2 (t.extractLsb' 4 2)) (biased 2 (t.extractLsb' 2 2)) (biased 2 (t.extractLsb' 0 2)), rest) :=
  decodeBody_of_assemble (assemble_diff [] h) rfl (isMarker_of_top rest h (by decide))

theorem decodeBody_luma (x : Byte) (h : t.extractLsb' 6 2 = 2) : decodeBody (t :: x :: rest) =
    .ok (.luma (biased 32 (t.extractLsb' 0 6)) (biased 8 (x.extractLsb' 4 4)) (biased 8 (x.extractLsb' 0 4)), rest) :=
  decodeBody_of_assemble (assemble_luma [x] h) rfl (isMarker_of_top (x :: rest) h (by decide))

theorem decodeBody_run (h : t.extractLsb' 6 2 = 3) (hff : t ≠ 0xFF) (hfe : t ≠ 0xFE) :
    decodeBody (t :: rest) = .ok (.run ((t.extractLsb' 0 6).toNat + 1), rest) :=
  decodeBody_of_assemble (assemble_run [] h hff hfe) rfl (isMarker_of_top rest h (by decide))

theorem decodeBody_rgb (r g b : Byte) : decodeBody (0xFE :: r :: g :: b :: rest) = .ok (.rgb r g b, rest) :=
  decodeBody_of_assemble (assemble_rgb [r, g, b]) rfl (isMarker_of_tag (by decide) _)

theorem decodeBody_rgba (r g b a : Byte) :
    decodeBody (0xFF :: r :: g :: b :: a :: rest) = .ok (.rgba r g b a, rest) :=
  decodeBody_of_assemble (assemble_rgba [r, g, b, a]) rfl (isMarker_of_tag (by decide) _)

end

/-- Settles O6: each opcode decodes to its fields, and a delta as a u8 is its field less the bias modulo 256. -/
theorem operandAssembly : Obligations.OperandAssembly := by
  refine fun t x r g b a rest => ⟨decodeBody_index rest, fun h => ⟨_, _, _, decodeBody_diff rest h, ?diff⟩,
    fun h => ⟨_, _, _, decodeBody_luma rest x h, ?luma⟩, fun h hfe hff => decodeBody_run rest h hff hfe,
    decodeBody_rgb rest r g b, decodeBody_rgba rest r g b a⟩
  case diff => exact ⟨ofInt_biased 2 _, ofInt_biased 2 _, ofInt_biased 2 _⟩
  case luma =>
    rw [BitVec.ofInt_add, BitVec.ofInt_add, ofInt_biased, ofInt_biased, ofInt_biased]
    exact ⟨rfl, rfl, rfl⟩

/-- Settles O7: a delta in range is the reading of a field, and the bytes are those fields side by side. -/
theorem encoderFields : Obligations.EncoderFields := by
  refine ⟨fun p prev h => ?diff, fun p prev h => ?luma, fun len h1 h62 => ?run, fun p => ?index⟩
  case diff =>
    obtain ⟨-, hwf⟩ := Bool.and_eq_true_iff.1 h
    obtain ⟨r, g, b, hr, hg, hb⟩ := diff_fields_exist hwf
    refine ⟨tagByte 1 (diffFields r g b), by rw [diffOf, hr, hg, hb, encode_diff], ?_⟩
    change _ = 0x40 + 16 * (deltaR p prev + 2) + 4 * (deltaG p prev + 2) + (deltaB p prev + 2)
    rw [hr, hg, hb, biased_add, biased_add, biased_add, tagByte_toNat, diffFields_toNat]
    push_cast
    omega
  case luma =>
    obtain ⟨-, hwf⟩ := Bool.and_eq_true_iff.1 h
    obtain ⟨f, u, v, hg, hr, hb⟩ := luma_fields_exist hwf
    refine ⟨tagByte 2 f, nibbles u v, by rw [lumaOf, hr, hb, hg, encode_luma], ?_, ?_⟩
    · change _ = 0x80 + (deltaG p prev + 32)
      rw [hg, biased_add, tagByte_toNat]
      push_cast
      rfl
    · change _ = 16 * (deltaR p prev - deltaG p prev + 8) + (deltaB p prev - deltaG p prev + 8)
      rw [hr, hb, biased_add, biased_add, nibbles_toNat]
      push_cast
      omega
  case run =>
    obtain ⟨f, rfl⟩ := run_field_exists ⟨h1, h62⟩
    exact ⟨_, encode_run f, by rw [tagByte_toNat, Nat.add_sub_cancel]; rfl⟩
  case index => exact ⟨_, encode_index _, by rw [tagByte_toNat]; exact Nat.zero_add _⟩

/-! ### DIFF -/

/-- An opcode that resolves a pixel which fits leaves the state of R150. -/
theorem resolve_eq_afterPixel {s : State} (h : pixelFits s) (p : Pixel) (n : Nat) :
    resolve p n s = .next (afterPixel s p n) := resolve_of_room h

/-- Settles O17: the decoded deltas are the tag's fields, and DIFF resolves the pixel they are added to. -/
theorem diffRule : Obligations.DiffRule := by
  refine ⟨fun s t rest h => ⟨_, _, _, decodeBody_diff rest h, fun hfit => ?tag⟩,
    fun s dr dg db hfit => resolve_eq_afterPixel hfit _ 1⟩
  case tag =>
    rw [exec, execDiff, resolve_eq_afterPixel hfit, pixelDiff, addDelta, addDelta, addDelta, ofInt_biased, ofInt_biased,
      ofInt_biased]
    rfl

/-! ### RUNS -/

/-- The lengths of the runs of `RUNS n` (R103). -/
def runLengths (n : Nat) : List Nat := List.replicate (n / 62) 62 ++ if n % 62 = 0 then [] else [n % 62]

theorem runs_eq_map (n : Nat) : runs n = (runLengths n).map Instr.run := by
  rw [runs, runLengths, List.map_append, List.map_replicate, apply_ite (List.map Instr.run)]
  rfl

theorem runLengths_sum (n : Nat) : (runLengths n).sum = n := by
  have hlast : (if n % 62 = 0 then [] else [n % 62]).sum = n % 62 := by
    split
    case isTrue h => exact h.symm
    case isFalse => exact List.sum_singleton
  rw [runLengths, List.sum_append, List.sum_replicate, hlast, smul_eq_mul, Nat.div_add_mod']

theorem mem_runLengths {n len : Nat} (h : len ∈ runLengths n) : 1 ≤ len ∧ len ≤ 62 := by
  rcases List.mem_append.1 h with h | h
  · rw [List.eq_of_mem_replicate h]
    decide
  · split at h
    case isTrue => cases h
    case isFalse hne =>
      rw [List.mem_singleton.1 h]
      omega

/-- Settles O8: the runs are those of `runLengths`, each of 1 to 62 pixels and n together. -/
theorem runsExpansion : Obligations.RunsExpansion := by
  refine fun n _ => ⟨by rw [runs, ite_not], runLengths n, runs_eq_map n, runLengths_sum n, fun i hi => ?_⟩
  rw [runs_eq_map] at hi
  obtain ⟨len, hlen, rfl⟩ := List.mem_map.1 hi
  exact decide_eq_true (mem_runLengths hlen)

/-- What ENC holds after n pixels on the predictor, begun without a pending run: the full runs are emitted, the rest is
pending, cache and predictor are untouched (42_encoder.md R202). -/
structure AfterRun (s : State) (n : Nat) (t : State) : Prop where
  outQ : t.enc.outQ = s.enc.outQ ++ (List.replicate (n / 62) (Instr.run 62)).flatMap encode
  cache : t.enc.cache = s.enc.cache
  prev : t.enc.prev = s.enc.prev
  run : t.enc.run.toNat = n % 62

theorem AfterRun.zero {s : State} (h : s.enc.run = 0) : AfterRun s 0 s where
  outQ := (List.append_nil _).symm
  cache := rfl
  prev := rfl
  run := by rw [h]; rfl

/-- One more pixel lengthens the pending run, or is its 62nd. -/
theorem AfterRun.succ {s t : State} {n : Nat} (h : AfterRun s n t) : AfterRun s (n + 1) (encPixel s.enc.prev t) := by
  have hrun : (t.enc.run + 1).toNat = n % 62 + 1 := by
    rw [BitVec.toNat_add, h.run]
    change (n % 62 + 1) % 64 = n % 62 + 1
    omega
  have h62 : t.enc.run + 1 = 62 ↔ n % 62 + 1 = 62 := by rw [← hrun]; exact BitVec.toNat_inj.symm
  have henc := encPixel_run t
  rw [h.prev] at henc
  simp only [h62] at henc
  constructor <;> rw [henc]
  case outQ =>
    change t.enc.outQ ++ _ = _
    rw [h.outQ]
    split
    next hfull =>
      rw [show (n + 1) / 62 = n / 62 + 1 by omega, List.replicate_succ', List.flatMap_append, List.append_assoc]
      rfl
    next => rw [show (n + 1) / 62 = n / 62 by omega, List.append_nil]
  case cache => exact h.cache
  case prev => exact h.prev
  case run =>
    change (if n % 62 + 1 = 62 then (0 : BitVec 6) else t.enc.run + 1).toNat = _
    split
    next hfull => rw [show (n + 1) % 62 = 0 by omega]; rfl
    next => rw [hrun]; omega

theorem AfterRun.iterate {s : State} (h : s.enc.run = 0) (n : Nat) : AfterRun s n ((encPixel s.enc.prev)^[n] s) := by
  induction n with
  | zero => exact .zero h
  | succ n ih =>
    rw [Function.iterate_succ_apply']
    exact ih.succ

/-- The flush emits what is pending, and with it the runs are those of `RUNS n` (42_encoder.md R203). -/
theorem AfterRun.flush {s t : State} {n : Nat} (h : AfterRun s n t) :
    (encFlush t).enc.outQ = s.enc.outQ ++ (runs n).flatMap encode := by
  have hbytes : t.enc.flushBytes = (if n % 62 = 0 then [] else [Instr.run (n % 62)]).flatMap encode := by
    rw [Enc.flushBytes, apply_ite (List.flatMap encode)]
    simp only [run_zero_iff, h.run]
    rfl
  rw [encFlush_enc, runs, List.flatMap_append, ← List.append_assoc, ← h.outQ, ← hbytes]

/-- Settles O37: n pixels on the predictor leave the full runs emitted and the rest pending, and the flush emits it. -/
theorem runBlockIsRuns : Obligations.RunBlockIsRuns := by
  intro n s hrun
  have h := AfterRun.iterate hrun n
  refine ⟨h.flush, ?_⟩
  rw [encFlush_enc]
  exact ⟨h.cache, h.prev, rfl⟩

/-! ### The words of the specification -/

/-- Settles O1: each word is decoded by evaluation. -/
theorem specWordsDecode : Obligations.SpecWordsDecode := by
  unfold Obligations.SpecWordsDecode
  decide

end Sys2Proof.Machine
end

section
/-!
PROOFS. The color cache (spec/40_format_and_cache.md R120 to R125), ENC's framing steps (spec/42_encoder.md R200, R210),
and what ENC and DEC make of one image: the session of ENC, the session of DEC on its stream, and that the second undoes
the first (R127; spec/41_decoder.md R165).
-/

open Sys2Proof Sys2Proof.Machine Sys2Proof.Claims

namespace Sys2Proof.Machine

/-! ### The color cache -/

theorem pixelHash_toNat (p : Pixel) :
    (pixelHash p).toNat = (p.r.toNat * 3 + p.g.toNat * 5 + p.b.toNat * 7 + p.a.toNat * 11) % 64 :=
  BitVec.toNat_ofNat _ 6

theorem pixelHash_zero : pixelHash Pixel.zero = 0 := by decide

theorem pixelHash_seed : pixelHash Pixel.seed = 53 := by decide

/-- Settles O9: the four channels are below 256, so the sum fits 13 bits, of which the hash keeps six. -/
theorem hashRule : Obligations.HashRule := by
  refine ⟨pixelHash_toNat, fun p => ⟨?bound, ?low⟩, pixelHash_zero, pixelHash_seed⟩
  case bound =>
    have hr := p.r.isLt
    have hg := p.g.isLt
    have hb := p.b.isLt
    have ha := p.a.isLt
    omega
  case low => rw [pixelHash, ← BitVec.setWidth_eq_extractLsb' (by decide), BitVec.setWidth_ofNat_of_le (by decide)]

/-- Settles O10: each clause is the law of its operation. -/
theorem cacheOperations : Obligations.CacheOperations := by
  refine fun c p i => ⟨Cache.read_init i, ?same, fun hi => ?other, Cache.hit_iff c p,
    fun hit => Cache.insert_of_read ((Cache.hit_iff c p).1 hit)⟩
  case same => rw [Cache.read_insert, if_pos rfl]
  case other => rw [Cache.read_insert, if_neg hi]

/-! ### ENC's framing steps -/

/-- The flush changes ENC alone. -/
theorem encFlush_eq (s : State) : encFlush s = { s with enc :=
    { s.enc with
      outQ := s.enc.outQ ++ s.enc.flushBytes
      outCnt := s.enc.outCnt + BitVec.ofNat 64 s.enc.pending
      run := 0 } } := by
  obtain ⟨e, he⟩ := encFlush_frame s
  rw [he, ← encFlush_enc, he]

/-- The pending run's byte, written out (30_encoding.md R90). -/
theorem flushBytes_eq (e : Enc) : e.flushBytes =
    if 0 < e.run.toNat then [0xC0#8 ||| BitVec.ofNat 8 (e.run.toNat - 1)] else [] := by
  simp only [Enc.flushBytes, run_zero_iff, Nat.pos_iff_ne_zero, ite_not]
  rfl

/-- Settles O32: an enabled framing turn is the header's or the final update, and the flush is one byte or none. -/
theorem encFramingSteps : Obligations.EncFramingSteps := by
  refine ⟨fun s hb hph hroom => ?header, fun s hb hph hroom => ?final⟩
  case header => exact encTurn_hdr (encEnabled_iff.2 ⟨hb, by rw [hph]; exact hroom⟩) hph
  case final =>
    intro bs
    have hbs : s.enc.flushBytes ++ encode .endMark = bs := by rw [flushBytes_eq]; rfl
    rw [encTurn_fin (encEnabled_iff.2 ⟨hb, by rw [hph]; exact hroom⟩) hph, encFinal, encFlush_eq, ← hbs,
      List.length_append, flushBytes_length, BitVec.ofNat_add, ← BitVec.add_assoc, ← List.append_assoc]
    rfl

/-! ### What ENC makes of a sequence of pixels -/

/-- What ENC's coding of a pixel depends on (10_state.md R25 to R27). -/
structure Coder where
  /-- the color cache -/
  cache : Cache
  /-- the predictor -/
  prev : Pixel
  /-- how many pixels are pending -/
  run : Nat

/-- ENC's coding state. -/
def Enc.coder (e : Enc) : Coder := ⟨e.cache, e.prev, e.run.toNat⟩

/-- The coding state of START (43_control.md R253). -/
def Coder.start : Coder := ⟨Cache.init, Pixel.seed, 0⟩

/-- The item of a pending run, if a run is pending (42_encoder.md R203, R210). -/
def runItems (n : Nat) : List Instr := if n = 0 then [] else [.run n]

/-- The items a pixel makes ENC emit (R202 to R208). -/
def Coder.emits (x : Coder) (p : Pixel) : List Instr :=
  if p = x.prev then if x.run + 1 = 62 then runItems 62 else []
  else runItems x.run ++ [selectItem x.cache p x.prev]

/-- The coding state a pixel leaves (R202, R209). -/
def Coder.next (x : Coder) (p : Pixel) : Coder :=
  if p = x.prev then { x with run := if x.run + 1 = 62 then 0 else x.run + 1 }
  else ⟨Cache.insert x.cache p, p, 0⟩

/-- The items of the pixels still to come, the last pending run with them (R201, R210). -/
def Coder.items : Coder → List Pixel → List Instr
  | x, [] => runItems x.run
  | x, p :: ps => x.emits p ++ (x.next p).items ps

/-- The coding state after the pixels still to come. -/
def Coder.after (x : Coder) (ps : List Pixel) : Coder := ps.foldl Coder.next x

section
variable {x : Coder} {p : Pixel}

theorem Coder.step_full (h : x.run + 1 = 62) :
    x.emits x.prev = runItems 62 ∧ x.next x.prev = { x with run := 0 } := by
  rw [emits, next, if_pos rfl, if_pos rfl, if_pos h, if_pos h]
  exact ⟨rfl, rfl⟩

theorem Coder.step_join (h : x.run + 1 ≠ 62) :
    x.emits x.prev = [] ∧ x.next x.prev = { x with run := x.run + 1 } := by
  rw [emits, next, if_pos rfl, if_pos rfl, if_neg h, if_neg h]
  exact ⟨rfl, rfl⟩

theorem Coder.step_code (h : p ≠ x.prev) :
    x.emits p = runItems x.run ++ [selectItem x.cache p x.prev] ∧ x.next p = ⟨Cache.insert x.cache p, p, 0⟩ :=
  ⟨if_neg h, if_neg h⟩

end

theorem flushBytes_eq_runItems (e : Enc) : e.flushBytes = (runItems e.coder.run).flatMap encode := by
  have hzero : e.run = 0 ↔ e.coder.run = 0 := run_zero_iff
  rw [Enc.flushBytes, runItems]
  by_cases h : e.coder.run = 0
  · rw [if_pos h, if_pos (hzero.2 h)]; rfl
  · rw [if_neg h, if_neg (mt hzero.1 h)]; rfl

/-- The pixel step is the step of the coding state, and what it appends to OUTQ are the items of that step. -/
theorem encPixel_coder {s : State} (hr : s.enc.run.toNat ≤ 61) (p : Pixel) :
    (encPixel p s).enc.coder = s.enc.coder.next p ∧
    (encPixel p s).enc.outQ = s.enc.outQ ++ (s.enc.coder.emits p).flatMap encode := by
  by_cases hp : p = s.enc.coder.prev
  · have hsum : (s.enc.run + 1).toNat = s.enc.coder.run + 1 := BitVec.toNat_add_of_lt (show _ + 1 < 2 ^ 6 by omega)
    have h62 : s.enc.run + 1 = 62 ↔ s.enc.coder.run + 1 = 62 := by rw [← hsum, ← BitVec.toNat_inj]; rfl
    have henc := encPixel_run s
    by_cases hfull : s.enc.coder.run + 1 = 62
    · obtain ⟨hemits, hnext⟩ := Coder.step_full hfull
      rw [if_pos (h62.2 hfull), if_pos (h62.2 hfull), if_pos (h62.2 hfull)] at henc
      rw [hp, hemits, hnext, show s.enc.coder.prev = s.enc.prev from rfl, henc]
      exact ⟨rfl, rfl⟩
    · obtain ⟨hemits, hnext⟩ := Coder.step_join hfull
      rw [if_neg (mt h62.1 hfull), if_neg (mt h62.1 hfull), if_neg (mt h62.1 hfull)] at henc
      rw [hp, hemits, hnext, show s.enc.coder.prev = s.enc.prev from rfl, henc]
      exact ⟨congrArg (Coder.mk _ _) hsum, rfl⟩
  · obtain ⟨hemits, hnext⟩ := Coder.step_code hp
    rw [hemits, hnext, encPixel_code hp, flushBytes_eq_runItems, List.flatMap_append, List.flatMap_singleton,
      List.append_assoc]
    exact ⟨rfl, rfl⟩

/-! ### The session of ENC -/

/-- Pixel j of the image in PIX_E, its unwritten bytes as ENC's session draws them (42_encoder.md R201; log 2). -/
def State.imagePixel (s : State) (j : Nat) : Pixel :=
  pixelOfBytes s.enc.channels (Memory.bytesAt s.pixE (s.draws + j * pixelSize s.enc.channels)
    (j * s.enc.channels.toNat) (pixelSize s.enc.channels))

/-- The m pixels of the image from pixel k on. -/
def State.imageFrom (s : State) (k m : Nat) : List Pixel := (List.range' k m).map s.imagePixel

/-- The image in PIX_E. -/
def State.image (s : State) : List Pixel := s.imageFrom 0 s.enc.n

theorem State.imageFrom_succ (s : State) (k m : Nat) :
    s.imageFrom k (m + 1) = s.imagePixel k :: s.imageFrom (k + 1) m := by
  rw [State.imageFrom, List.range'_succ, List.map_cons, State.imageFrom]

/-- In the session begun in s, ENC has read k pixels and the host has read every byte emitted. -/
structure AfterPixels (s : State) (k : Nat) (t : State) : Prop where
  params : t.params = s.params
  pixE : t.pixE = s.pixE
  draws : t.draws = s.draws + k * pixelSize s.enc.channels
  width : t.enc.width = s.enc.width
  height : t.enc.height = s.enc.height
  channels : t.enc.channels = s.enc.channels
  state : t.enc.state = .busy
  outQ : t.enc.outQ = []
  run_le : t.enc.run.toNat ≤ 61
  count : t.enc.k.toNat = k
  phase : t.enc.phase = if k = s.enc.n then .fin else .pix

/-- The host has read every byte in OUTQ. -/
def State.drained (s : State) : State := { s with enc := { s.enc with outQ := [] } }

theorem State.drained_coder (s : State) : s.drained.enc.coder = s.enc.coder := rfl

theorem encDrainTurn_of_next {acc : List Byte} {s t : State} (h : encTurn s = .next t) :
    encDrainTurn (acc, s) = some (acc ++ t.enc.outQ, t.drained) := by
  rw [encDrainTurn, h]
  rfl

theorem encTurns_succ {n : Nat} {x y : Drained} (h : encDrainTurn x = some y) :
    encTurns (n + 1) x = encTurns n y := by
  rw [encTurns, h, Option.bind_some]

section
variable {s t : State} {k : Nat}

theorem AfterPixels.readPixel (h : AfterPixels s k t) : t.readPixel = s.imagePixel k := by
  rw [State.readPixel, State.imagePixel, Enc.pixelAddr, h.pixE, h.draws, h.channels, h.count]

variable (hs : encodable s)
include hs

theorem encodable_n_lt : 3 * s.enc.n ≤ 2 ^ 48 := by
  obtain ⟨-, hmem, -, himage⟩ := hs
  exact imageOk_count_lt himage hmem

/-- Pixel k lies inside PIX_E (60_exceptions.md R305). -/
theorem encodable_pixel_le (hk : k < s.enc.n) :
    k * s.enc.channels.toNat + pixelSize s.enc.channels ≤ s.params.pixMemBytes := by
  obtain ⟨-, -, -, hch, -, hfits⟩ := hs
  rw [pixelSize_of_legal hch, ← Nat.succ_mul]
  exact (Nat.mul_le_mul_right _ hk).trans hfits

/-- With OUTQ drained there is room for any step (20_memory.md R65). -/
theorem AfterPixels.enabled (h : AfterPixels s k t) : encEnabled t.params t.enc = true := by
  obtain ⟨-, -, hdepth, -⟩ := hs
  exact encEnabled_iff.2 ⟨h.state, by rw [h.outQ, h.params]; exact (encRoom_le _).trans hdepth⟩

theorem AfterPixels.k_succ (h : AfterPixels s k t) (hk : k < s.enc.n) : (t.enc.k + 1).toNat = k + 1 := by
  have hbound := encodable_n_lt hs
  have hcount := h.count
  rw [← hcount]
  exact count_succ (by omega)

/-- A pixel step of ENC, the bytes it emitted read. -/
theorem AfterPixels.succ (h : AfterPixels s k t) (hk : k < s.enc.n) {v : State} {e : Enc} {p : Pixel} {bs : List Byte}
    (hframe : v = { t.drawPixel with enc := e }) (hstep : PixelStep p t.enc v.enc bs) :
    AfterPixels s (k + 1) v.drained where
  params := by rw [hframe]; exact h.params
  pixE := by rw [hframe]; exact h.pixE
  draws := by
    rw [hframe]
    change t.draws + pixelSize t.enc.channels = _
    rw [h.draws, h.channels, Nat.succ_mul, Nat.add_assoc]
  width := hstep.width.trans h.width
  height := hstep.height.trans h.height
  channels := hstep.channels.trans h.channels
  state := hstep.state.trans h.state
  outQ := rfl
  run_le := hstep.run_le
  count := (congrArg _ hstep.k).trans (h.k_succ hs hk)
  phase := by
    have hn : t.enc.n = s.enc.n := by rw [Enc.n, Enc.n, h.width, h.height]
    refine hstep.phase.trans ?_
    rw [h.k_succ hs hk, hn, h.phase, if_neg hk.ne]

/-- A pixel step of the session: the next pixel's items are emitted, and the coding state steps (42_encoder.md R201). -/
theorem AfterPixels.turn (h : AfterPixels s k t) (hk : k < s.enc.n) (acc : List Byte) : ∃ u,
    encDrainTurn (acc, t) = some (acc ++ (t.enc.coder.emits (s.imagePixel k)).flatMap encode, u) ∧
    AfterPixels s (k + 1) u ∧ u.enc.coder = t.enc.coder.next (s.imagePixel k) := by
  have hphase : t.enc.phase = .pix := by rw [h.phase, if_neg hk.ne]
  have hroom : t.enc.pixelAddr + pixelSize t.enc.channels ≤ t.params.pixMemBytes := by
    rw [Enc.pixelAddr, h.count, h.channels, h.params]
    exact encodable_pixel_le hs hk
  have hturn : encTurn t = .next (encPixel (s.imagePixel k) t.drawPixel) := by
    rw [encTurn_pix (h.enabled hs) hphase, if_pos hroom, encReadPixel, h.readPixel]
  obtain ⟨hcoder, hout⟩ := encPixel_coder (s := t.drawPixel) h.run_le (s.imagePixel k)
  obtain ⟨e, hframe⟩ := encPixel_frame (s.imagePixel k) t.drawPixel
  obtain ⟨bs, hstep⟩ := encPixel_spec (p := s.imagePixel k) (s := t.drawPixel) h.run_le
  rw [State.drawPixel_enc] at hcoder hout hstep
  refine ⟨(encPixel (s.imagePixel k) t.drawPixel).drained, ?_, h.succ hs hk hframe hstep, ?_⟩
  · rw [encDrainTurn_of_next hturn, hout, h.outQ, List.nil_append]
  · rw [State.drained_coder, hcoder]

/-- The final step of the session (42_encoder.md R210). -/
theorem AfterPixels.final (h : AfterPixels s s.enc.n t) (acc : List Byte) : ∃ u,
    encDrainTurn (acc, t) = some (acc ++ ((runItems t.enc.coder.run).flatMap encode ++ marker), u) ∧
    u.enc.state = .done ∧ u.enc.cache = t.enc.cache := by
  have hphase : t.enc.phase = .fin := by rw [h.phase, if_pos rfl]
  refine ⟨(encFinal t).drained, ?_, rfl, ?_⟩
  · rw [encDrainTurn_of_next (encTurn_fin (h.enabled hs) hphase), ← flushBytes_eq_runItems, encFinal, encFlush_eq,
      h.outQ]
    rfl
  · rw [encFinal, encFlush_eq]
    rfl

/-- From k pixels on, the session emits the items of the m pixels that are left, then the marker (R211). -/
theorem AfterPixels.turns (m : Nat) (h : AfterPixels s k t) (hm : k + m = s.enc.n) (acc : List Byte) : ∃ u,
    encTurns (m + 1) (acc, t) = some (acc ++ ((t.enc.coder.items (s.imageFrom k m)).flatMap encode ++ marker), u) ∧
    u.enc.state = .done ∧ u.enc.cache = (t.enc.coder.after (s.imageFrom k m)).cache := by
  induction m generalizing k t acc with
  | zero =>
    obtain rfl : k = s.enc.n := hm
    obtain ⟨u, hu, hdone, hcache⟩ := h.final hs acc
    exact ⟨u, encTurns_succ hu, hdone, hcache⟩
  | succ m ih =>
    obtain ⟨u, hu, hafter, hcoder⟩ := h.turn hs (by omega) acc
    obtain ⟨v, hv, hdone, hcache⟩ := ih hafter (by omega)
      (acc ++ (t.enc.coder.emits (s.imagePixel k)).flatMap encode)
    refine ⟨v, ?_, hdone, ?_⟩
    · rw [encTurns_succ hu, hv, hcoder, State.imageFrom_succ, Coder.items, List.flatMap_append, List.append_assoc,
        List.append_assoc]
    · rw [hcache, hcoder, State.imageFrom_succ]
      rfl

/-- START admits the image, and the header step emits the header (R200; 43_control.md R253). -/
theorem encodable_header : ∃ u,
    encDrainTurn ([], encStart s) =
      some (hdr s.enc.width s.enc.height s.enc.channels (s.enc.colorspace.setWidth 8), u) ∧
    AfterPixels s 0 u ∧ u.enc.coder = Coder.start := by
  obtain ⟨hidle, -, hdepth, himage⟩ := hs
  have hstart : encStart s = { s with enc := { s.enc.init with state := .busy } } := by
    rw [encStart, if_neg hidle, (imageError_none_iff _ _ _ _).2 himage]
  have henabled : encEnabled (encStart s).params (encStart s).enc = true := by
    rw [hstart]
    exact encEnabled_iff.2 ⟨rfl, hdepth⟩
  have hturn := encTurn_hdr henabled (by rw [hstart]; rfl)
  refine ⟨(encHeader (encStart s)).drained, ?emitted, ?after, by rw [hstart]; rfl⟩
  case emitted => rw [encDrainTurn_of_next hturn, hstart]; rfl
  case after =>
    obtain ⟨-, hpos, -⟩ := himage
    have hpos : 0 ≠ s.enc.n := Nat.ne_of_lt hpos
    rw [hstart]
    constructor
    case draws => rw [Nat.zero_mul]; rfl
    case phase => rw [if_neg hpos]; rfl
    case run_le => exact Nat.zero_le _
    all_goals rfl

/-- `encode` (R211): the stream is the header, the items of the image's pixels and the marker. -/
theorem encodeImage_eq : ∃ t, encodeImage s = some
      (hdr s.enc.width s.enc.height s.enc.channels (s.enc.colorspace.setWidth 8) ++
        ((Coder.start.items s.image).flatMap encode ++ marker), t) ∧
    t.enc.state = .done ∧ t.enc.cache = (Coder.start.after s.image).cache := by
  obtain ⟨u, hu, hafter, hcoder⟩ := encodable_header hs
  obtain ⟨t, ht, hdone, hcache⟩ := hafter.turns hs s.enc.n (Nat.zero_add _) _
  rw [hcoder] at ht hcache
  exact ⟨t, (encTurns_succ hu).trans ht, hdone, hcache⟩

end

/-! ### The two caches -/

/-- The two caches agree but possibly at slot 53, where ENC may still hold PX_ZERO and DEC PX_SEED
(40_format_and_cache.md R127). -/
def CachesMatch (c d : Cache) : Prop :=
  (∀ i : BitVec 6, i ≠ 53 → Cache.read c i = Cache.read d i) ∧
  (Cache.read c 53 = Cache.read d 53 ∨ Cache.read c 53 = Pixel.zero ∧ Cache.read d 53 = Pixel.seed)

/-- ENC's cache holds the predictor, or the predictor is PX_SEED and its slot is still PX_ZERO. -/
def Held (c : Cache) (prev : Pixel) : Prop :=
  Cache.read c (pixelHash prev) = prev ∨ prev = Pixel.seed ∧ Cache.read c 53 = Pixel.zero

theorem CachesMatch.init : CachesMatch Cache.init Cache.init := ⟨fun _ _ => rfl, .inl rfl⟩

section
variable {c d : Cache} (h : CachesMatch c d)
include h

theorem CachesMatch.insert (p : Pixel) : CachesMatch (Cache.insert c p) (Cache.insert d p) := by
  obtain ⟨hother, h53⟩ := h
  simp only [CachesMatch, Cache.read_insert]
  refine ⟨fun i hi => ?_, ?_⟩
  · rw [hother i hi]
  · by_cases hp : 53 = pixelHash p
    · exact .inl (by rw [if_pos hp, if_pos hp])
    · rwa [if_neg hp, if_neg hp]

/-- Where ENC hits DEC holds the same pixel: PX_ZERO at slot 53 is no hit, because PX_ZERO hashes to 0. -/
theorem CachesMatch.hit {p : Pixel} (hit : Cache.read c (pixelHash p) = p) : Cache.read d (pixelHash p) = p := by
  obtain ⟨hother, h53⟩ := h
  by_cases hp : pixelHash p = 53
  · rw [hp] at hit ⊢
    rcases h53 with heq | ⟨hzero, -⟩
    · rw [← heq, hit]
    · rw [← hit, hzero, pixelHash_zero] at hp
      exact absurd hp (by decide)
  · rw [← hother _ hp, hit]

/-- RUN inserts the predictor in DEC alone, and the caches still agree (R124, R127). -/
theorem CachesMatch.insert_held {prev : Pixel} (hprev : Held c prev) : CachesMatch c (Cache.insert d prev) := by
  rcases hprev with hheld | ⟨hseed, hzero⟩
  · rwa [Cache.insert_of_read (h.hit hheld)]
  · obtain ⟨hother, -⟩ := h
    rw [hseed]
    refine ⟨fun i hi => ?_, .inr ⟨hzero, ?_⟩⟩
    · rw [Cache.read_insert, pixelHash_seed, if_neg hi, hother i hi]
    · rw [Cache.read_insert, pixelHash_seed, if_pos rfl]

end

/-! ### The selected item gives its pixel back -/

theorem s8_eq_toInt (v : Byte) : s8 v = v.toInt := by
  rw [s8, BitVec.toInt_eq_toNat_cond]
  split <;> split <;> omega

/-- Reading a delta as signed and adding it wraps to the same byte (00_scope.md R13, R14). -/
theorem addDelta_s8 (v c : Byte) : addDelta c (s8 (v - c)) = v := by
  rw [addDelta, s8_eq_toInt, BitVec.ofInt_toInt]
  exact add_sub_cancel c v

theorem pixelDiff_deltas {p prev : Pixel} (ha : p.a = prev.a) :
    pixelDiff prev (deltaR p prev) (deltaG p prev) (deltaB p prev) = p := by
  rw [pixelDiff, deltaR, deltaG, deltaB, addDelta_s8, addDelta_s8, addDelta_s8, ← ha]

/-- The item selected for a pixel is a well-formed opcode (R204 to R208). -/
theorem selectItem_opcode (c : Cache) (p prev : Pixel) :
    (selectItem c p prev).wf = true ∧ (selectItem c p prev).isOpcode = true := by
  rcases selectItem_cases c p prev with ⟨h, -⟩ | ⟨h, -, hwf⟩ | ⟨h, -, hwf⟩ | ⟨h, -⟩ | ⟨h, -⟩ <;> rw [h]
  · exact ⟨rfl, rfl⟩
  · exact ⟨hwf, rfl⟩
  · exact ⟨hwf, rfl⟩
  · exact ⟨rfl, rfl⟩
  · exact ⟨rfl, rfl⟩

/-- INDEX is selected on a hit alone (R204). -/
theorem selectItem_eq_index {c : Cache} {p prev : Pixel} {j : BitVec 6} (h : selectItem c p prev = .index j) :
    j = pixelHash p ∧ Cache.read c (pixelHash p) = p := by
  rcases selectItem_cases c p prev with ⟨he, hit⟩ | ⟨he, -⟩ | ⟨he, -⟩ | ⟨he, -⟩ | ⟨he, -⟩ <;> rw [h] at he
  · exact ⟨Instr.index.inj he, hit⟩
  all_goals cases he

/-- The item selected for a pixel resolves that pixel wherever the predictor is the encoder's and a hit of the encoder
is one of DEC (R165). -/
theorem exec_selectItem {c : Cache} {p : Pixel} {u : State}
    (hit : Cache.read c (pixelHash p) = p → Cache.read u.dec.cache (pixelHash p) = p) :
    exec (selectItem c p u.dec.cur) u = resolve p (selectItem c p u.dec.cur).size u := by
  rcases selectItem_cases c p u.dec.cur with ⟨h, hc⟩ | ⟨h, ha, -⟩ | ⟨h, ha, -⟩ | ⟨h, ha⟩ | ⟨h, -⟩ <;> rw [h]
  · exact congrArg (resolve · 1 u) (hit hc)
  · exact congrArg (resolve · 1 u) (pixelDiff_deltas ha)
  · refine congrArg (resolve · 2 u) ?_
    rw [pixelLuma, sub_add_cancel, sub_add_cancel, pixelDiff_deltas ha]
  · refine congrArg (resolve · 4 u) ?_
    rw [pixelRgb, ← ha]
  · rfl

/-! ### No end marker among the items -/

/-- Only INDEX 0 begins with the byte 0 (30_encoding.md R93, R98). -/
theorem encode_head_ne_zero {i : Instr} (hwf : i.wf = true) (hop : i.isOpcode = true) (hi : i ≠ .index 0) :
    ∃ t tl, encode i = t :: tl ∧ t ≠ 0 := by
  obtain ⟨t, tl, henc, ha⟩ := assemble_encode hwf hop
  refine ⟨t, tl, henc, ?_⟩
  rintro rfl
  exact hi ha.symm

theorem isMarker_encode {i : Instr} (hwf : i.wf = true) (hop : i.isOpcode = true) (hi : i ≠ .index 0)
    (rest : List Byte) : isMarker (encode i ++ rest) = false ∧ isMarker (0 :: (encode i ++ rest)) = false := by
  obtain ⟨t, tl, henc, ht⟩ := encode_head_ne_zero hwf hop hi
  rw [henc]
  refine ⟨isMarker_of_tag ht _, Bool.eq_false_iff.2 fun hm => ?_⟩
  obtain ⟨r, hr⟩ := (isMarker_iff _).1 hm
  exact ht (List.cons.inj (List.cons.inj hr).2).1

/-- What follows an INDEX 0 that gave the predictor does not complete the marker (R100). -/
def Coder.Unmarked (x : Coder) (rest : List Byte) : Prop :=
  Cache.read x.cache 0 = x.prev → isMarker (0 :: rest) = false

/-- The item selected for p is not taken for the marker, when what follows it completes none. -/
theorem isMarker_selectItem {c : Cache} {p prev : Pixel} {rest : List Byte}
    (h : (Coder.mk (Cache.insert c p) p 0).Unmarked rest) :
    isMarker (encode (selectItem c p prev) ++ rest) = false := by
  obtain ⟨hwf, hop⟩ := selectItem_opcode c p prev
  by_cases hi : selectItem c p prev = .index 0
  · rw [hi]
    exact h (by rw [Cache.read_insert, if_pos (selectItem_eq_index hi).1])
  · exact (isMarker_encode hwf hop hi rest).1

/-- ENC does not hit slot 0 with another pixel than the one it holds. -/
theorem selectItem_ne_index_zero {x : Coder} {p : Pixel} (hp : p ≠ x.prev) (hx : Cache.read x.cache 0 = x.prev) :
    selectItem x.cache p x.prev ≠ .index 0 := by
  intro hi
  obtain ⟨hhash, hit⟩ := selectItem_eq_index hi
  rw [← hhash, hx] at hit
  exact hp hit.symm

theorem isMarker_runItems {n : Nat} {rest : List Byte} (hn : n ≤ 62) (h : n = 0 → isMarker (0 :: rest) = false) :
    isMarker (0 :: ((runItems n).flatMap encode ++ rest)) = false := by
  rw [runItems]
  split
  case isTrue hzero => exact h hzero
  case isFalse hpos =>
    have hwf : (Instr.run n).wf = true := decide_eq_true ⟨Nat.pos_of_ne_zero hpos, hn⟩
    rw [List.flatMap_singleton]
    exact (isMarker_encode hwf rfl (by simp) rest).2

/-- ENC's coding state in a session: a pending run is below 62, and the predictor is held (10_state.md R27). -/
structure Coder.Ok (x : Coder) : Prop where
  run_le : x.run ≤ 61
  held : Held x.cache x.prev

theorem Coder.start_ok : Coder.start.Ok where
  run_le := Nat.zero_le _
  held := .inr ⟨rfl, Cache.read_init 53⟩

theorem Coder.Ok.next {x : Coder} (h : x.Ok) (p : Pixel) : (x.next p).Ok := by
  have hle := h.run_le
  by_cases hp : p = x.prev
  · rw [hp]
    by_cases hfull : x.run + 1 = 62
    · rw [(Coder.step_full hfull).2]
      exact ⟨Nat.zero_le _, h.held⟩
    · rw [(Coder.step_join hfull).2]
      exact ⟨show x.run + 1 ≤ 61 by omega, h.held⟩
  · rw [(Coder.step_code hp).2]
    exact ⟨Nat.zero_le _, .inl (by rw [Cache.read_insert, if_pos rfl])⟩

/-- An INDEX 0 is never followed by another: the pixel it would give is the predictor, which joins a run. -/
theorem Coder.Ok.unmarked {x : Coder} (h : x.Ok) (ps : List Pixel) :
    x.Unmarked ((x.items ps).flatMap encode ++ marker) := by
  intro hx
  have hle := h.run_le
  induction ps generalizing x with
  | nil => exact isMarker_runItems (by omega) fun _ => rfl
  | cons p ps ih =>
    rw [Coder.items, List.flatMap_append, List.append_assoc]
    have hok := h.next p
    by_cases hp : p = x.prev
    · rw [hp] at hok ⊢
      by_cases hfull : x.run + 1 = 62
      · rw [(Coder.step_full hfull).1]
        exact isMarker_runItems le_rfl fun h62 => absurd h62 (by decide)
      · obtain ⟨hemits, hnext⟩ := Coder.step_join hfull
        rw [hnext] at hok ⊢
        rw [hemits]
        exact ih hok hx hok.run_le
    · obtain ⟨hwf, hop⟩ := selectItem_opcode x.cache p x.prev
      rw [(Coder.step_code hp).1, List.flatMap_append, List.append_assoc, List.flatMap_singleton]
      exact isMarker_runItems (by omega) fun _ =>
        (isMarker_encode hwf hop (selectItem_ne_index_zero hp hx) _).2

/-! ### The session of DEC -/

/-- DEC in the body of a session of an admitted image, every byte pushed. -/
structure AdmittedBody (b : State) : Prop where
  state : b.dec.state = .busy
  phase : b.dec.phase = .body
  last : b.dec.inLast = true
  image : imageOk b.params.pixMemBytes b.dec.w b.dec.h b.dec.ch
  mem_le : b.params.pixMemBytes ≤ 2 ^ 48

/-- In the body begun in b, DEC has resolved the pixels `done`, and its coding state is ENC's: the same predictor, and a
cache that agrees (41_decoder.md R165). -/
structure Follows (b : State) (done : List Pixel) (c : Cache) (prev : Pixel) (u : State) : Prop where
  params : u.params = b.params
  regs : u.dec = { b.dec with cur := u.dec.cur, cache := u.dec.cache, k := u.dec.k, pos := u.dec.pos }
  count : u.dec.k.toNat = done.length
  pos_le : u.dec.pos.toNat ≤ 14 + 5 * done.length
  cur : u.dec.cur = prev
  caches : CachesMatch c u.dec.cache
  pixels : ∀ a, a < (done.flatMap (pixelBytes b.dec.ch)).length →
    Memory.lookup u.pixD a = (done.flatMap (pixelBytes b.dec.ch))[a]?

theorem Follows.n_eq {b u : State} {done : List Pixel} {c : Cache} {prev : Pixel} (h : Follows b done c prev u) :
    u.dec.n = b.dec.n := by
  rw [h.regs]
  rfl

/-- What an item of `len` bytes leaves that resolves n times the pixel p (R150, R154 to R159). -/
def State.gives (s : State) (p : Pixel) (n len : Nat) : State := ((s.setCur p).storeRun n).advance len

theorem resolve_eq_gives {p : Pixel} {len : Nat} {s : State}
    (h : s.dec.pixelAddr + pixelSize s.dec.ch ≤ s.params.pixMemBytes) :
    resolve p len s = .next (s.gives p 1 len) := by
  rw [resolve_of_room h, State.resolved, State.gives, State.storePixel, State.storeRun, List.replicate_one,
    List.flatten_singleton]
  rfl

theorem execRun_eq_gives {n : Nat} {s : State} (hle : s.dec.k.toNat + n ≤ s.dec.n)
    (hroom : (s.dec.k.toNat + n) * pixelSize s.dec.ch ≤ s.params.pixMemBytes) :
    exec (.run n) s = .next (s.gives s.dec.cur n 1) := execRun_of_room hle (.inr hroom)

theorem opcode_size_le {i : Instr} (hwf : i.wf = true) (hop : i.isOpcode = true) : i.size ≤ 5 := by
  obtain ⟨t, tl, -, ha⟩ := assemble_encode hwf hop
  rw [← ha, assemble_size]
  exact oplen_le t

/-- At the bytes of an opcode that are not the marker, while a pixel is missing, the step is the opcode (R153). -/
theorem bodyAct_encode {d : Dec} {i : Instr} {rest : List Byte} (hk : d.k.toNat ≠ d.n) (hwf : i.wf = true)
    (hop : i.isOpcode = true) (hf : d.fifo = encode i ++ rest) (hm : isMarker (encode i ++ rest) = false) :
    bodyAct d = .run i := by
  obtain ⟨t, tl, henc, ha⟩ := assemble_encode hwf hop
  have hlen : oplen t = tl.length + 1 := by
    rw [← assemble_size t tl, ha, ← encode_length, henc, List.length_cons]
  rw [← hf] at hm
  rw [henc, List.cons_append] at hf
  rw [bodyAct_opcode hm hk hf (by rw [List.length_append]; omega), assemble_append hlen.le, ha]

/-- The bytes of a sequence of pixels (20_memory.md R69). -/
theorem pixels_length (ch : Byte) (ps : List Pixel) :
    (ps.flatMap (pixelBytes ch)).length = ps.length * pixelSize ch := by
  simp only [List.length_flatMap, pixelBytes_length, List.map_const', List.sum_replicate, smul_eq_mul]

/-- Bytes written at the end of those a memory holds from address 0 on. -/
theorem Memory.lookup_writeBytes_end {m : Memory} {xs : List Byte}
    (h : ∀ a, a < xs.length → Memory.lookup m a = xs[a]?) (ys : List Byte) (a : Nat) (ha : a < (xs ++ ys).length) :
    Memory.lookup (Memory.writeBytes m xs.length ys) a = (xs ++ ys)[a]? := by
  rw [List.length_append] at ha
  by_cases hx : a < xs.length
  · rw [Memory.lookup_writeBytes_outside m (.inl hx), h a hx, List.getElem?_append_left hx]
  · have hle := Nat.le_of_not_lt hx
    rw [Memory.lookup_writeBytes, if_pos ⟨hle, ha⟩, List.getElem?_append_right hle]

theorem decTurns_add (m n : Nat) (s : State) : decTurns (m + n) s = andThen (decTurns m s) (decTurns n) := by
  induction m generalizing s with
  | zero => rw [Nat.zero_add]; rfl
  | succ m ih =>
    rw [Nat.succ_add, decTurns, decTurns]
    cases decTurn s with
    | next t => exact ih t
    | fault e => rfl
    | refused e => rfl

section
variable {b : State} (hb : AdmittedBody b)
include hb

theorem AdmittedBody.n_le : 3 * b.dec.n ≤ 2 ^ 48 := imageOk_count_lt hb.image hb.mem_le

variable {done : List Pixel} {c : Cache} {prev : Pixel} {u : State}

theorem Follows.room (h : Follows b done c prev u) {n : Nat} (hn : done.length + n ≤ b.dec.n) :
    (u.dec.k.toNat + n) * pixelSize u.dec.ch ≤ u.params.pixMemBytes := by
  obtain ⟨hch, -, hfits⟩ := hb.image
  rw [h.count, h.params, h.regs, pixelSize_of_legal hch]
  exact (Nat.mul_le_mul_right _ hn).trans hfits

/-- In the body with every byte pushed, DEC's turn is the body step. -/
theorem Follows.turn (h : Follows b done c prev u) {i : Instr} (hact : bodyAct u.dec = .run i) :
    decTurn u = exec i u := by
  have hstate : u.dec.state = .busy := by rw [h.regs]; exact hb.state
  have hphase : u.dec.phase = .body := by rw [h.regs]; exact hb.phase
  have hlast : u.dec.inLast = true := by rw [h.regs]; exact hb.last
  have hdec : decAct u.dec = .run i := by rw [decAct, hphase]; exact hact
  rw [decTurn, if_pos (decEnabled_iff.2 ⟨hstate, .inr hlast⟩), hdec]

/-- The stream position does not wrap (00_scope.md R11). -/
theorem Follows.pos_add (h : Follows b done c prev u) (hle : done.length ≤ b.dec.n) {len : Nat} (hlen : len ≤ 5) :
    (u.dec.pos + BitVec.ofNat 64 len).toNat = u.dec.pos.toNat + len := by
  have hbound := hb.n_le
  have hpos := h.pos_le
  exact count_add (by omega)

/-- DEC's pixels, predictor and cache after an opcode (R150). -/
theorem Follows.gives (h : Follows b done c prev u) {p : Pixel} {n len : Nat} {c' : Cache} (hn : 1 ≤ n)
    (hle : done.length + n ≤ b.dec.n) (hlen : len ≤ 5) (hcache : CachesMatch c' (Cache.insert u.dec.cache p)) :
    Follows b (done ++ List.replicate n p) c' p (u.gives p n len) := by
  have hcount := h.count
  have hbound := hb.n_le
  have hch : u.dec.ch = b.dec.ch := by rw [h.regs]
  have haddr : u.dec.pixelAddr = (done.flatMap (pixelBytes b.dec.ch)).length := by
    rw [Dec.pixelAddr, hcount, hch, pixels_length]
  have hdone : (done ++ List.replicate n p).length = done.length + n := by
    rw [List.length_append, List.length_replicate]
  constructor
  case params => exact h.params
  case regs =>
    conv_lhs => rw [State.gives, State.advance_dec, State.storeRun, State.setCur_dec, h.regs]
    rfl
  case count =>
    rw [hdone, ← hcount]
    exact count_add (a := u.dec.k) (by omega)
  case pos_le =>
    rw [hdone]
    exact (h.pos_add hb (by omega) hlen).trans_le (by have := h.pos_le; omega)
  case cur => rfl
  case caches =>
    have hne : n ≠ 0 := by omega
    simp only [State.gives, State.storeRun, State.advance_dec, if_neg hne]
    exact hcache
  case pixels =>
    have hmem : (u.gives p n len).pixD = Memory.writeBytes u.pixD u.dec.pixelAddr
        (List.replicate n (pixelBytes u.dec.ch p)).flatten := rfl
    rw [List.flatMap_append, List.flatMap_replicate, hmem, haddr, hch]
    exact Memory.lookup_writeBytes_end h.pixels _

/-- One item, at its bytes: DEC resolves its pixels and stands at what follows. -/
theorem Follows.item (h : Follows b done c prev u) {i : Instr} {p : Pixel} {n : Nat} {c' : Cache} {rest : List Byte}
    (hwf : i.wf = true) (hop : i.isOpcode = true) (hn : 1 ≤ n) (hle : done.length + n ≤ b.dec.n)
    (hexec : exec i u = .next (u.gives p n i.size)) (hcache : CachesMatch c' (Cache.insert u.dec.cache p))
    (hf : u.dec.fifo = encode i ++ rest) (hm : isMarker (encode i ++ rest) = false) :
    decTurn u = .next (u.gives p n i.size) ∧ Follows b (done ++ List.replicate n p) c' p (u.gives p n i.size) ∧
      (u.gives p n i.size).dec.fifo = rest := by
  have hk : u.dec.k.toNat ≠ u.dec.n := by
    rw [h.n_eq, h.count]
    omega
  have hlen := opcode_size_le hwf hop
  have hfifo : (u.gives p n i.size).dec.fifo = u.dec.input.drop (u.dec.pos.toNat + i.size) := by
    rw [← h.pos_add hb (by omega) hlen]
    rfl
  refine ⟨(h.turn hb (bodyAct_encode hk hwf hop hf hm)).trans hexec, h.gives hb hn hle hlen hcache, ?_⟩
  rw [hfifo, ← List.drop_drop, show u.dec.input.drop u.dec.pos.toNat = _ from hf, ← encode_length, List.drop_left]

/-- The item of n pending pixels: DEC resolves the predictor n times (R159). -/
theorem Follows.runItems (h : Follows b done c prev u) (hprev : Held c prev) {n : Nat} {rest : List Byte}
    (hn : n ≤ 62) (hle : done.length + n ≤ b.dec.n) (hf : u.dec.fifo = (runItems n).flatMap encode ++ rest) : ∃ v,
    decTurns (runItems n).length u = .next v ∧ Follows b (done ++ List.replicate n prev) c prev v ∧
      v.dec.fifo = rest := by
  rw [Machine.runItems] at hf ⊢
  split at hf
  case isTrue hzero =>
    rw [if_pos hzero, hzero, List.replicate_zero, List.append_nil]
    exact ⟨u, rfl, h, hf⟩
  case isFalse hpos =>
    have hn1 : 1 ≤ n := Nat.pos_of_ne_zero hpos
    have hwf : (Instr.run n).wf = true := decide_eq_true ⟨hn1, hn⟩
    have hexec := execRun_eq_gives (n := n) (by rw [h.count, h.n_eq]; exact hle) (h.room hb hle)
    rw [h.cur] at hexec
    rw [List.flatMap_singleton] at hf
    obtain ⟨hturn, hfollows, hrest⟩ := h.item hb hwf rfl hn1 hle hexec (h.caches.insert_held hprev) hf
      (isMarker_encode hwf rfl (by simp) rest).1
    rw [if_neg hpos]
    exact ⟨_, by rw [List.length_singleton, decTurns, hturn]; rfl, hfollows, hrest⟩

/-- The item selected for a pixel: DEC resolves that pixel (R154 to R158, R165). -/
theorem Follows.selectItem (h : Follows b done c prev u) {p : Pixel} {rest : List Byte}
    (hle : done.length + 1 ≤ b.dec.n) (hf : u.dec.fifo = encode (selectItem c p prev) ++ rest)
    (hm : isMarker (encode (selectItem c p prev) ++ rest) = false) : ∃ v,
    decTurn u = .next v ∧ Follows b (done ++ [p]) (Cache.insert c p) p v ∧ v.dec.fifo = rest := by
  obtain ⟨hwf, hop⟩ := selectItem_opcode c p prev
  have hroom := h.room hb hle
  rw [Nat.add_mul, Nat.one_mul] at hroom
  have hexec := (exec_selectItem (p := p) h.caches.hit).trans (resolve_eq_gives hroom)
  rw [h.cur] at hexec
  exact ⟨_, h.item hb hwf hop le_rfl hle hexec (h.caches.insert p) hf hm⟩

/-- What is coded but not emitted. -/
def Coder.pending (x : Coder) : List Pixel := List.replicate x.run x.prev

/-- The items of one pixel: DEC's coding state steps as ENC's does (R165). -/
theorem Follows.pixel {x : Coder} (h : Follows b done x.cache x.prev u) (hx : x.Ok) {p : Pixel} {rest : List Byte}
    (hle : (done ++ x.pending).length < b.dec.n) (hf : u.dec.fifo = (x.emits p).flatMap encode ++ rest)
    (hm : (x.next p).Unmarked rest) : ∃ v done',
    decTurns (x.emits p).length u = .next v ∧ Follows b done' (x.next p).cache (x.next p).prev v ∧
      v.dec.fifo = rest ∧ done' ++ (x.next p).pending = done ++ x.pending ++ [p] := by
  have hrun := hx.run_le
  rw [Coder.pending, List.length_append, List.length_replicate] at hle
  by_cases hp : p = x.prev
  · subst hp
    have hpending : done ++ x.pending ++ [x.prev] = done ++ List.replicate (x.run + 1) x.prev := by
      rw [Coder.pending, List.append_assoc, List.replicate_succ']
    rw [hpending]
    by_cases hfull : x.run + 1 = 62
    · obtain ⟨hemits, hnext⟩ := Coder.step_full hfull
      rw [hemits] at hf ⊢
      rw [hnext, hfull]
      obtain ⟨v, hv, hfollows, hrest⟩ := h.runItems hb hx.held le_rfl (by omega) hf
      exact ⟨v, _, hv, hfollows, hrest, List.append_nil _⟩
    · obtain ⟨hemits, hnext⟩ := Coder.step_join hfull
      rw [hemits] at hf ⊢
      rw [hnext]
      exact ⟨u, done, rfl, h, hf, rfl⟩
  · obtain ⟨hemits, hnext⟩ := Coder.step_code hp
    rw [hnext] at hm ⊢
    rw [hemits, List.flatMap_append, List.flatMap_singleton, List.append_assoc] at hf
    obtain ⟨v, hv, hfollows, hrest⟩ := h.runItems hb hx.held (by omega) (by omega) hf
    obtain ⟨w, hw, hfollows', hrest'⟩ := hfollows.selectItem hb
      (by rw [List.length_append, List.length_replicate]; omega) hrest (isMarker_selectItem hm)
    refine ⟨w, _, ?_, hfollows', hrest', List.append_nil _⟩
    rw [hemits, List.length_append, decTurns_add, hv, andThen_next, List.length_singleton, decTurns, hw]
    rfl

/-- The items of the pixels still to come: DEC resolves what is pending and those pixels, and stands at the marker. -/
theorem Follows.items {x : Coder} (ps : List Pixel) (h : Follows b done x.cache x.prev u) (hx : x.Ok)
    (hle : (done ++ x.pending ++ ps).length ≤ b.dec.n)
    (hf : u.dec.fifo = (x.items ps).flatMap encode ++ marker) : ∃ v,
    decTurns (x.items ps).length u = .next v ∧
      Follows b (done ++ x.pending ++ ps) (x.after ps).cache (x.after ps).prev v ∧ v.dec.fifo = marker := by
  induction ps generalizing x done u with
  | nil =>
    have hrun := hx.run_le
    rw [List.append_nil, Coder.pending, List.length_append, List.length_replicate] at hle
    rw [List.append_nil]
    exact h.runItems hb hx.held (by omega) hle hf
  | cons p ps ih =>
    have hlast : done ++ x.pending ++ p :: ps = done ++ x.pending ++ [p] ++ ps := List.append_cons _ p ps
    rw [Coder.items, List.flatMap_append, List.append_assoc] at hf
    rw [hlast] at hle
    obtain ⟨v, done', hv, hfollows, hrest, hdone⟩ := h.pixel hb hx
      (by simp only [List.length_append, List.length_singleton] at hle ⊢; omega) hf ((hx.next p).unmarked ps)
    rw [← hdone] at hle
    obtain ⟨w, hw, hfollows', hrest'⟩ := ih hfollows (hx.next p) hle hrest
    rw [hdone, ← hlast] at hfollows'
    exact ⟨w, by rw [Coder.items, List.length_append, decTurns_add, hv, andThen_next, hw], hfollows', hrest'⟩

/-- The marker, once every pixel is out, ends the session (R160). -/
theorem Follows.finish (h : Follows b done c prev u) (hk : done.length = b.dec.n) (hf : u.dec.fifo = marker) :
    decTurn u = .next u.finishDec := by
  rw [h.turn hb (bodyAct_marker (by rw [hf]; rfl)), exec, execEndMark, if_pos (by rw [h.count, h.n_eq, hk])]

end

theorem decTurns_of_not_busy (n : Nat) {s : State} (h : s.dec.state ≠ .busy) : decTurns n s = .next s := by
  induction n with
  | zero => rfl
  | succ n ih => rw [decTurns, decTurn_of_not_busy h, andThen_next, ih]

theorem item_size_pos (i : Instr) : 1 ≤ i.size := by cases i <;> simp [Instr.size]

theorem length_le_encoded (items : List Instr) : items.length ≤ (items.flatMap encode).length := by
  induction items with
  | nil => exact le_rfl
  | cons i items ih =>
    rw [List.flatMap_cons, List.length_append, encode_length, List.length_cons]
    have := item_size_pos i
    omega

theorem decAct_hdr {d : Dec} {w h : Word} {ch cs : Byte} {rest : List Byte} (hph : d.phase = .hdr)
    (hd : d.input = hdr w h ch cs ++ rest) : decAct d = .run (.header w h ch cs) := by
  have hheader : headerAct d = .run (.header w h ch cs) := by rw [headerAct, hd, decodeHeader_hdr]
  rw [decAct, hph]
  exact hheader

/-- DEC at the body of the session on the stream `bs` whose header names w, h, ch and cs (41_decoder.md R151). -/
def bodyState (bs : List Byte) (w h : Word) (ch cs : Byte) (u : State) : State :=
  ((decSession bs u).setHeader w h ch cs).beginBody

/-- What DEC holds at the end of a session that gave the pixels ps, ENC's cache being c. -/
structure Decoded (w h : Word) (ch cs : Byte) (ps : List Pixel) (c : Cache) (v : State) : Prop where
  state : v.dec.state = .done
  width : v.dec.w = w
  height : v.dec.h = h
  channels : v.dec.ch = ch
  colorspace : v.dec.cs = cs
  count : v.dec.k.toNat = ps.length
  caches : CachesMatch c v.dec.cache
  pixels : ∀ a, a < (ps.flatMap (pixelBytes ch)).length → Memory.lookup v.pixD a = (ps.flatMap (pixelBytes ch))[a]?

section
variable {w h : Word} {ch cs : Byte} {u : State} (himage : imageOk u.params.pixMemBytes w h ch)
include himage

/-- The header step admits the image (41_decoder.md R151). -/
theorem decTurn_header (rest : List Byte) : decTurn (decSession (hdr w h ch cs ++ rest) u) =
    .next (bodyState (hdr w h ch cs ++ rest) w h ch cs u) := by
  have henabled : decEnabled (decSession (hdr w h ch cs ++ rest) u).dec = true := decEnabled_iff.2 ⟨rfl, .inr rfl⟩
  have hact : decAct (decSession (hdr w h ch cs ++ rest) u).dec = .run (.header w h ch cs) :=
    decAct_hdr rfl rfl
  have hadmit : imageError? (decSession (hdr w h ch cs ++ rest) u).params.pixMemBytes w h ch = none :=
    (imageError_none_iff _ _ _ _).2 himage
  rw [decTurn, if_pos henabled, hact]
  change execHeader w h ch cs _ = _
  rw [execHeader, hadmit]
  rfl

theorem bodyState_admitted (hmem : u.params.pixMemBytes ≤ 2 ^ 48) (bs : List Byte) :
    AdmittedBody (bodyState bs w h ch cs u) := ⟨rfl, rfl, rfl, himage, hmem⟩

omit himage in
theorem bodyState_follows (bs : List Byte) :
    Follows (bodyState bs w h ch cs u) [] Coder.start.cache Coder.start.prev (bodyState bs w h ch cs u) where
  params := rfl
  regs := rfl
  count := rfl
  pos_le := le_rfl
  cur := rfl
  caches := .init
  pixels := fun _ ha => absurd ha (Nat.not_lt_zero _)

/-- `decode` of the header, the items ENC codes pixels by, and the marker (R161, R165). -/
theorem decodeStream_items (hmem : u.params.pixMemBytes ≤ 2 ^ 48) {ps : List Pixel}
    (hn : ps.length = pixelCount w h) : ∃ v,
    decodeStream (hdr w h ch cs ++ ((Coder.start.items ps).flatMap encode ++ marker)) u = .next v ∧
      Decoded w h ch cs ps (Coder.start.after ps).cache v := by
  generalize hbs : hdr w h ch cs ++ ((Coder.start.items ps).flatMap encode ++ marker) = bs
  have hb : AdmittedBody (bodyState bs w h ch cs u) := bodyState_admitted himage hmem bs
  have hfifo : (bodyState bs w h ch cs u).dec.fifo = (Coder.start.items ps).flatMap encode ++ marker := by
    rw [← hbs]
    rfl
  obtain ⟨v, hv, hfollows, hrest⟩ := (bodyState_follows bs).items hb ps Coder.start_ok (by exact hn.le) hfifo
  rw [show [] ++ Coder.start.pending ++ ps = ps from rfl] at hfollows
  have hfinish := hfollows.finish hb hn hrest
  obtain ⟨slack, hslack⟩ : ∃ slack, bs.length = (Coder.start.items ps).length + (slack + 1) := by
    have hle := length_le_encoded (Coder.start.items ps)
    have hlen : bs.length = 14 + (((Coder.start.items ps).flatMap encode).length + 8) := by
      rw [← hbs, List.length_append, hdr_length, List.length_append]
      rfl
    exact ⟨bs.length - (Coder.start.items ps).length - 1, by omega⟩
  refine ⟨v.finishDec, ?_, ?_⟩
  · have hturn := decTurn_header (cs := cs) himage ((Coder.start.items ps).flatMap encode ++ marker)
    rw [hbs] at hturn
    rw [decodeStream, decTurns, hturn, andThen_next, hslack, decTurns_add, hv, andThen_next, decTurns, hfinish,
      andThen_next, decTurns_of_not_busy _ (by simp)]
  · have hregs := hfollows.regs
    constructor
    case state => rfl
    case width => rw [State.finishDec_dec, hregs]; rfl
    case height => rw [State.finishDec_dec, hregs]; rfl
    case channels => rw [State.finishDec_dec, hregs]; rfl
    case colorspace => rw [State.finishDec_dec, hregs]; rfl
    case count => exact hfollows.count
    case caches => exact hfollows.caches
    case pixels => exact hfollows.pixels

end

/-! ### The image and its bytes -/

theorem Memory.bytesAt_add (m : Memory) (d a n k : Nat) :
    Memory.bytesAt m d a (n + k) = Memory.bytesAt m d a n ++ Memory.bytesAt m (d + n) (a + n) k := by
  rw [Memory.bytesAt, List.range_add, List.map_append, List.map_map]
  simp only [Memory.bytesAt, Function.comp_def, Nat.add_assoc]

theorem Memory.getElem?_bytesAt (m : Memory) (d a : Nat) {n j : Nat} (hj : j < n) :
    (Memory.bytesAt m d a n)[j]? = some (Memory.byteAt m (d + j) (a + j)) := by
  rw [Memory.bytesAt, List.getElem?_map, List.getElem?_range hj, Option.map_some]

theorem pixelBytes_pixelOfBytes {ch : Byte} (hch : ch = 3 ∨ ch = 4) {bs : List Byte} (h : bs.length = pixelSize ch) :
    pixelBytes ch (pixelOfBytes ch bs) = bs := by
  rcases hch with rfl | rfl
  · match bs, h with
    | [b0, b1, b2], _ => rfl
  · match bs, h with
    | [b0, b1, b2, b3], _ => rfl

/-- The bytes of the pixels are those of PIX_E, each unwritten one a draw of its own (20_memory.md R69; log 2). -/
theorem imageFrom_bytes {s : State} (hch : s.enc.channels = 3 ∨ s.enc.channels = 4) (k m : Nat) :
    (s.imageFrom k m).flatMap (pixelBytes s.enc.channels) = Memory.bytesAt s.pixE
      (s.draws + k * s.enc.channels.toNat) (k * s.enc.channels.toNat) (m * s.enc.channels.toNat) := by
  induction m generalizing k with
  | zero => rw [Nat.zero_mul]; rfl
  | succ m ih =>
    rw [State.imageFrom_succ, List.flatMap_cons, ih, State.imagePixel,
      pixelBytes_pixelOfBytes hch (Memory.bytesAt_length _ _ _ _), pixelSize_of_legal hch, Nat.succ_mul m,
      Nat.add_comm (m * _), Memory.bytesAt_add, Nat.succ_mul k, Nat.add_assoc]

theorem State.image_length (s : State) : s.image.length = s.enc.n := by
  rw [State.image, State.imageFrom, List.length_map, List.length_range']

/-- Every admitted image is encoded to DONE, and DEC decodes the stream to that image (R165). -/
theorem encode_decode {s u : State} (hs : encodable s) (hmem : u.params.pixMemBytes = s.params.pixMemBytes) :
    ∃ out t v, encodeImage s = some (out, t) ∧ t.enc.state = .done ∧ decodeStream out u = .next v ∧
      Decoded s.enc.width s.enc.height s.enc.channels (s.enc.colorspace.setWidth 8) s.image t.enc.cache v := by
  obtain ⟨t, ht, hdone, hcache⟩ := encodeImage_eq hs
  obtain ⟨-, hle, -, himage⟩ := hs
  rw [← hmem] at hle himage
  obtain ⟨v, hv, hdecoded⟩ := decodeStream_items (cs := s.enc.colorspace.setWidth 8) himage hle s.image_length
  exact ⟨_, t, v, ht, hdone, hv, hcache ▸ hdecoded⟩

/-- Settles O40: DEC's pixels are ENC's, and with every byte written the pixels are the bytes of PIX_E. -/
theorem roundTrip : Obligations.RoundTrip := by
  intro s u hs hmem hwritten
  obtain ⟨out, t, v, hencode, hdone, hdecode, h⟩ := encode_decode hs hmem
  obtain ⟨-, -, -, hch, -⟩ := hs
  refine ⟨out, t, v, hencode, hdone, hdecode, h.state, h.width, h.height, h.channels, h.colorspace,
    h.count.trans s.image_length, fun a ha => ?_⟩
  obtain ⟨b, hb⟩ := hwritten a ha
  have hpixels := h.pixels a
  rw [State.image, imageFrom_bytes hch, Memory.bytesAt_length, Memory.getElem?_bytesAt _ _ _ ha, Nat.zero_mul,
    Nat.zero_add, Memory.byteAt_of_lookup _ hb] at hpixels
  rw [hpixels ha, hb]

/-- Settles O41: the caches agree along the session, slot 53 apart. -/
theorem cachesAgree : Obligations.CachesAgree := by
  intro s u hs hmem
  obtain ⟨out, t, v, hencode, -, hdecode, h⟩ := encode_decode hs hmem
  exact ⟨out, t, v, hencode, hdecode, h.caches⟩

end Sys2Proof.Machine
end

section
/-!
PROOFS. The rules of the decoder (spec/41_decoder.md): the header step and the body step with the order of their tests
(R151 to R153), the six opcodes and the end marker (R154 to R160), that DEC undoes ENC's selection (R165), that a step
runs the item at DEC.pos (spec/43_control.md R250), and that decode ends for every stream (R161; spec/43_control.md
R269).
-/

open Sys2Proof Sys2Proof.Machine Sys2Proof.Claims

namespace Sys2Proof.Machine

/-! ### What DEC's turn is, by what its step does -/

theorem decTurn_run {s : State} {i : Instr} (he : decEnabled s.dec = true) (ha : decAct s.dec = .run i) :
    decTurn s = exec i s := by
  rw [decTurn, if_pos he, ha]

theorem decTurn_fail {s : State} {c : ErrCode} (he : decEnabled s.dec = true) (ha : decAct s.dec = .fail c) :
    decTurn s = .next (decError s c) := by
  rw [decTurn, if_pos he, ha]
  rfl

theorem decAct_header {d : Dec} (h : d.phase = .hdr) : decAct d = headerAct d := by rw [decAct, h]

theorem decAct_body {d : Dec} (h : d.phase = .body) : decAct d = bodyAct d := by rw [decAct, h]

/-- With the stream pushed whole DEC never holds (R66). -/
theorem decEnabled_of_last {d : Dec} (hb : d.state = .busy) (hl : d.inLast = true) : decEnabled d = true :=
  decEnabled_iff.2 ⟨hb, .inr hl⟩

/-- A step with the bytes it needs, or with IN_LAST set, is enabled (R66). -/
theorem decEnabled_of_not_hold {d : Dec} (hb : d.state = .busy)
    (h : ¬ (d.avail - d.pos.toNat < decNeed d ∧ d.inLast = false)) : decEnabled d = true := by
  refine decEnabled_iff.2 ⟨hb, ?_⟩
  rcases Nat.lt_or_ge (d.avail - d.pos.toNat) (decNeed d) with hlt | hge
  · exact .inr (Bool.eq_true_of_not_eq_false fun hl => h ⟨hlt, hl⟩)
  · exact .inl hge

/-! ### The header -/

/-- HEADER makes the size checks in the order of 60_exceptions.md R304. -/
theorem execHeader_eq (w h : Word) (ch cs : Byte) (s : State) : execHeader w h ch cs s =
    if ch ≠ 3 ∧ ch ≠ 4 then .next ((s.setHeader w h ch cs).raiseDec .invalidChannelCount)
    else if pixelCount w h = 0 then .next ((s.setHeader w h ch cs).raiseDec .emptyImage)
    else if s.params.pixMemBytes < pixelCount w h * ch.toNat then
      .next ((s.setHeader w h ch cs).raiseDec .bufferTooSmall)
    else .next (s.setHeader w h ch cs).beginBody := by
  rw [execHeader, imageError?]
  split_ifs <;> rfl

theorem execHeader_raises {s : State} {w h : Word} {ch cs : Byte} {c : ErrCode}
    (he : imageError? s.params.pixMemBytes w h ch = some c) :
    execHeader w h ch cs s = .next ((s.setHeader w h ch cs).raiseDec c) := by
  rw [execHeader, he]

theorem execHeader_admits {s : State} {w h : Word} {ch cs : Byte} (hok : imageOk s.params.pixMemBytes w h ch) :
    execHeader w h ch cs s = .next (s.setHeader w h ch cs).beginBody := by
  rw [execHeader, (imageError_none_iff _ _ _ _).2 hok]

/-- Settles O12: the size checks, each where those before it pass. -/
theorem headerItem : Obligations.HeaderItem := by
  refine fun s w h ch cs => ⟨fun hok => execHeader_admits hok, fun hch => ?channels, fun hch hn => ?empty,
    fun hch hbig => ?large⟩
  case channels => exact (execHeader_eq w h ch cs s).trans (if_pos hch)
  case empty =>
    exact (execHeader_eq w h ch cs s).trans ((if_neg fun hne => hch.elim hne.1 hne.2).trans (if_pos hn))
  case large =>
    have hn : pixelCount w h ≠ 0 := left_ne_zero_of_mul (Nat.ne_zero_of_lt hbig)
    exact (execHeader_eq w h ch cs s).trans
      ((if_neg fun hne => hch.elim hne.1 hne.2).trans ((if_neg hn).trans (if_pos hbig)))

/-- The big-endian word at byte j of a stream (20_memory.md R70). -/
def wordAt (bs : List Byte) (j : Nat) : Word :=
  BitVec.ofNat 32 ((bs.getD j 0).toNat * 2 ^ 24 + (bs.getD (j + 1) 0).toNat * 2 ^ 16 +
    (bs.getD (j + 2) 0).toNat * 2 ^ 8 + (bs.getD (j + 3) 0).toNat)

theorem word32BE_eq_ofNat (b0 b1 b2 b3 : Byte) : word32BE b0 b1 b2 b3 =
    BitVec.ofNat 32 (b0.toNat * 2 ^ 24 + b1.toNat * 2 ^ 16 + b2.toNat * 2 ^ 8 + b3.toNat) := by
  apply BitVec.eq_of_toNat_eq
  rw [word32BE, toNat_append_add, toNat_append_add, toNat_append_add, BitVec.toNat_ofNat]
  have := b0.isLt
  have := b1.isLt
  have := b2.isLt
  have := b3.isLt
  omega

/-! The header step's first two checks (R151), each by what decides it. -/

theorem headerAct_no_magic {d : Dec} (h : d.input.take 4 ≠ magic) : headerAct d = .fail .badMagic := by
  rw [headerAct, decodeHeader, if_neg h]

theorem headerAct_short {d : Dec} (h : d.input.take 4 = magic) (hlen : d.input.length < 14) :
    headerAct d = .fail .truncatedStream := by
  rw [headerAct]
  cases hd : decodeHeader d.input with
  | ok x =>
    have := (decodeHeader_ok hd).2
    omega
  | error e =>
    rw [decodeHeader, if_pos h] at hd
    split at hd <;> cases hd
    rfl

theorem headerAct_whole {d : Dec} (h : d.input.take 4 = magic) (hlen : 14 ≤ d.input.length) :
    headerAct d = .run (.header (wordAt d.input 4) (wordAt d.input 8) (d.input.getD 12 0) (d.input.getD 13 0)) := by
  obtain ⟨w0, w1, w2, w3, h0, h1, h2, h3, ch, cs, rest, hd⟩ :
      ∃ w0 w1 w2 w3 h0 h1 h2 h3 ch cs rest,
        d.input.drop 4 = w0 :: w1 :: w2 :: w3 :: h0 :: h1 :: h2 :: h3 :: ch :: cs :: rest :=
    ⟨d.input[4], d.input[5], d.input[6], d.input[7], d.input[8], d.input[9], d.input[10], d.input[11], d.input[12],
      d.input[13], d.input.drop 14, by simp only [List.getElem_cons_drop]⟩
  have hbytes : d.input = magic ++ w0 :: w1 :: w2 :: w3 :: h0 :: h1 :: h2 :: h3 :: ch :: cs :: rest := by
    rw [← h, ← hd, List.take_append_drop]
  have hact : headerAct d = .run (.header (word32BE w0 w1 w2 w3) (word32BE h0 h1 h2 h3) ch cs) := by
    rw [headerAct, hbytes]
    rfl
  rw [hact, word32BE_eq_ofNat, word32BE_eq_ofNat, hbytes]
  rfl

/-- Settles O11: the hold, the magic and the length are decided here, the size checks by HEADER. -/
theorem headerStepRule : Obligations.HeaderStepRule := by
  intro s hb hph hpos bs by4 w h ch cs t
  have havail : s.dec.avail - s.dec.pos.toNat = bs.length := by rw [hpos]; rfl
  have hneed : decNeed s.dec = 14 := decNeed_hdr hph
  have hact := decAct_header hph
  by_cases hhold : bs.length < 14 ∧ s.dec.inLast = false
  · rw [if_pos hhold]
    exact decHoldRule.1 s (by rw [havail, hneed]; exact hhold.1) hhold.2
  rw [if_neg hhold]
  have he : decEnabled s.dec = true := decEnabled_of_not_hold hb (by rw [havail, hneed]; exact hhold)
  by_cases hmagic : bs.take 4 = magic
  case neg =>
    rw [if_pos (.inr hmagic)]
    exact decTurn_fail he (hact.trans (headerAct_no_magic hmagic))
  have hfirst : ¬ (bs.length < 4 ∨ bs.take 4 ≠ [0x71, 0x6F, 0x69, 0x66]) := by
    have hfour : min 4 bs.length = 4 := List.length_take.symm.trans (congrArg List.length hmagic)
    exact not_or.2 ⟨by omega, not_not.2 hmagic⟩
  rw [if_neg hfirst]
  by_cases hlen : bs.length < 14
  · rw [if_pos hlen]
    exact decTurn_fail he (hact.trans (headerAct_short hmagic hlen))
  · rw [if_neg hlen, decTurn_run he (hact.trans (headerAct_whole hmagic (Nat.not_lt.1 hlen)))]
    exact execHeader_eq w h ch cs s

/-! ### The body -/

theorem bodyAct_full_short {d : Dec} (hm : isMarker d.fifo = false) (hk : d.k.toNat = d.n) (hlen : d.fifo.length < 8) :
    bodyAct d = .fail .missingEndMarker := by
  rw [bodyAct, hm, if_neg Bool.false_ne_true, if_pos hk, if_pos hlen]

theorem bodyAct_nil {d : Dec} (hk : d.k.toNat ≠ d.n) (hf : d.fifo = []) : bodyAct d = .fail .missingEndMarker := by
  rw [bodyAct, hf, if_neg (by decide), if_neg hk]
  rfl

/-- The bytes of an opcode that is not whole are too few for the marker, too. -/
theorem bodyAct_truncated {d : Dec} {t : Byte} {tl : List Byte} (hk : d.k.toNat ≠ d.n) (hf : d.fifo = t :: tl)
    (hlen : tl.length + 1 < oplen t) : bodyAct d = .fail .truncatedStream := by
  have hm : ¬ isMarker (t :: tl) = true := fun hm => by
    have h8 := isMarker_length hm
    have h5 := oplen_le t
    rw [List.length_cons] at h8
    omega
  rw [bodyAct, hf, if_neg hm, if_neg hk, decodeOp, if_pos hlen]

/-- Settles O13: the tests of the body step, each by what decides it. -/
theorem bodyStepOrder : Obligations.BodyStepOrder := by
  intro s hb n full need
  obtain ⟨hstate, hph⟩ := hb
  have hneed : decNeed s.dec = need := by rw [decNeed, hph]; rfl
  have hlen : s.dec.fifo.length = n := fifo_length s.dec
  have hact := decAct_body hph
  by_cases hhold : n < need ∧ s.dec.inLast = false
  · rw [if_pos hhold]
    exact decHoldRule.1 s (by rw [hneed]; exact hhold.1) hhold.2
  rw [if_neg hhold]
  have he : decEnabled s.dec = true := decEnabled_of_not_hold hstate (by rw [hneed]; exact hhold)
  cases hm : isMarker s.dec.fifo with
  | true =>
    rw [if_pos rfl]
    exact decTurn_run he (hact.trans (bodyAct_marker hm))
  | false =>
    rw [if_neg Bool.false_ne_true]
    by_cases hk : full
    · rw [if_pos hk]
      by_cases h8 : n < 8
      · rw [if_pos h8]
        exact decTurn_fail he (hact.trans (bodyAct_full_short hm hk (by omega)))
      · rw [if_neg h8]
        exact decTurn_fail he (hact.trans (bodyAct_full hm hk (by omega)))
    · rw [if_neg hk]
      cases hf : s.dec.fifo with
      | nil => exact decTurn_fail he (hact.trans (bodyAct_nil hk hf))
      | cons t tl =>
        rw [hf, List.length_cons] at hlen
        by_cases hop : n < oplen t
        · exact (decTurn_fail he (hact.trans (bodyAct_truncated hk hf (by omega)))).trans (if_pos hop).symm
        · exact (decTurn_run he (hact.trans (bodyAct_opcode hm hk hf (by omega)))).trans (if_neg hop).symm

/-- With IN_LAST set, an opcode that is not whole is a truncated stream (R153). -/
theorem decTurn_truncated {s : State} {t : Byte} {tl : List Byte} (hb : inBody s.dec) (hl : s.dec.inLast = true)
    (hk : s.dec.k.toNat ≠ s.dec.n) (hf : s.dec.fifo = t :: tl) (hlen : tl.length + 1 < oplen t) :
    decTurn s = .next (decError s .truncatedStream) :=
  decTurn_fail (decEnabled_of_last hb.1 hl) ((decAct_body hb.2).trans (bodyAct_truncated hk hf hlen))

/-! ### The opcodes and the end marker -/

theorem execEndMark_done {s : State} (hk : s.dec.k.toNat = s.dec.n) : execEndMark s = .next s.finishDec := if_pos hk

theorem execEndMark_early {s : State} (hk : s.dec.k.toNat ≠ s.dec.n) :
    execEndMark s = .next (s.raiseDec .pixelCountMismatch) := if_neg hk

theorem execRun_past {s : State} {len : Nat} (h : s.dec.n < s.dec.k.toNat + len) :
    execRun len s = .next (s.raiseDec .pixelCountMismatch) := if_pos h

/-- Settles O14: RGBA resolves its payload. -/
theorem rgbaRule : Obligations.RgbaRule :=
  ⟨fun _ _ _ _ _ hfit => resolve_eq_afterPixel hfit _ 5, fun r g b a rest => decodeBody_rgba rest r g b a,
    fun _ _ hb hl hk hf hlen => decTurn_truncated hb hl hk hf (Nat.succ_lt_succ hlen)⟩

/-- Settles O15: RGB resolves its payload with the predictor's alpha. -/
theorem rgbRule : Obligations.RgbRule :=
  ⟨fun _ _ _ _ hfit => resolve_eq_afterPixel hfit _ 4, fun r g b rest => decodeBody_rgb rest r g b,
    fun _ _ hb hl hk hf hlen => decTurn_truncated hb hl hk hf (Nat.succ_lt_succ hlen)⟩

/-- Settles O16: the encoding of INDEX i is the tag i, which decodes to it where the marker does not begin. -/
theorem indexRule : Obligations.IndexRule :=
  ⟨fun _ _ hfit => resolve_eq_afterPixel hfit _ 1,
    fun i rest hm => (decodeOfEncode (.index i) rest rfl).2 (fun _ _ _ _ => Instr.noConfusion) (.inr hm),
    decodeBody_marker⟩

/-- Settles O18: the decoded deltas are the fields less their bias, and LUMA resolves the pixel they are added to. -/
theorem lumaRule : Obligations.LumaRule := by
  refine ⟨fun s t x rest h => ⟨_, _, _, decodeBody_luma rest x h, fun hfit => ?fields⟩,
    fun s dg u v hfit => resolve_eq_afterPixel hfit _ 2, fun s t hb hl hk h hf => ?truncated⟩
  case fields =>
    rw [exec, execLuma, resolve_eq_afterPixel hfit, pixelLuma, pixelDiff, addDelta, addDelta, addDelta,
      BitVec.ofInt_add, BitVec.ofInt_add, ofInt_biased, ofInt_biased, ofInt_biased]
    rfl
  case truncated => exact decTurn_truncated hb hl hk hf (by rw [oplen_luma h]; decide)

/-- Settles O19: a RUN not past N is `storeRun`, whose cache is that of one insert. -/
theorem runRule : Obligations.RunRule := by
  refine ⟨fun s len hpast => execRun_past hpast, fun s len h1 hle hroom => ?fits,
    fun t rest h hfe hff => decodeBody_run rest h hff hfe⟩
  case fits =>
    rw [exec, execRun_of_room hle (.inr hroom), State.storeRun, if_neg (Nat.ne_of_gt h1)]
    rfl

/-- Settles O20: END compares k with N. -/
theorem endRule : Obligations.EndRule := fun _ => ⟨execEndMark_done, execEndMark_early, decodeBody_marker⟩

/-! ### ENC's selection -/

/-- Settles O36: the selected item is a well-formed opcode, and executing it resolves the pixel it was selected for. -/
theorem selectionInverts : Obligations.SelectionInverts := fun _ c p hfit hit =>
  ⟨(selectItem_opcode c p _).1, (exec_selectItem hit).trans (resolve_eq_afterPixel hfit p _)⟩

/-! ### The step -/

/-- The body step runs what its bytes decode to: END, or an opcode while a pixel is missing (R153). -/
theorem bodyAct_of_decodeBody {d : Dec} {i : Instr} {rest : List Byte} (hk : d.k.toNat ≠ d.n ∨ i = .endMark)
    (h : decodeBody d.fifo = .ok (i, rest)) : bodyAct d = .run i := by
  cases hm : isMarker d.fifo with
  | true =>
    rw [decodeBody, if_pos hm] at h
    cases h
    exact bodyAct_marker hm
  | false =>
    rw [decodeBody_of_no_marker hm] at h
    obtain ⟨t, tl, hf, hlen, rfl, -⟩ := decodeOp_ok h
    have hop := assemble_isOpcode t tl
    have hk : d.k.toNat ≠ d.n := hk.resolve_right fun hend => by rw [hend] at hop; cases hop
    rw [hf, List.length_cons] at hlen
    exact bodyAct_opcode hm hk hf hlen

/-- Settles O57: DEC's turn is the step, and it runs what the bytes decode to. -/
theorem stepRunsDecoded : Obligations.StepRunsDecoded := by
  intro s i rest hturn he
  have hstep : step s = decTurn s.beginTurn := by rw [step, hturn]; rfl
  refine ⟨fun hph hk hd => ?body, fun hph hd => ?header, _, rfl⟩
  case body => exact hstep.trans (decTurn_run he ((decAct_body hph).trans (bodyAct_of_decodeBody hk hd)))
  case header =>
    have hact : headerAct s.dec = .run i := by rw [headerAct, hd]
    exact hstep.trans (decTurn_run he ((decAct_header hph).trans hact))

/-! ### Every stream ends -/

/-- In the body of an admitted image an opcode raises PIXEL_COUNT_MISMATCH, or resolves at least one pixel and none past
N (R153 to R159). -/
theorem exec_opcode {s : State} (hB : s.dec.InBody s.params) (hk : s.dec.k.toNat ≠ s.dec.n) {i : Instr}
    (hop : i.isOpcode = true) (hwf : i.wf = true) :
    exec i s = .next (s.raiseDec .pixelCountMismatch) ∨
    ∃ p n, 1 ≤ n ∧ s.dec.k.toNat + n ≤ s.dec.n ∧ exec i s = .next (s.gives p n i.size) := by
  by_cases hr : ∃ len, i = .run len
  · obtain ⟨len, rfl⟩ := hr
    simp only [Instr.wf, decide_eq_true_eq] at hwf
    rcases Nat.lt_or_ge s.dec.n (s.dec.k.toNat + len) with hpast | hle
    · exact .inl (execRun_past hpast)
    · exact .inr ⟨_, len, hwf.1, hle, execRun_eq_gives hle (hB.room hle)⟩
  · obtain ⟨p, hp⟩ := exec_single s hop (not_exists.1 hr)
    have hle : s.dec.k.toNat + 1 ≤ s.dec.n := Nat.lt_of_le_of_ne hB.k_le hk
    have hroom := hB.room hle
    rw [Nat.add_mul, Nat.one_mul] at hroom
    exact .inr ⟨p, 1, le_rfl, hle, hp.trans (resolve_eq_gives hroom)⟩

/-- An opcode that resolves pixels leaves DEC in the body, with fewer bytes of the stream before it (R150). -/
theorem AdmittedBody.gives {s : State} (hb : AdmittedBody s) (hB : s.dec.InBody s.params) (p : Pixel) {n len : Nat}
    (hn : 1 ≤ n) (hle : s.dec.k.toNat + n ≤ s.dec.n) (hpos : 1 ≤ len) (hlen : len ≤ 5)
    (hfifo : len ≤ s.dec.fifo.length) : AdmittedBody (s.gives p n len) ∧
      (s.gives p n len).dec.InBody (s.gives p n len).params ∧
      (s.gives p n len).dec.fifo.length < s.dec.fifo.length := by
  have hcache : Cache.placed (s.gives p n len).dec.cache := by
    have hn0 : n ≠ 0 := by omega
    simp only [State.gives, State.storeRun, State.advance_dec, if_neg hn0]
    exact Cache.placed_insert hB.cache p
  obtain ⟨hB', hpos'⟩ := hB.step (e := (s.gives p n len).dec) hb.mem_le hn hlen hle rfl rfl rfl rfl rfl hcache
  have havail : (s.gives p n len).dec.avail = s.dec.avail := rfl
  refine ⟨⟨hb.state, hb.phase, hb.last, hb.image, hb.mem_le⟩, hB', ?_⟩
  rw [fifo_length] at hfifo ⊢
  rw [fifo_length, hpos', havail]
  omega

/-- A turn in the body ends the session or takes at least one byte of the stream, and then DEC is in the body again. -/
theorem AdmittedBody.turn {s : State} (hb : AdmittedBody s) (hB : s.dec.InBody s.params) :
    ∃ t, decTurn s = .next t ∧ ((t.dec.state = .done ∨ t.dec.state = .error) ∨
      AdmittedBody t ∧ t.dec.InBody t.params ∧ t.dec.fifo.length < s.dec.fifo.length) := by
  have he := decEnabled_of_last hb.state hb.last
  have hact := decAct_body hb.phase
  cases ha : bodyAct s.dec with
  | fail c => exact ⟨_, decTurn_fail he (hact.trans ha), .inl (.inr rfl)⟩
  | run i =>
    rw [decTurn_run he (hact.trans ha)]
    rcases bodyAct_run ha with ⟨rfl, -⟩ | ⟨hk, hop, hwf, hsize, -⟩
    · by_cases hk : s.dec.k.toNat = s.dec.n
      · exact ⟨_, execEndMark_done hk, .inl (.inl rfl)⟩
      · exact ⟨_, execEndMark_early hk, .inl (.inr rfl)⟩
    · rcases exec_opcode hB hk hop hwf with hx | ⟨p, n, hn, hle, hx⟩
      · exact ⟨_, hx, .inl (.inr rfl)⟩
      · exact ⟨_, hx, .inr (hb.gives hB p hn hle (item_size_pos i) (opcode_size_le hwf hop) hsize)⟩

/-- In the body one turn more than there are bytes left ends the session. -/
theorem AdmittedBody.ends {s : State} (m : Nat) (hb : AdmittedBody s) (hB : s.dec.InBody s.params)
    (hm : s.dec.fifo.length ≤ m) :
    ∃ t, decTurns (m + 1) s = .next t ∧ (t.dec.state = .done ∨ t.dec.state = .error) := by
  induction m generalizing s with
  | zero =>
    obtain ⟨t, ht, hend | ⟨-, -, hlt⟩⟩ := hb.turn hB
    · exact ⟨t, by rw [decTurns, ht]; rfl, hend⟩
    · omega
  | succ m ih =>
    obtain ⟨t, ht, hend | ⟨hb', hB', hlt⟩⟩ := hb.turn hB
    · have hidle : t.dec.state ≠ .busy := by rcases hend with h | h <;> rw [h] <;> decide
      exact ⟨t, by rw [decTurns, ht, andThen_next, decTurns_of_not_busy _ hidle], hend⟩
    · obtain ⟨u, hu, hend⟩ := ih hb' hB' (by omega)
      exact ⟨u, by rw [decTurns, ht, andThen_next, hu], hend⟩

/-- The header step of a whole stream raises an error, or enters the body of an admitted image at byte 14 (R151). -/
theorem decTurn_decSession (bs : List Byte) (s : State) :
    (∃ t, decTurn (decSession bs s) = .next t ∧ t.dec.state = .error) ∨
    ∃ w h ch cs, 14 ≤ bs.length ∧ imageOk s.params.pixMemBytes w h ch ∧
      decTurn (decSession bs s) = .next (bodyState bs w h ch cs s) := by
  have he : decEnabled (decSession bs s).dec = true := decEnabled_of_last rfl rfl
  have hact : decAct (decSession bs s).dec = headerAct (decSession bs s).dec := decAct_header rfl
  cases ha : headerAct (decSession bs s).dec with
  | fail c => exact .inl ⟨_, decTurn_fail he (hact.trans ha), rfl⟩
  | run i =>
    obtain ⟨⟨w, h, ch, cs, rfl⟩, hlen⟩ := headerAct_run ha
    rw [decTurn_run he (hact.trans ha)]
    cases herr : imageError? s.params.pixMemBytes w h ch with
    | some c => exact .inl ⟨_, execHeader_raises herr, rfl⟩
    | none =>
      have hok := (imageError_none_iff _ _ _ _).1 herr
      exact .inr ⟨w, h, ch, cs, hlen, hok, execHeader_admits hok⟩

theorem bodyState_inBody {s : State} {w h : Word} {ch : Byte} (hok : imageOk s.params.pixMemBytes w h ch) (cs : Byte)
    (bs : List Byte) : (bodyState bs w h ch cs s).dec.InBody s.params where
  image := hok
  k_le := Nat.zero_le _
  pos_ge := le_rfl
  pos_le := le_rfl
  cache := Cache.placed_init

/-- Settles O28: the header step errs or leaves 14 bytes fewer, and in the body each turn ends the session or takes at
least one byte. -/
theorem decodeTerminates : Obligations.DecodeTerminates := by
  intro bs s hmem
  rcases decTurn_decSession bs s with ⟨t, ht, herr⟩ | ⟨w, h, ch, cs, hlen, hok, hturn⟩
  · have hidle : t.dec.state ≠ .busy := by rw [herr]; decide
    exact ⟨t, by rw [decodeStream, decTurns, ht, andThen_next, decTurns_of_not_busy _ hidle], .inr herr⟩
  · obtain ⟨m, hm⟩ : ∃ m, bs.length = m + 1 := ⟨bs.length - 1, by omega⟩
    have hfifo : (bodyState bs w h ch cs s).dec.fifo.length = bs.length - 14 := fifo_length _
    obtain ⟨t, ht, hend⟩ := (bodyState_admitted hok hmem bs).ends m (bodyState_inBody hok cs bs) (by omega)
    exact ⟨t, by rw [decodeStream, decTurns, hturn, andThen_next, hm, ht], hend⟩

end Sys2Proof.Machine
end

section
/-!
PROOFS. The rules of the encoder (spec/42_encoder.md): what one pixel makes ENC emit and update (R202, R203, R209), that
three channels never take RGBA (R215), and that encode ends after N + 2 turns with a stream of the stated form and
length, or at START with an error and no byte (R211, R212; spec/43_control.md R253).
-/

open Sys2Proof Sys2Proof.Machine Sys2Proof.Claims

namespace Sys2Proof.Machine

/-! ### One pixel -/

/-- The pixel step changes ENC alone. -/
theorem encPixel_eq (p : Pixel) (s : State) : encPixel p s = { s with enc := (encPixel p s).enc } := by
  obtain ⟨e, he⟩ := encPixel_frame p s
  rw [he]

/-- Settles O34: the two updates of a run pixel and the update of any other, ENC's part being all that changes. -/
theorem encPixelRule : Obligations.EncPixelRule := by
  refine fun s p => ⟨fun hp hrun => ?join, fun hp hrun => ?full, fun hp => ?code⟩
  case join =>
    rw [hp, encPixel_eq, encPixel_run, if_neg hrun, if_neg hrun, if_neg hrun, List.append_nil, BitVec.add_zero]
    rfl
  case full =>
    rw [hp, encPixel_eq, encPixel_run, if_pos hrun, if_pos hrun, if_pos hrun]
    rfl
  case code =>
    intro flush bs
    have hbs : s.enc.flushBytes ++ encode (selectItem s.enc.cache p s.enc.prev) = bs := by rw [flushBytes_eq]
    rw [encPixel_eq, encPixel_code hp, ← hbs, List.length_append, flushBytes_length, encode_length,
      BitVec.ofNat_add, ← BitVec.add_assoc, ← List.append_assoc]
    rfl

/-- RGBA is selected only where alpha changes (42_encoder.md R208). -/
theorem selectItem_eq_rgba {c : Cache} {p prev : Pixel} {r g b a : Byte} (h : selectItem c p prev = .rgba r g b a) :
    p.a ≠ prev.a := by
  rcases selectItem_cases c p prev with ⟨he, -⟩ | ⟨he, -⟩ | ⟨he, -⟩ | ⟨he, -⟩ | ⟨-, ha⟩
  case inr.inr.inr.inr => exact ha
  all_goals rw [h] at he; cases he

/-- Settles O38: both alphas are 255, and RGBA needs two that differ. -/
theorem threeChannelsNoRgba : Obligations.ThreeChannelsNoRgba := by
  intro s hi hb hch
  have hprev : s.enc.prev.a = 255 := (hi.enc.session hb).alpha hch
  have hread : s.readPixel.a = 255 := readPixel_alpha hch
  exact ⟨hprev, hread, fun _ _ _ _ _ h => selectItem_eq_rgba h (hread.trans hprev.symm)⟩

/-! ### The items of a sequence of pixels -/

theorem mem_runItems {n : Nat} {i : Instr} (h : i ∈ runItems n) : n ≠ 0 ∧ i = .run n := by
  rw [runItems] at h
  split at h
  · cases h
  next hn => exact ⟨hn, List.mem_singleton.1 h⟩

theorem runItems_opcode {n : Nat} (hn : n ≤ 62) {i : Instr} (h : i ∈ runItems n) :
    i.wf = true ∧ i.isOpcode = true := by
  obtain ⟨hpos, rfl⟩ := mem_runItems h
  exact ⟨decide_eq_true ⟨Nat.pos_of_ne_zero hpos, hn⟩, rfl⟩

theorem runItems_eq_nil {n : Nat} (h : runItems n = []) : n = 0 := by
  rw [runItems] at h
  split at h
  next hn => exact hn
  · cases h

/-- A pending run takes at most one byte (42_encoder.md R203, R210). -/
theorem runItems_bytes_le (n : Nat) : ((runItems n).flatMap encode).length ≤ 1 := by
  rw [runItems]
  split
  · exact Nat.zero_le _
  · exact le_rfl

theorem runItems_zero_bytes : ((runItems 0).flatMap encode).length = 0 := rfl

/-- The three steps of the coding state: the 62nd pixel of a run, a pixel that joins a run, a pixel that is coded. -/
theorem Coder.step_cases (x : Coder) (p : Pixel) :
    (x.emits p = runItems 62 ∧ (x.next p).run = 0) ∨
    (x.emits p = [] ∧ (x.next p).run = x.run + 1) ∨
    (x.emits p = runItems x.run ++ [selectItem x.cache p x.prev] ∧ (x.next p).run = 0) := by
  by_cases hp : p = x.prev
  · rw [hp]
    by_cases hfull : x.run + 1 = 62
    · obtain ⟨hemits, hnext⟩ := step_full hfull
      exact .inl ⟨hemits, by rw [hnext]⟩
    · obtain ⟨hemits, hnext⟩ := step_join hfull
      exact .inr (.inl ⟨hemits, by rw [hnext]⟩)
  · obtain ⟨hemits, hnext⟩ := step_code hp
    exact .inr (.inr ⟨hemits, by rw [hnext]⟩)

/-- What a pixel makes ENC emit are well-formed opcodes (R202 to R208). -/
theorem Coder.Ok.emits_opcode {x : Coder} (h : x.Ok) {p : Pixel} {i : Instr} (hi : i ∈ x.emits p) :
    i.wf = true ∧ i.isOpcode = true := by
  have hle := h.run_le
  rcases x.step_cases p with ⟨he, -⟩ | ⟨he, -⟩ | ⟨he, -⟩ <;> rw [he] at hi
  · exact runItems_opcode le_rfl hi
  · cases hi
  · rcases List.mem_append.1 hi with hrun | hsel
    · exact runItems_opcode (by omega) hrun
    · obtain rfl := List.mem_singleton.1 hsel
      exact selectItem_opcode _ _ _

theorem Coder.Ok.items_opcode {x : Coder} (h : x.Ok) {ps : List Pixel} {i : Instr} (hi : i ∈ x.items ps) :
    i.wf = true ∧ i.isOpcode = true := by
  induction ps generalizing x with
  | nil =>
    have hle := h.run_le
    exact runItems_opcode (by omega) hi
  | cons p ps ih =>
    rcases List.mem_append.1 hi with hnow | hlater
    · exact h.emits_opcode hnow
    · exact ih (h.next p) hlater

/-- A pixel costs at most 5 bytes, the byte of the pending run counted when the run begins (R212). -/
theorem Coder.emits_bytes_le (x : Coder) (p : Pixel) :
    ((x.emits p).flatMap encode).length + ((runItems (x.next p).run).flatMap encode).length ≤
      ((runItems x.run).flatMap encode).length + 5 := by
  rcases x.step_cases p with ⟨he, hn⟩ | ⟨he, hn⟩ | ⟨he, hn⟩ <;> rw [he, hn]
  · have hfull := runItems_bytes_le 62
    rw [runItems_zero_bytes]
    omega
  · have hrun := runItems_bytes_le (x.run + 1)
    rw [List.flatMap_nil, List.length_nil]
    omega
  · have hsize := (selectItem_size x.cache p x.prev).2
    rw [List.flatMap_append, List.flatMap_singleton, List.length_append, encode_length, runItems_zero_bytes]
    omega

theorem Coder.items_bytes_le (x : Coder) (ps : List Pixel) :
    ((x.items ps).flatMap encode).length ≤ ((runItems x.run).flatMap encode).length + 5 * ps.length := by
  induction ps generalizing x with
  | nil => exact Nat.le_add_right _ _
  | cons p ps ih =>
    have hpixel := x.emits_bytes_le p
    have hrest := ih (x.next p)
    rw [items, List.flatMap_append, List.length_append, List.length_cons]
    omega

/-- Pixels to come, or a pending run, make at least one item: a pixel without an item of its own is in a run. -/
theorem Coder.items_eq_nil {x : Coder} {ps : List Pixel} (h : x.items ps = []) : x.run = 0 ∧ ps = [] := by
  induction ps generalizing x with
  | nil => exact ⟨runItems_eq_nil h, rfl⟩
  | cons p ps ih =>
    obtain ⟨hnow, hlater⟩ := List.append_eq_nil_iff.1 h
    obtain ⟨hrun, -⟩ := ih hlater
    rcases x.step_cases p with ⟨he, -⟩ | ⟨-, hn⟩ | ⟨he, -⟩
    · exact absurd (runItems_eq_nil (he.symm.trans hnow)) (by decide)
    · omega
    · exact absurd (he.symm.trans hnow) (by simp)

theorem Coder.items_bytes_pos (x : Coder) {ps : List Pixel} (h : ps ≠ []) :
    1 ≤ ((x.items ps).flatMap encode).length := by
  have hitems : x.items ps ≠ [] := fun hnil => h (items_eq_nil hnil).2
  exact (List.length_pos_iff.2 hitems).trans_le (length_le_encoded _)

/-! ### Turns of ENC with a host that reads -/

theorem encTurns_add (m n : Nat) (x : Drained) : encTurns (m + n) x = (encTurns m x).bind (encTurns n) := by
  induction m generalizing x with
  | zero => rw [Nat.zero_add]; rfl
  | succ m ih =>
    rw [Nat.succ_add, encTurns, encTurns, Option.bind_assoc]
    exact congrArg _ (funext ih)

theorem encTurns_one (x : Drained) : encTurns 1 x = encDrainTurn x :=
  Option.bind_fun_some _

/-- A turn that does not stop is ENC's turn, its bytes then read. -/
theorem encDrainTurn_some {x y : Drained} (h : encDrainTurn x = some y) :
    ∃ t, encTurn x.2 = .next t ∧ y = (x.1 ++ t.enc.outQ, t.drained) := by
  rw [encDrainTurn] at h
  cases ht : encTurn x.2 <;> rw [ht] at h
  case next t => exact ⟨t, rfl, (Option.some.inj h).symm⟩
  all_goals cases h

/-- Once ENC is not BUSY, its turns change nothing and give no byte. -/
theorem encTurns_of_not_busy (n : Nat) {acc : List Byte} {s : State} (hb : s.enc.state ≠ .busy)
    (hq : s.enc.outQ = []) : encTurns n (acc, s) = some (acc, s) := by
  induction n with
  | zero => rfl
  | succ n ih =>
    have hturn : encDrainTurn (acc, s) = some (acc, s) := by
      rw [encDrainTurn_of_next (encTurn_of_not_busy hb), State.drained, hq, List.append_nil, ← hq]
    rw [encTurns_succ hturn, ih]

/-- The host has read every byte, and OUTCNT is their number (20_memory.md R65). -/
structure Counted (x : Drained) : Prop where
  outQ : x.2.enc.outQ = []
  outCnt : x.2.enc.outCnt = BitVec.ofNat 64 x.1.length

theorem Counted.turn {x y : Drained} (h : Counted x) (hy : encDrainTurn x = some y) : Counted y := by
  obtain ⟨t, ht, rfl⟩ := encDrainTurn_some hy
  obtain ⟨-, -, -, happends⟩ := encRoomRule
  obtain ⟨bs, hq, -, hcnt⟩ := happends _ _ ht
  refine ⟨rfl, ?_⟩
  change t.enc.outCnt = _
  rw [hcnt, h.outCnt, hq, h.outQ, List.nil_append, List.length_append, BitVec.ofNat_add]

theorem Counted.turns {n : Nat} {x y : Drained} (h : Counted x) (hy : encTurns n x = some y) : Counted y := by
  induction n generalizing x with
  | zero => cases hy; exact h
  | succ n ih =>
    obtain ⟨z, hz, hrest⟩ := Option.bind_eq_some_iff.1 hy
    exact ih (h.turn hz) hrest

/-! ### The session of an admitted image, turn by turn -/

section
variable {s : State} (hs : encodable s)
include hs

/-- START admits the image (43_control.md R253). -/
theorem encStart_admits : encStart s = { s with enc := { s.enc.init with state := .busy } } := by
  obtain ⟨hidle, -, -, himage⟩ := hs
  rw [encStart, if_neg hidle, (imageError_none_iff _ _ _ _).2 himage]

theorem encStart_counted : Counted ([], encStart s) := by
  rw [encStart_admits hs]
  exact ⟨rfl, rfl⟩

/-- After k + 1 turns the header is out and k pixels are read (42_encoder.md R200, R201). -/
theorem encTurns_afterPixels {k : Nat} (hk : k ≤ s.enc.n) :
    ∃ x, encTurns (k + 1) ([], encStart s) = some x ∧ AfterPixels s k x.2 := by
  induction k with
  | zero =>
    obtain ⟨u, hu, hafter, -⟩ := encodable_header hs
    exact ⟨_, (encTurns_one _).trans hu, hafter⟩
  | succ k ih =>
    obtain ⟨⟨acc, t⟩, hx, hafter⟩ := ih (by omega)
    obtain ⟨u, hu, hafter', -⟩ := hafter.turn hs hk acc
    exact ⟨_, by rw [encTurns_add, hx, Option.bind_some, encTurns_one, hu], hafter'⟩

/-- Before the last of the N + 2 turns ENC is BUSY (R211). -/
theorem encTurns_busy {m : Nat} (hm : m < s.enc.n + 2) :
    ∃ x, encTurns m ([], encStart s) = some x ∧ x.2.enc.state = .busy := by
  cases m with
  | zero => exact ⟨_, rfl, by rw [encStart_admits hs]⟩
  | succ k =>
    obtain ⟨x, hx, hafter⟩ := encTurns_afterPixels hs (show k ≤ s.enc.n by omega)
    exact ⟨x, hx, hafter.state⟩

/-- The final turn leaves k at N (R210). -/
theorem AfterPixels.final_count {x y : Drained} (h : AfterPixels s s.enc.n x.2) (hy : encDrainTurn x = some y) :
    y.2.enc.k.toNat = s.enc.n := by
  have hphase : x.2.enc.phase = .fin := by rw [h.phase, if_pos rfl]
  obtain ⟨t, ht, rfl⟩ := encDrainTurn_some hy
  rw [encTurn_fin (h.enabled hs) hphase, encFinal, encFlush_eq] at ht
  cases ht
  exact h.count

theorem encodeImage_count {x : Drained} (hx : encodeImage s = some x) : x.2.enc.k.toNat = s.enc.n := by
  obtain ⟨y, hy, hafter⟩ := encTurns_afterPixels hs le_rfl
  rw [encodeImage, encTurns_add (s.enc.n + 1) 1, hy, Option.bind_some, encTurns_one] at hx
  exact hafter.final_count hs hx

theorem State.image_ne_nil : s.image ≠ [] := by
  obtain ⟨-, -, -, -, hpos, -⟩ := hs
  have hpos : 0 < s.enc.n := hpos
  exact List.ne_nil_of_length_pos (by rw [s.image_length]; exact hpos)

/-- The stream's length: the header, the marker, and at least one byte and at most five a pixel between (R212). -/
theorem stream_length :
    let out := hdr s.enc.width s.enc.height s.enc.channels (s.enc.colorspace.setWidth 8) ++
      (Coder.start.items s.image).flatMap encode ++ marker
    23 ≤ out.length ∧ out.length ≤ 14 + 5 * s.enc.n + 8 := by
  have hpos := Coder.start.items_bytes_pos (State.image_ne_nil hs)
  have hle := Coder.start.items_bytes_le s.image
  have hmarker : marker.length = 8 := rfl
  rw [s.image_length, show Coder.start.run = 0 from rfl, runItems_zero_bytes] at hle
  intro out
  rw [List.length_append, List.length_append, hdr_length]
  omega

end

/-- START refuses the image: ENC is in ERROR, and OUTQ is empty (43_control.md R253). -/
theorem encStart_refuses {s : State} {c : ErrCode} (hidle : s.enc.state ≠ .busy)
    (hc : imageError? s.params.pixMemBytes s.enc.width s.enc.height s.enc.channels = some c) :
    encStart s = { s with enc := s.enc.init }.raiseEnc c := by
  rw [encStart, if_neg hidle, hc]

/-- Settles O39: the session is followed turn by turn, its stream is that of the image's items, and a refused image
leaves ENC not BUSY, so that no turn does anything. -/
theorem encodeTerminates : Obligations.EncodeTerminates := by
  refine ⟨fun s hs => ⟨?stream, fun _ hm => encTurns_busy hs hm⟩, fun s c hidle hc => ?refused⟩
  case stream =>
    obtain ⟨t, ht, hdone, -⟩ := encodeImage_eq hs
    rw [← List.append_assoc] at ht
    obtain ⟨hq, hcnt⟩ := (encStart_counted hs).turns ht
    obtain ⟨hge, hle⟩ := stream_length hs
    have hbound := encodable_n_lt hs
    refine ⟨_, t, Coder.start.items s.image, ht, hdone, hq, encodeImage_count hs ht, rfl, fun i hi => ?_, ?_, hge,
      hle⟩
    · obtain ⟨hwf, hop⟩ := Coder.start_ok.items_opcode hi
      exact ⟨hwf, opcode_size_le hwf hop⟩
    · rw [hcnt, BitVec.toNat_ofNat]
      exact Nat.mod_eq_of_lt (hle.trans_lt (by omega))
  case refused =>
    have hstart := encStart_refuses hidle hc
    have hstate : (encStart s).enc.state = .error := by rw [hstart]; rfl
    have herr : (encStart s).enc.err = c := by rw [hstart]; rfl
    have hq : (encStart s).enc.outQ = [] := by rw [hstart]; rfl
    exact ⟨encStart s, encTurns_of_not_busy _ (by rw [hstate]; decide) hq, hstate, herr⟩

end Sys2Proof.Machine
end

section
/-!
PROOFS. The rules of control (spec/43_control.md): whose turn it is and what HOST's turn performs (R250, R251), what the
commands of one CTRL write do (R252 to R256, R262), what a write of DEC_IN_DATA does (R263), and how STATE changes in a
step (R257).
-/

open Sys2Proof Sys2Proof.Machine Sys2Proof.Claims

namespace Sys2Proof.Machine

/-! ### Whose turn it is -/

/-- A turn fixed in the schedule is taken from it, and nothing is drawn. -/
theorem step_of_sched {s : State} {a : Agent} {rest : List Agent} (h : s.sched = a :: rest) :
    step s = agentTurn a { s with sched := rest } := by
  rw [step, turn_of_sched h, State.beginTurn, State.choiceFree, h]
  rfl

/-- Where no engine has an enabled step, HOST moves. -/
theorem step_host_of_idle {s : State} (h : s.sched = []) (he : encEnabled s.params s.enc = false)
    (hd : decEnabled s.dec = false) : step s = hostTurn s := by
  obtain ⟨hturn, hbegin⟩ := turn_host_of_idle h he hd
  rw [step, hturn, hbegin]
  rfl

/-- An act that waits is taken from the list, and nothing is drawn. -/
theorem hostTurn_of_waiting {s : State} {a : HostAct} {rest : List HostAct} (h : s.hostQ = a :: rest) :
    hostTurn s = hostAct a { s with hostQ := rest } := by
  rw [hostTurn, State.nextAct, State.takeAct, h]
  rfl

/-- Where no act waits, the act is drawn. -/
theorem hostTurn_of_empty {s : State} (h : s.hostQ = []) :
    hostTurn s = hostAct (Config.freeAct s.draws) { s with draws := s.draws + 1 } := by
  rw [hostTurn, State.nextAct, State.takeAct, h]
  rfl

/-- Settles O58: the head of the schedule moves, beyond it an enabled agent; the host's act is the oldest that waits,
beyond the list a free one. -/
theorem anyAgentMayMove : Obligations.AnyAgentMayMove :=
  ⟨fun _ _ _ => step_of_sched, fun _ => turn_enabled, fun _ => step_host_of_idle, fun _ _ _ => hostTurn_of_waiting,
    fun _ => hostTurn_of_empty⟩

/-! ### How STATE changes -/

/-- An item leaves STATE or ends the session (41_decoder.md R151, R159, R160). -/
theorem exec_dec_state {i : Instr} {s t : State} (h : exec i s = .next t) :
    t.dec.state = s.dec.state ∨ t.dec.state = .done ∨ t.dec.state = .error := by
  cases i with
  | rgba | rgb | index | diff | luma =>
    obtain ⟨-, rfl⟩ := resolve_next h
    exact .inl rfl
  | run len =>
    rcases execRun_next h with ⟨-, rfl⟩ | ⟨-, rfl⟩
    · exact .inr (.inr rfl)
    · exact .inl rfl
  | endMark =>
    rcases execEndMark_next h with ⟨-, rfl⟩ | ⟨-, rfl⟩
    · exact .inr (.inl rfl)
    · exact .inr (.inr rfl)
  | header w hh ch cs =>
    rcases execHeader_next h with ⟨c, -, rfl⟩ | ⟨-, rfl⟩
    · exact .inr (.inr rfl)
    · exact .inl rfl

/-- DEC's turn leaves STATE, or takes it from BUSY to DONE or ERROR (43_control.md R257). -/
theorem decTurn_state {s t : State} (h : decTurn s = .next t) :
    t.dec.state = s.dec.state ∨ s.dec.state = .busy ∧ (t.dec.state = .done ∨ t.dec.state = .error) := by
  cases he : decEnabled s.dec with
  | false =>
    cases (decTurn_of_disabled he).symm.trans h
    exact .inl rfl
  | true =>
    obtain ⟨hb, -⟩ := decEnabled_iff.1 he
    cases ha : decAct s.dec with
    | fail c =>
      cases (decTurn_fail he ha).symm.trans h
      exact .inr ⟨hb, .inr rfl⟩
    | run i => exact (exec_dec_state ((decTurn_run he ha).symm.trans h)).imp_right fun hend => ⟨hb, hend⟩

theorem encFlush_state (s : State) : (encFlush s).enc.state = s.enc.state := by rw [encFlush_enc]

/-- A pixel step leaves ENC.STATE. -/
theorem encPixel_state (p : Pixel) (s : State) : (encPixel p s).enc.state = s.enc.state := by
  by_cases h : p = s.enc.prev
  · rw [h, encPixel_run]
  · rw [encPixel_code h]

/-- ENC's turn leaves STATE, or takes it from BUSY to DONE: it raises no error (R257). -/
theorem encTurn_state {s t : State} (h : encTurn s = .next t) :
    t.enc.state = s.enc.state ∨ s.enc.state = .busy ∧ t.enc.state = .done := by
  cases he : encEnabled s.params s.enc with
  | false =>
    cases (encTurn_of_disabled he).symm.trans h
    exact .inl rfl
  | true =>
    obtain ⟨hb, -⟩ := encEnabled_iff.1 he
    cases hph : s.enc.phase with
    | hdr =>
      cases (encTurn_hdr he hph).symm.trans h
      exact .inl rfl
    | pix =>
      rw [encTurn_pix he hph] at h
      split at h <;> cases h
      exact .inl (encPixel_state s.readPixel s.drawPixel)
    | fin =>
      cases (encTurn_fin he hph).symm.trans h
      exact .inr ⟨hb, rfl⟩

/-- START ends in BUSY, or in ERROR where a size check fails (R253). -/
theorem encStart_state (s : State) : (encStart s).enc.state = .busy ∨ (encStart s).enc.state = .error := by
  rw [encStart]
  split
  case isTrue hb => exact .inl hb
  case isFalse =>
    split
    · exact .inr rfl
    · exact .inl rfl

/-- START ends in BUSY, whichever state it is taken in (R252, R254). -/
theorem decStart_state (s : State) : (decStart s).dec.state = .busy := by
  rw [decStart]
  split
  case isTrue hb => exact hb
  case isFalse => rfl

/-- ABORT gives IDLE, START gives BUSY or ERROR, and no other bit writes ENC.STATE. -/
theorem encCommand_state (v : Word) (s : State) : (encCommand v s).enc.state = s.enc.state ∨
    (encCommand v s).enc.state = .idle ∨
    (encCommand v s).enc.state = .busy ∨ (encCommand v s).enc.state = .error := by
  rw [encCommand]
  split_ifs
  · exact .inr (.inl rfl)
  · exact .inr (.inr (encStart_state s))
  · exact .inl rfl

/-- ABORT gives IDLE, START gives BUSY, and no other bit writes DEC.STATE. -/
theorem decCommand_state (v : Word) (s : State) : (decCommand v s).dec.state = s.dec.state ∨
    (decCommand v s).dec.state = .idle ∨ (decCommand v s).dec.state = .busy := by
  simp only [decCommand]
  split_ifs
  · exact .inr (.inl rfl)
  · exact .inr (.inr ((decInLast_state _).trans (decStart_state s)))
  · exact .inl (decInLast_state s)
  · exact .inr (.inr (decStart_state s))
  · exact .inl rfl

/-- A host act leaves ENC.STATE, or sets it to IDLE, BUSY or ERROR. -/
theorem hostAct_enc_state {a : HostAct} {s t : State} (h : hostAct a s = .next t) :
    t.enc.state = s.enc.state ∨ t.enc.state = .idle ∨ t.enc.state = .busy ∨ t.enc.state = .error := by
  cases a with
  | reset => cases h; exact .inr (.inl rfl)
  | read x w =>
    obtain ⟨r, v, n, rfl⟩ := hostRead_next h
    exact .inl (encAfterRead_state r s.enc)
  | write x w v =>
    rcases hostWrite_next h with ⟨off, -, -, rfl⟩ | ⟨off, -, -, rfl⟩ | ⟨e, d, rfl⟩
    · by_cases hctrl : encRegAt off = .ctrl
      · rw [hctrl]; exact encCommand_state _ s
      · exact .inl (encRegWrite_state hctrl _ s)
    · exact .inl (by rw [decRegWrite_enc])
    · exact .inl rfl

/-- A host act leaves DEC.STATE, or sets it to IDLE or BUSY. -/
theorem hostAct_dec_state {a : HostAct} {s t : State} (h : hostAct a s = .next t) :
    t.dec.state = s.dec.state ∨ t.dec.state = .idle ∨ t.dec.state = .busy := by
  cases a with
  | reset => cases h; exact .inr (.inl rfl)
  | read x w =>
    obtain ⟨r, v, n, rfl⟩ := hostRead_next h
    exact .inl rfl
  | write x w v =>
    rcases hostWrite_next h with ⟨off, -, -, rfl⟩ | ⟨off, -, -, rfl⟩ | ⟨e, d, rfl⟩
    · exact .inl (by rw [encRegWrite_dec])
    · by_cases hctrl : decRegAt off = .ctrl
      · rw [hctrl]; exact decCommand_state _ s
      · exact .inl (decRegWrite_state hctrl _ s)
    · exact .inl rfl

theorem agentTurn_dec_state {a : Agent} {s t : State} (h : agentTurn a s = .next t) :
    t.dec.state = s.dec.state ∨
      a = .dec ∧ s.dec.state = .busy ∧ (t.dec.state = .done ∨ t.dec.state = .error) ∨
      a = .host ∧ (t.dec.state = .idle ∨ t.dec.state = .busy) := by
  cases a with
  | host => exact (hostAct_dec_state (s := s.takeAct) h).imp_right fun hset => .inr ⟨rfl, hset⟩
  | enc => exact .inl (by rw [encTurn_dec h])
  | dec => exact (decTurn_state h).imp_right fun hend => .inl ⟨rfl, hend⟩

theorem agentTurn_enc_state {a : Agent} {s t : State} (h : agentTurn a s = .next t) :
    t.enc.state = s.enc.state ∨
      a = .enc ∧ s.enc.state = .busy ∧ t.enc.state = .done ∨
      a = .host ∧ (t.enc.state = .idle ∨ t.enc.state = .busy ∨ t.enc.state = .error) := by
  cases a with
  | host => exact (hostAct_enc_state (s := s.takeAct) h).imp_right fun hset => .inr ⟨rfl, hset⟩
  | enc => exact (encTurn_state h).imp_right fun hend => .inl ⟨rfl, hend⟩
  | dec => exact .inl (by rw [decTurn_enc h])

/-- Settles O59: how each agent's turn changes STATE, and that an engine that is not BUSY takes no step. -/
theorem lifeCycle : Obligations.LifeCycle := by
  intro s t h
  refine ⟨agentTurn_dec_state (s := s.beginTurn) h, agentTurn_enc_state (s := s.beginTurn) h, fun ha hs => ?dec,
    fun ha hs => ?enc⟩
  case dec =>
    rw [step, ha] at h
    cases (decTurn_of_not_busy (s := s.beginTurn) hs).symm.trans h
    exact ⟨rfl, rfl⟩
  case enc =>
    rw [step, ha] at h
    cases (encTurn_of_not_busy (s := s.beginTurn) hs).symm.trans h
    rfl

/-! ### START -/

/-- START of an ENC that is not BUSY makes the size checks in the order of 60_exceptions.md R305. -/
theorem encStart_eq {s : State} (h : s.enc.state ≠ .busy) : encStart s =
    if s.enc.channels ≠ 3 ∧ s.enc.channels ≠ 4 then { s with enc := s.enc.init }.raiseEnc .invalidChannelCount
    else if s.enc.n = 0 then { s with enc := s.enc.init }.raiseEnc .emptyImage
    else if s.params.pixMemBytes < s.enc.n * s.enc.channels.toNat then
      { s with enc := s.enc.init }.raiseEnc .bufferTooSmall
    else { s with enc := { s.enc.init with state := .busy } } := by
  rw [encStart, if_neg h, imageError?, Enc.n]
  split_ifs <;> rfl

/-- Settles O42: `encStart_eq` with the initialised fields written out. -/
theorem encStartRule : Obligations.EncStartRule := fun _ h => encStart_eq h

theorem decStart_of_not_busy {s : State} (h : s.dec.state ≠ .busy) : decStart s = { s with dec := s.dec.init } :=
  if_neg h

/-- After START DEC_STATUS shows BUSY and nothing else (R254). -/
theorem decStatus_init (d : Dec) : decStatus d.init = 1 := BitVec.eq_of_toNat_eq (decStatus_toNat d.init)

/-- After START the whole FIFO is free (43_control.md R254). -/
theorem inFree_init {p : Config.Params} (d : Dec) (h : p.inDepth < 2 ^ 32) : (inFree p d.init).toNat = p.inDepth := by
  rw [inFree_toNat, if_pos ⟨rfl, rfl⟩]
  exact if_pos h

/-- Settles O43: START leaves `Dec.init`, every field of which is given. -/
theorem decStartRule : Obligations.DecStartRule := by
  intro s h
  rw [decStart_of_not_busy h]
  exact ⟨rfl, decStatus_init s.dec, inFree_init s.dec⟩

/-! ### The commands of one CTRL write -/

/-- A 32-bit register takes the low bits of the bus value. -/
theorem register_bit (v : BitVec 64) {i : Nat} (h : i < 32) : (v.setWidth 32).getLsbD i = v.getLsbD i := by
  rw [BitVec.getLsbD_setWidth, decide_eq_true h, Bool.true_and]

theorem encStart_of_busy {s : State} (h : s.enc.state = .busy) : encStart s = s := if_pos h

theorem decStart_of_busy {s : State} (h : s.dec.state = .busy) : decStart s = s := if_pos h

/-- A START bit that is ignored while BUSY takes effect only where the engine is not BUSY (R252). -/
theorem start_unless_busy {bit busy : Prop} [Decidable bit] [Decidable busy] {started s : State}
    (h : busy → started = s) : (if bit then started else s) = if bit ∧ ¬ busy then started else s := by
  by_cases hb : busy
  · rw [h hb, ite_self, ite_self]
  · simp only [hb, not_false_eq_true, and_true]

theorem encCommand_abort {v : Word} (h : v.getLsbD 1 = true) (s : State) : encCommand v s = encAbort s := if_pos h

theorem encCommand_start {v : Word} (h : v.getLsbD 1 = false) (s : State) :
    encCommand v s = if v.getLsbD 0 = true ∧ s.enc.state ≠ .busy then encStart s else s := by
  rw [encCommand, if_neg (Bool.eq_false_iff.1 h)]
  exact start_unless_busy encStart_of_busy

theorem decCommand_abort {v : Word} (h : v.getLsbD 1 = true) (s : State) : decCommand v s = decAbort s := if_pos h

/-- Without ABORT, START comes first, and IN_LAST sees the STATE that START left (R256). -/
theorem decCommand_start_last {v : Word} (h : v.getLsbD 1 = false) (s : State) : decCommand v s =
    let t := if v.getLsbD 0 = true ∧ s.dec.state ≠ .busy then decStart s else s
    if v.getLsbD 2 = true ∧ t.dec.state = .busy then { t with dec := { t.dec with inLast := true } } else t := by
  rw [decCommand, if_neg (Bool.eq_false_iff.1 h), start_unless_busy decStart_of_busy]
  exact (ite_and _ _ _ _).symm

/-- A DEC register's write leaves a state: what the bus write leaves. -/
theorem writesReg_dec {s t : State} (hp : s.params.wf) {v : BitVec 64} {off : Nat} (h : off < 256) (h4 : off % 4 = 0)
    (ht : decRegWrite (decRegAt off) (v.setWidth 32) s = t) : writesReg s (s.params.decBase + off) v t := by
  rw [writesReg, hostWrite_regD hp v h h4, ht]

theorem writesReg_encCtrl (s : State) (v : BitVec 64) :
    writesReg s s.params.encBase v (encCommand (v.setWidth 32) s) :=
  writesReg_enc (off := 0) (by decide) (by decide) rfl

theorem writesReg_decCtrl {s : State} (hp : s.params.wf) (v : BitVec 64) :
    writesReg s s.params.decBase v (decCommand (v.setWidth 32) s) :=
  writesReg_dec hp (off := 0) (by decide) (by decide) rfl

/-- Settles O44: a CTRL write is the block's command on the bits of the bus value. -/
theorem commandPrecedence : Obligations.CommandPrecedence := by
  intro s v hp
  have hencCtrl := writesReg_encCtrl s v
  have hdecCtrl := writesReg_decCtrl hp v
  have hbit1 := register_bit v (i := 1) (by decide)
  refine ⟨fun habort => ?abort, fun hno => ?start⟩
  case abort =>
    rw [encCommand_abort (hbit1.trans habort)] at hencCtrl
    rw [decCommand_abort (hbit1.trans habort)] at hdecCtrl
    exact ⟨hencCtrl, hdecCtrl⟩
  case start =>
    rw [encCommand_start (hbit1.trans hno), register_bit v (by decide)] at hencCtrl
    rw [decCommand_start_last (hbit1.trans hno), register_bit v (i := 0) (by decide),
      register_bit v (i := 2) (by decide)] at hdecCtrl
    exact ⟨hencCtrl, hdecCtrl⟩

/-! ### A write of DEC_IN_DATA -/

theorem decAccepts_iff {p : Config.Params} {d : Dec} : decAccepts p d = true ↔
    d.state = .busy ∧ d.inLast = false ∧ d.avail - d.pos.toNat < p.inDepth := decide_eq_true_iff

theorem decPush_accepted {s : State} (h : decAccepts s.params s.dec = true) (v : Byte) :
    decPush v s = { s with dec := { s.dec with input := s.dec.input ++ [v] } } := if_pos h

theorem decPush_discarded {s : State} (h : ¬ decAccepts s.params s.dec = true) (v : Byte) :
    decPush v s = { s with dec := { s.dec with inOvf := true } } := if_neg h

theorem writesReg_inData {s : State} (hp : s.params.wf) (v : BitVec 64) :
    writesReg s (s.params.decBase + 0x24) v (decPush (v.extractLsb' 0 8) s) := by
  obtain ⟨hbyte, -⟩ := format_fields v
  rw [← hbyte]
  exact writesReg_dec hp (by decide) (by decide) rfl

/-- Settles O45: the three conditions are `decAccepts`, by which `decPush` pushes or discards. -/
theorem pushRule : Obligations.PushRule := by
  intro s v hp
  have hwrite := writesReg_inData hp v
  refine ⟨fun hb hl hroom => ?push, fun hany => ?discard⟩
  case push => rwa [decPush_accepted (decAccepts_iff.2 ⟨hb, hl, hroom⟩)] at hwrite
  case discard =>
    have hrefused : ¬ decAccepts s.params s.dec = true := by
      rw [decAccepts_iff]
      rintro ⟨hb, hl, hroom⟩
      rcases hany with hidle | hlast | hfull
      · exact hidle hb
      · rw [hl] at hlast; cases hlast
      · exact absurd hroom (Nat.not_lt.2 hfull)
    rwa [decPush_discarded hrefused] at hwrite

end Sys2Proof.Machine
end

section
/-!
PROOFS. The rules of exceptions (spec/60_exceptions.md): what a step of DEC that raises an error writes (R301, R303).
-/

open Sys2Proof Sys2Proof.Machine Sys2Proof.Claims

namespace Sys2Proof.Machine

/-- An item that raises an error writes STATE and ERR alone, and HEADER the header fields before them (R301). -/
theorem exec_raises {i : Instr} {s t : State} (h : exec i s = .next t) (hb : s.dec.state = .busy)
    (ht : t.dec.state = .error) :
    t = decError s .pixelCountMismatch ∨
      ∃ w hh ch cs c, i = .header w hh ch cs ∧ c ≠ .none ∧ t = decError (s.setHeader w hh ch cs) c := by
  have hrun : s.dec.state ≠ .error := by rw [hb]; decide
  cases i with
  | rgba | rgb | index | diff | luma =>
    obtain ⟨-, rfl⟩ := resolve_next h
    exact absurd ht hrun
  | run len =>
    rcases execRun_next h with ⟨-, rfl⟩ | ⟨-, rfl⟩
    · exact .inl rfl
    · exact absurd ht hrun
  | endMark =>
    rcases execEndMark_next h with ⟨-, rfl⟩ | ⟨-, rfl⟩
    · cases ht
    · exact .inl rfl
  | header w hh ch cs =>
    rcases execHeader_next h with ⟨c, hc, rfl⟩ | ⟨-, rfl⟩
    · exact .inr ⟨w, hh, ch, cs, c, rfl, imageError_ne_none hc, rfl⟩
    · exact absurd ht hrun

/-- The body step never runs a header: HEADER is recognised by its position (30_encoding.md R84). -/
theorem decAct_run_header {d : Dec} {w h : Word} {ch cs : Byte} (ha : decAct d = .run (.header w h ch cs)) :
    d.phase = .hdr := by
  cases hph : d.phase with
  | hdr => rfl
  | body =>
    rcases bodyAct_run ((decAct_body hph).symm.trans ha) with ⟨hend, -⟩ | ⟨-, hop, -⟩
    · cases hend
    · cases hop

/-- What DEC's turn can do when it ends in ERROR: raise an error on the state as it was, or, in the header step, on that
state with the header's fields. -/
theorem decTurn_raises {s t : State} (h : decTurn s = .next t) (hb : s.dec.state = .busy)
    (ht : t.dec.state = .error) :
    ∃ c, c ≠ .none ∧ (t = decError s c ∨
      s.dec.phase = .hdr ∧ ∃ w hh ch cs, t = decError (s.setHeader w hh ch cs) c) := by
  cases he : decEnabled s.dec with
  | false =>
    cases (decTurn_of_disabled he).symm.trans h
    rw [hb] at ht
    cases ht
  | true =>
    cases ha : decAct s.dec with
    | fail c =>
      cases (decTurn_fail he ha).symm.trans h
      exact ⟨c, decAct_fail_ne ha, .inl rfl⟩
    | run i =>
      rcases exec_raises ((decTurn_run he ha).symm.trans h) hb ht with hraise | ⟨w, hh, ch, cs, c, rfl, hc, hraise⟩
      · exact ⟨_, by decide, .inl hraise⟩
      · exact ⟨c, hc, .inr ⟨decAct_run_header ha, w, hh, ch, cs, hraise⟩⟩

/-- Settles O27: both states of `decTurn_raises` update DEC alone, the second only in the header step. -/
theorem decErrorPrecise : Obligations.DecErrorPrecise := by
  intro s t h hb ht
  obtain ⟨c, hc, rfl | ⟨hph, w, hh, ch, cs, rfl⟩⟩ := decTurn_raises h hb ht
  · exact ⟨⟨rfl, rfl, rfl, rfl, rfl, rfl, rfl⟩, rfl, hc, fun _ => rfl, fun _ => rfl⟩
  · exact ⟨⟨rfl, rfl, rfl, rfl, rfl, rfl, rfl⟩, rfl, hc,
      fun hbody => absurd (hph.symm.trans hbody) (by decide), fun _ => rfl⟩

end Sys2Proof.Machine
end

section
/-!
PROOFS. The rules of reset (spec/70_reset_and_hazards.md): what every register of the two blocks reads after it, and the
state it leaves (R340, R341).
-/

open Sys2Proof Sys2Proof.Machine Sys2Proof.Claims

namespace Sys2Proof.Machine

/-- No ENC register shows a one after reset. -/
theorem encRegValue_reset (r : EncReg) : encRegValue Enc.reset r = 0 := by
  cases r with
  | ctrl | width | height | outData | reserved => rfl
  | status => exact (by decide : encStatus Enc.reset = 0)
  | format => exact (by decide : encFormat Enc.reset = 0)
  | pixposLo | outcntLo => exact (by decide : loHalf 0 = 0)
  | pixposHi | outcntHi => exact (by decide : hiHalf 0 = 0)
  | outLevel => exact (by decide : countWord 0 = 0)

/-- DEC_IN_FREE reads 0 outside a session, whatever depth the platform's FIFO has (10_state.md R60). -/
theorem inFree_of_not_busy {d : Dec} (p : Config.Params) (h : d.state ≠ .busy) : inFree p d = 0 :=
  if_neg fun hbusy => h hbusy.1

/-- No DEC register shows a one after reset, on any platform. -/
theorem decRegValue_reset (p : Config.Params) (r : DecReg) : decRegValue p Dec.reset r = 0 := by
  cases r with
  | ctrl | width | height | inData | reserved => rfl
  | status => exact (by decide : decStatus Dec.reset = 0)
  | format => exact (by decide : decFormat Dec.reset = 0)
  | pixcntLo | incntLo => exact (by decide : loHalf 0 = 0)
  | pixcntHi | incntHi => exact (by decide : hiHalf 0 = 0)
  | inFree => exact inFree_of_not_busy p (by decide)

/-- Settles O52: the reset input and a fresh machine both leave `Enc.reset` and `Dec.reset`, whose fields are given and
whose registers read 0. -/
theorem resetRule : Obligations.ResetRule := by
  refine ⟨fun s => ⟨hardReset s, rfl, rfl, ?_⟩, fun p => ?_⟩ <;>
    exact ⟨⟨rfl, rfl, rfl, rfl, rfl, rfl, rfl, rfl, rfl⟩,
      ⟨rfl, rfl, rfl, rfl, rfl, rfl, rfl, rfl, rfl, rfl, rfl, rfl⟩, encRegValue_reset, decRegValue_reset _⟩

end Sys2Proof.Machine
end
